-- ==== Sys2Proof/Word.lean ====
section
/-! DEFINITION. The word types of the LD19 frame pipeline (00_scope.md R7): every width the spec gives a port word,
a wire field or a ring entry. Values the spec counts with no width (parameters, indices being computed) are `Nat`. -/

namespace Sys2Proof

/-- A byte of the wire or of the frame buffer (`u8`, R7, R15). -/
abbrev Byte := BitVec 8

/-- A 16-bit wire field (`u16`, R7, R51). -/
abbrev Half := BitVec 16

/-- A 32-bit word: counters, response words, status values (R58, R59). -/
abbrev Word := BitVec 32

/-- A source event word `SRCW[9:0]` (R48). -/
abbrev SrcWord := BitVec 10

/-- A consumer command word `CMD[31:0]` (R56). -/
abbrev CmdWord := BitVec 32

/-- A point word `PW[71:0]`, one ring entry: `{INTENSITY, Y, X}` (R60). -/
abbrev PointWord := BitVec 72

end Sys2Proof
end

