-- ==== Sys2Proof/Config.lean ====
section
/-! DEFINITION. The build parameters (00_scope.md R5), the constants (R6), and the values the spec leaves open, each an
opaque constant with no body, so that no proof can rest on what it is. -/

namespace Sys2Proof

/-- `FRAME_LEN`: bytes in a frame (R6). -/
abbrev frameLen : Nat := 47

/-- `NSLOT`: measurement slots in a frame (R6). -/
abbrev slotCount : Nat := 12

/-- `FRAC`: fractional bits of X and Y; a coordinate counts units of 1/2^FRAC mm (R6). -/
abbrev fracBits : Nat := 8

/-- `ADEN`: angle-code units in one degree (R6, R61). -/
abbrev angleDen : Nat := 1100

/-- Centidegrees in a full turn, the modulus of the wire's angle fields (R81). -/
abbrev turnCentideg : Nat := 36000

/-- Angle codes in a full turn: `360 * ADEN` (R61, R83). -/
abbrev turnCodes : Nat := 396000

/-- Which coordinate of a point a projection value is: `PROJ_X` or `PROJ_Y` (R91). -/
inductive Axis where
  | x
  | y
  deriving DecidableEq, Repr

/-- The build's projection pair `PROJ` (R5, R91). `reference` is `PROJ_REF` (R92), the value of this hardware.
`faithful b` is any other build: where the ideal value is no integer it takes the floor or the ceiling as the free value
`Config.roundUp b` says, so nothing but faithfulness (R91) can be proved of it. -/
inductive ProjBuild where
  | reference
  | faithful (build : Nat)
  deriving DecidableEq, Repr

/-- The parameters of one build (R5). They are fixed when the block is built; `State` carries them and no step writes
them (R47, R125). -/
structure Params where
  /-- `C`, the ring capacity in points. -/
  capacity : Nat
  /-- `MARKER`, the frame start byte. -/
  marker : Byte
  /-- `P`, the number of consumer ports. -/
  ports : Nat
  /-- `CRC_POLY`, the x^8 term omitted. -/
  crcPoly : Byte
  /-- `CRC_INIT`. -/
  crcInit : Byte
  /-- `PROJ`. -/
  proj : ProjBuild
  deriving DecidableEq, Repr

/-- The legal values of R5 that the types do not already enforce: `1 ≤ C ≤ 2^24` and `P ≥ 1`. -/
abbrev Params.legal (p : Params) : Prop :=
  1 ≤ p.capacity ∧ p.capacity ≤ 2 ^ 24 ∧ 1 ≤ p.ports

/-- The width of `HEAD` and of every `HEAD_L[p]`: ceil(log2 C) bits, at least 1 (R18, R29). 13 bits for C = 5000. -/
def Params.headBits (p : Params) : Nat := Nat.log2 (p.capacity - 1) + 1

/-- The value of every parameter for this hardware (R5, last column but one). -/
def Params.ld19 : Params where
  capacity := 5000
  marker := 0x54#8
  ports := 1
  crcPoly := 0x4D#8
  crcInit := 0x00#8
  proj := .reference

/-- FREE VALUE (log entry 1). What frame-buffer byte `FB[j]` holds after the `epoch`-th RESET and before anything wrote
it: unspecified (R34, I8). -/
opaque Config.fbUnwritten (epoch j : Nat) : Byte

/-- FREE VALUE (log entry 2). What ring entry `RAM[idx]` holds before anything wrote it: unspecified (R34, I8). -/
opaque Config.ramUnwritten (idx : Nat) : PointWord

/-- FREE VALUE (log entry 3). Whether build `b` rounds the coordinate of distance `d` at angle code `a` up or down, where
the ideal value is no integer: the spec leaves it to the implementation (R91, D12). -/
opaque Config.roundUp (b : Nat) (axis : Axis) (d a : Nat) : Bool

end Sys2Proof
end

