-- ==== Sys2Proof/Syntax.lean ====
section
/-! DEFINITION. The steps of the block as syntax: one constructor of `Instr` for each row of spec/opcode_table.json.
The block runs no program (R2); its "instructions" are the words it accepts on its ports and its sequencer's internal
steps. An operand holds every bit of the port word the row does not fix, ignored bits included, so that a word and its
instruction determine each other. -/

namespace Sys2Proof

/-- `WSTATE`, the writer's state (R13). Codes 5, 6 and 7 are never entered, so they are not representable (R13, I16). -/
inductive WState where
  /-- code 0: searching for a marker; no candidate held -/
  | hunt
  /-- code 1: a candidate of NB bytes is held; collecting the rest -/
  | collect
  /-- code 2: a complete candidate is held; the decode step is due -/
  | decode
  /-- code 3: an accepted frame is being emitted; slot SLOT is due -/
  | push
  /-- code 4: the transport is closed; the writer is stopped -/
  | closed
  deriving DecidableEq, Repr

/-- One measurement slot of a frame: distance in millimetres and intensity (R50, R52). -/
structure Slot where
  dist : Half
  intensity : Byte
  deriving DecidableEq, Repr

/-- The fields of a wire frame after its marker byte, in wire order (R50). The checksum byte is a field like any other:
a frame on the wire may carry a wrong one. -/
structure Frame where
  verlen : Byte
  speed : Half
  startAngle : Half
  slots : Vector Slot 12
  endAngle : Half
  timestamp : Half
  crc : Byte
  deriving DecidableEq, Repr

/-- One constructor for each row of spec/opcode_table.json. A consumer command carries the port `p` it comes in on (R56). -/
inductive Instr where
  /-- `HUNT_MARKER` (R65): the DATA byte equal to MARKER, in HUNT. -/
  | huntMarker
  /-- `HUNT_SKIP` (R66): a DATA byte other than MARKER, in HUNT. -/
  | huntSkip (b : Byte)
  /-- `HUNT_TIMEOUT` (R68): TIMEOUT in HUNT; the DATA bits are ignored. -/
  | huntTimeout (ign : Byte)
  /-- `COLLECT_BYTE` (R69): a DATA byte in COLLECT with NB < 46. -/
  | collectByte (b : Byte)
  /-- `COLLECT_LAST` (R70): a DATA byte in COLLECT with NB = 46. -/
  | collectLast (b : Byte)
  /-- `COLLECT_TIMEOUT` (R71): TIMEOUT in COLLECT; the DATA bits are ignored. -/
  | collectTimeout (ign : Byte)
  /-- `CLOSED` (R67): CLOSED in HUNT or COLLECT; the DATA bits are ignored. -/
  | closed (ign : Byte)
  /-- `SRC_RSVD` (R49): the reserved kind 11, which acts as TIMEOUT; the DATA bits are ignored. -/
  | srcRsvd (ign : Byte)
  /-- `SRC_NOT_ACCEPTED` (R72): any event word offered in DECODE, PUSH or CLOSED. -/
  | srcNotAccepted (w : SrcWord)
  /-- `DECODE` (R76): the internal step of state DECODE. -/
  | decode
  /-- `PUSH` (R96): the internal step of state PUSH, one slot. -/
  | push
  /-- `SNAP` (R101) on port `p`; bits 27:0 are ignored. -/
  | snap (p : Nat) (ign : BitVec 28)
  /-- `READ` (R102) of snapshot index `k` on port `p`; bits 27:24 are ignored. -/
  | read (p : Nat) (ign : BitVec 4) (k : BitVec 24)
  /-- `STAT` (R105) of selector `sel` on port `p`; bits 27:8 are ignored. -/
  | stat (p : Nat) (ign : BitVec 20) (sel : Byte)
  /-- `CMD_RSVD_0` (R106): reserved OP 0x0 on port `p`. -/
  | cmdRsvd0 (p : Nat) (ign : BitVec 28)
  /-- `CMD_RSVD_4_7` (R106): reserved OP 0x4 to 0x7 on port `p`; `op` is bits 29:28. -/
  | cmdRsvd47 (p : Nat) (op : BitVec 2) (ign : BitVec 28)
  /-- `CMD_RSVD_8_F` (R106): reserved OP 0x8 to 0xF on port `p`; `op` is bits 30:28. -/
  | cmdRsvd8F (p : Nat) (op : BitVec 3) (ign : BitVec 28)
  /-- `RESET` (R122): the host's reset input asserted. -/
  | reset
  /-- `WIRE_FRAME` (R50, R63): the source sends a whole 47-byte frame, which is 47 DATA events in order (R48). -/
  | wireFrame (f : Frame)
  deriving DecidableEq, Repr

end Sys2Proof
end

