-- ==== Sys2Proof/WellFormed.lean ====
section
/-! DEFINITION. Which terms of `Instr` are steps some port word of a build with parameters `p` stands for. -/

namespace Sys2Proof

/-- `HUNT_SKIP` is a DATA byte other than MARKER (R66), and a command comes in on one of the build's ports 0..P−1 (R56).
Every other operand value is legal (R54, R56). -/
def Instr.wf (p : Params) : Instr → Bool
  | .huntSkip b => b != p.marker
  | .snap q _ => decide (q < p.ports)
  | .read q _ _ => decide (q < p.ports)
  | .stat q _ _ => decide (q < p.ports)
  | .cmdRsvd0 q _ => decide (q < p.ports)
  | .cmdRsvd47 q _ _ => decide (q < p.ports)
  | .cmdRsvd8F q _ _ => decide (q < p.ports)
  | .huntMarker => true
  | .huntTimeout _ => true
  | .collectByte _ => true
  | .collectLast _ => true
  | .collectTimeout _ => true
  | .closed _ => true
  | .srcRsvd _ => true
  | .srcNotAccepted _ => true
  | .decode => true
  | .push => true
  | .reset => true
  | .wireFrame _ => true

end Sys2Proof
end

