-- ==== Sys2Proof/Decode.lean ====
section
/-! DEFINITION. From port words to instructions and back: the wire frame's layout (30_encoding.md R50-R54), the decoder
(R48, R49, R56, R57 and the selection table of 40_synchronizer.md R64), the encoder written from the same tables, and the
host's `decodeTableWord`. -/

namespace Sys2Proof

/-! ## Byte order and frame layout -/

/-- `LE16(lo, hi)`: the low byte comes first on the wire (R8, R38). -/
def le16 (lo hi : Byte) : Half := hi ++ lo

/-- The less significant byte of a 16-bit field, which stands at the lower offset (R38). -/
def loByte (h : Half) : Byte := h.extractLsb' 0 8

/-- The more significant byte of a 16-bit field. -/
def hiByte (h : Half) : Byte := h.extractLsb' 8 8

/-- `VERLEN` of the 47 bytes `b` (R51). -/
def verlenOf (b : Nat → Byte) : Byte := b 1

/-- `SPEED` (R51). -/
def speedOf (b : Nat → Byte) : Half := le16 (b 2) (b 3)

/-- `START_RAW` (R51). -/
def startRawOf (b : Nat → Byte) : Half := le16 (b 4) (b 5)

/-- `END_RAW` (R51). -/
def endRawOf (b : Nat → Byte) : Half := le16 (b 42) (b 43)

/-- `TSTAMP` (R51). -/
def tstampOf (b : Nat → Byte) : Half := le16 (b 44) (b 45)

/-- `CRCBYTE` (R51). -/
def crcByteOf (b : Nat → Byte) : Byte := b 46

/-- `DIST(FB, i)`: slot `i` starts at offset 6, stride 3 (R52). -/
def distOf (b : Nat → Byte) (i : Nat) : Half := le16 (b (6 + 3 * i)) (b (7 + 3 * i))

/-- `INT(FB, i)` (R52). -/
def intensityOf (b : Nat → Byte) (i : Nat) : Byte := b (8 + 3 * i)

/-- The slot of a frame at index `i`; a frame has slots 0..11 (R52). -/
def Frame.slot (f : Frame) (i : Nat) : Slot := f.slots.toList.getD i ⟨0, 0⟩

/-- The byte at offset `j` of frame `f` behind marker byte `m` (R50). -/
def Frame.byteAt (m : Byte) (f : Frame) (j : Nat) : Byte :=
  if j = 0 then m
  else if j = 1 then f.verlen
  else if j = 2 then loByte f.speed
  else if j = 3 then hiByte f.speed
  else if j = 4 then loByte f.startAngle
  else if j = 5 then hiByte f.startAngle
  else if j < 42 then
    if (j - 6) % 3 = 0 then loByte (f.slot ((j - 6) / 3)).dist
    else if (j - 6) % 3 = 1 then hiByte (f.slot ((j - 6) / 3)).dist
    else (f.slot ((j - 6) / 3)).intensity
  else if j = 42 then loByte f.endAngle
  else if j = 43 then hiByte f.endAngle
  else if j = 44 then loByte f.timestamp
  else if j = 45 then hiByte f.timestamp
  else f.crc

/-- The 47 bytes of a frame as they go over the wire, byte 0 first (R8, R50). -/
def Frame.bytes (m : Byte) (f : Frame) : List Byte := (List.range frameLen).map (f.byteAt m)

/-- The frame whose 47 bytes are `b` (R50-R52), the marker byte left out. -/
def frameOf (b : Nat → Byte) : Frame where
  verlen := verlenOf b
  speed := speedOf b
  startAngle := startRawOf b
  slots := Vector.ofFn fun i => ⟨distOf b i.val, intensityOf b i.val⟩
  endAngle := endRawOf b
  timestamp := tstampOf b
  crc := crcByteOf b

/-! ## Words on the ports, and what selects a step -/

/-- What a port, the host's reset line or the sequencer itself presents for one step (R10, R48, R56, R122). -/
inductive PortWord where
  /-- one source event word (R48) -/
  | src (w : SrcWord)
  /-- the bytes of a whole frame the source sends (R50, R63) -/
  | frame (bytes : List Byte)
  /-- a command word on consumer port `p` (R56) -/
  | cmd (p : Nat) (w : CmdWord)
  /-- the host's reset input (R122) -/
  | host (line : BitVec 1)
  /-- no port word: the writer's internal step, selected by state alone (R76, R96) -/
  | internal
  deriving DecidableEq, Repr

/-- What, beside the word, selects the rule of a step: the sequencer (R30, R64) and the build's parameters. -/
structure Ctx where
  params : Params
  wstate : WState
  nb : BitVec 6
  deriving DecidableEq, Repr

/-- Why a word stands for no step. -/
inductive Reject where
  /-- a DATA word in COLLECT with NB > 46: R64 has no row for it, and no reachable state is there (R14) -/
  | noRuleForNb
  /-- bytes that are not 47, or whose byte 0 is not MARKER: no wire frame (R50) -/
  | notAFrame
  /-- a command on a port ≥ P: the build has no such port (R5) -/
  | noSuchPort
  /-- the reset input is not asserted (R122) -/
  | resetNotAsserted
  /-- no internal step is enabled in this writer state (R72, R76, R96) -/
  | noInternalStep
  deriving DecidableEq, Repr

/-! ## The decoder -/

/-- `SRCW[9:8]` (R48). -/
def srcKind (w : SrcWord) : BitVec 2 := w.extractLsb' 8 2

/-- `SRCW[7:0]` (R48). -/
def srcData (w : SrcWord) : Byte := w.extractLsb' 0 8

/-- The rows of R64's table for HUNT, with the kinds of R49. -/
def decodeHunt (marker : Byte) (w : SrcWord) : Instr :=
  if srcKind w = 0#2 then
    if srcData w = marker then .huntMarker else .huntSkip (srcData w)
  else if srcKind w = 1#2 then .huntTimeout (srcData w)
  else if srcKind w = 2#2 then .closed (srcData w)
  else .srcRsvd (srcData w)

/-- The rows of R64's table for COLLECT, with the kinds of R49. -/
def decodeCollect (nb : BitVec 6) (w : SrcWord) : Except Reject Instr :=
  if srcKind w = 0#2 then
    if nb.toNat < 46 then .ok (.collectByte (srcData w))
    else if nb.toNat = 46 then .ok (.collectLast (srcData w))
    else .error .noRuleForNb
  else if srcKind w = 1#2 then .ok (.collectTimeout (srcData w))
  else if srcKind w = 2#2 then .ok (.closed (srcData w))
  else .ok (.srcRsvd (srcData w))

/-- A source event word, by the writer state it is offered in (R64, R72). -/
def decodeSrc (c : Ctx) (w : SrcWord) : Except Reject Instr :=
  match c.wstate with
  | .hunt => .ok (decodeHunt c.params.marker w)
  | .collect => decodeCollect c.nb w
  | .decode => .ok (.srcNotAccepted w)
  | .push => .ok (.srcNotAccepted w)
  | .closed => .ok (.srcNotAccepted w)

/-- `CMD[31:28]` (R56). -/
def cmdOp (w : CmdWord) : BitVec 4 := w.extractLsb' 28 4

/-- A command word on port `p`, by its OP (R57). -/
def decodeCmd (p : Nat) (w : CmdWord) : Instr :=
  if cmdOp w = 1#4 then .snap p (w.extractLsb' 0 28)
  else if cmdOp w = 2#4 then .read p (w.extractLsb' 24 4) (w.extractLsb' 0 24)
  else if cmdOp w = 3#4 then .stat p (w.extractLsb' 8 20) (w.extractLsb' 0 8)
  else if cmdOp w = 0#4 then .cmdRsvd0 p (w.extractLsb' 0 28)
  else if w.extractLsb' 31 1 = 0#1 then .cmdRsvd47 p (w.extractLsb' 28 2) (w.extractLsb' 0 28)
  else .cmdRsvd8F p (w.extractLsb' 28 3) (w.extractLsb' 0 28)

/-- A list of bytes as the frame buffer would hold it, byte 0 first (R8). -/
def byteFn (bs : List Byte) : Nat → Byte := fun j => bs.getD j 0#8

/-- 47 bytes with the marker first are a wire frame (R50). -/
def decodeFrame (marker : Byte) (bs : List Byte) : Except Reject Instr :=
  if bs.length = frameLen ∧ bs.getD 0 0#8 = marker then .ok (.wireFrame (frameOf (byteFn bs)))
  else .error .notAFrame

/-- The writer's internal step, selected by state alone (R76, R96). -/
def decodeInternal (ws : WState) : Except Reject Instr :=
  match ws with
  | .decode => .ok .decode
  | .push => .ok .push
  | .hunt => .error .noInternalStep
  | .collect => .error .noInternalStep
  | .closed => .error .noInternalStep

/-- The decoder: which row of the opcode table a presented word is, in the context that selects it. Total; what is no
step is rejected by name. -/
def decode (c : Ctx) (w : PortWord) : Except Reject Instr :=
  match w with
  | .src w => decodeSrc c w
  | .frame bs => decodeFrame c.params.marker bs
  | .cmd p w => if p < c.params.ports then .ok (decodeCmd p w) else .error .noSuchPort
  | .host line => if line = 1#1 then .ok .reset else .error .resetNotAsserted
  | .internal => decodeInternal c.wstate

/-! ## The encoder, from the same tables -/

/-- The word that stands for an instruction: the row's fixed bits with the operands in the other bits. -/
def encode (p : Params) : Instr → PortWord
  | .huntMarker => .src (0#2 ++ p.marker)
  | .huntSkip b => .src (0#2 ++ b)
  | .huntTimeout ign => .src (1#2 ++ ign)
  | .collectByte b => .src (0#2 ++ b)
  | .collectLast b => .src (0#2 ++ b)
  | .collectTimeout ign => .src (1#2 ++ ign)
  | .closed ign => .src (2#2 ++ ign)
  | .srcRsvd ign => .src (3#2 ++ ign)
  | .srcNotAccepted w => .src w
  | .decode => .internal
  | .push => .internal
  | .snap q ign => .cmd q (1#4 ++ ign)
  | .read q ign k => .cmd q (2#4 ++ ign ++ k)
  | .stat q ign sel => .cmd q (3#4 ++ ign ++ sel)
  | .cmdRsvd0 q ign => .cmd q (0#4 ++ ign)
  | .cmdRsvd47 q op ign => .cmd q (1#2 ++ op ++ ign)
  | .cmdRsvd8F q op ign => .cmd q (1#1 ++ op ++ ign)
  | .reset => .host 1#1
  | .wireFrame f => .frame (f.bytes p.marker)

/-- The opcode table's "state" column: the writer states in which a row's word is that row (R64, R72, R76, R96). Commands,
RESET and the source's frames do not depend on the writer's state (R100, R122, R48). -/
def Instr.enabledIn (ws : WState) (nb : BitVec 6) : Instr → Bool
  | .huntMarker => decide (ws = .hunt)
  | .huntSkip _ => decide (ws = .hunt)
  | .huntTimeout _ => decide (ws = .hunt)
  | .collectByte _ => decide (ws = .collect ∧ nb.toNat < 46)
  | .collectLast _ => decide (ws = .collect ∧ nb.toNat = 46)
  | .collectTimeout _ => decide (ws = .collect)
  | .closed _ => decide (ws = .hunt ∨ ws = .collect)
  | .srcRsvd _ => decide (ws = .hunt ∨ ws = .collect)
  | .srcNotAccepted _ => decide (ws = .decode ∨ ws = .push ∨ ws = .closed)
  | .decode => decide (ws = .decode)
  | .push => decide (ws = .push)
  | .snap _ _ => true
  | .read _ _ _ => true
  | .stat _ _ _ => true
  | .cmdRsvd0 _ _ => true
  | .cmdRsvd47 _ _ _ => true
  | .cmdRsvd8F _ _ _ => true
  | .reset => true
  | .wireFrame _ => true

/-! ## Table words -/

/-- The `n` bytes of the number `w`, the byte of bits 7..0 first. -/
def bytesOfNat : Nat → Nat → List Byte
  | 0, _ => []
  | n + 1, w => BitVec.ofNat 8 w :: bytesOfNat n (w / 256)

/-- How a number of the opcode table's width is laid on a port (log entry 4): up to 8 bits, the value 1 is the host's
reset line, the value 0 is no port word (a step selected by state alone), and any other value is byte 0 of a wire frame
whose other bytes are 0; up to 16 bits is a source event word; up to 32 bits a command on port 0; more is a wire frame. -/
def tablePortWord (nbits w : Nat) : PortWord :=
  if nbits ≤ 8 then
    if w = 1 then .host 1#1
    else if w = 0 then .internal
    else .frame (bytesOfNat frameLen w)
  else if nbits ≤ 16 then .src (BitVec.ofNat 10 w)
  else if nbits ≤ 32 then .cmd 0 (BitVec.ofNat 32 w)
  else .frame (bytesOfNat frameLen w)

/-- The context a table word is read in (log entry 4): source words, commands, frames and RESET as after reset (HUNT, no
candidate), a step selected by state alone as the DECODE step that is due when 47 bytes are held. -/
def tableCtx (nbits w : Nat) : Ctx :=
  if nbits ≤ 8 ∧ w = 0 then ⟨Params.ld19, .decode, 47#6⟩ else ⟨Params.ld19, .hunt, 0#6⟩

/-- The instruction the decoder reads from a table word of `nbits` bits whose value is `w`. -/
def decodeTableWord (nbits w : Nat) : Option Instr :=
  match decode (tableCtx nbits w) (tablePortWord nbits w) with
  | .ok i => some i
  | .error _ => none

end Sys2Proof
end

