-- ==== Sys2Proof/Machine/State.lean ====
section
/-! DEFINITION. The state of the block (10_state.md), with what its environment holds for it: the source's pending events,
each consumer's pending commands and last response, and whose turn it is. Plain data throughout. -/

namespace Sys2Proof.Machine

/-- Why the machine stops. The block has no fault state (R134): both reasons are accesses to an index the spec says does
not exist, and no state that meets `Sys2Proof.Safety.Inv` (R33) raises one. -/
inductive Fault where
  /-- `MemRead` or `MemWrite` of ring index `idx` ≥ C (R37). Raised by PUSH where HEAD ≥ C (the index a READ computes is
  below C). Safe: the machine stops where the spec gives no access. -/
  | ramIndex (idx : Nat)
  /-- PUSH of slot `i` > 11: a frame has slots 0..11 (R52, R96). Safe: the machine stops where the spec gives no slot. -/
  | slotIndex (i : Nat)
  deriving DecidableEq, Repr

/-- Why the model refuses a step. -/
inductive Refusal where
  /-- an instruction with no meaning in the model yet, by its mnemonic; raised by `exec`'s arms only (none does). Safe. -/
  | notModelled (mnemonic : String)
  deriving DecidableEq, Repr

/-- The classes `LAST_ERROR` can hold (R27, R108). Codes 5..7 are never written, so not representable (I17). -/
inductive ErrorClass where
  /-- code 0: no error event since RESET -/
  | none
  /-- code 1: TIMEOUT in HUNT -/
  | transportTimeout
  /-- code 2: TIMEOUT in COLLECT -/
  | frameMisaligned
  /-- code 3: CRC mismatch at DECODE -/
  | checksumMismatch
  /-- code 4: the transport closed -/
  | transportClosed
  deriving DecidableEq, Repr

/-- A consumer response `RSP` (R58). -/
structure Rsp where
  ok : Bool
  valid : Bool
  w0 : Word
  w1 : Word
  w2 : Word
  deriving DecidableEq, Repr

/-- A register whose width the build fixes: the width, and the bits. The width is data so that builds of every capacity
are states of one type (log entry 10); no step changes it. -/
structure Reg where
  width : Nat
  val : BitVec width
  deriving DecidableEq, Repr

/-- `n` in a register of `w` bits. -/
def Reg.ofNat (w n : Nat) : Reg := ⟨w, BitVec.ofNat w n⟩

/-- The number a register holds. -/
def Reg.toNat (r : Reg) : Nat := r.val.toNat

/-- One consumer port: its snapshot latch (R29), and the consumer's side of the port. -/
structure Port where
  /-- `HEAD_L[p]` (R29): as HEAD -/
  headL : Reg
  /-- `COUNT_L[p]` (R29) -/
  countL : BitVec 25
  /-- `PUSHES_L[p]` (R29) -/
  pushesL : Word
  /-- `SINCE[p]`: pushes since this port's last SNAP, saturating at C (R29) -/
  since : BitVec 25
  /-- the response to the port's last command (R58); `none` before its first. The model's own, an output -/
  rsp : Option Rsp
  /-- the command words the consumer has still to issue, in order. The model's own, an input -/
  cmds : List CmdWord
  deriving DecidableEq, Repr

/-- What the source has to offer next: one event word (R48), or a frame it sends as 47 DATA events (R48, R63). -/
inductive SrcItem where
  | word (w : SrcWord)
  | frame (f : Frame)
  deriving DecidableEq, Repr

/-- Which agent takes the next step (R10). -/
inductive Turn where
  /-- the writer's internal step, DECODE or PUSH (R11) -/
  | writer
  /-- the source offers its next event (R11, R64) -/
  | source
  /-- consumer `p` issues its next command (R11, R56) -/
  | consumer (p : Nat)
  /-- the host drives the reset line to `line` (R10, R122) -/
  | host (line : BitVec 1)
  deriving DecidableEq, Repr

/-- The machine's state. -/
structure State where
  /-- the build's parameters (R5); no step writes them (R125) -/
  params : Params
  /-- `WSTATE` (R13) -/
  wstate : WState
  /-- `NB` (R14) -/
  nb : BitVec 6
  /-- `SLOT` (R16) -/
  slot : BitVec 4
  /-- `FB[0..46]` (R15): the bytes written since RESET, offsets strictly rising -/
  fb : List Host.Cell
  /-- `RAM[0..C−1]` (R17): the entries ever written, indices strictly rising -/
  ram : List (Nat × PointWord)
  /-- `HEAD` (R18): ceil(log2 C) bits, at least 1 (`Params.headBits`) -/
  head : Reg
  /-- `COUNT` (R19) -/
  count : BitVec 25
  /-- `PUSHES` (R20) -/
  pushes : Word
  /-- `FRAMES_OK` (R21) -/
  framesOk : Word
  /-- `FRAMES_CRC_BAD` (R22) -/
  framesCrcBad : Word
  /-- `FRAMES_PARTIAL` (R23) -/
  framesPartial : Word
  /-- `BYTES_DISCARDED` (R24) -/
  bytesDiscarded : Word
  /-- `TIMEOUTS` (R25) -/
  timeouts : Word
  /-- `SAMPLES_ZERO` (R26) -/
  samplesZero : Word
  /-- `LAST_ERROR` (R27) -/
  lastError : ErrorClass
  /-- `META_VALID` (R28) -/
  metaValid : BitVec 1
  /-- `META_VERLEN` (R28) -/
  metaVerlen : Byte
  /-- `META_SPEED` (R28) -/
  metaSpeed : Half
  /-- `META_START` (R28) -/
  metaStart : Half
  /-- `META_END` (R28) -/
  metaEnd : Half
  /-- `META_TIMESTAMP` (R28) -/
  metaTimestamp : Half
  /-- `META_CRC` (R28) -/
  metaCrc : Byte
  /-- the consumer ports 0..P−1 (R29) -/
  ports : List Port
  /-- the source's pending events, the next one first (R48, R129). The model's own, an input -/
  srcQ : List SrcItem
  /-- whose turns come next (R11); where it is empty, `defaultTurn` decides. The model's own, an input -/
  sched : List Turn
  /-- how many RESETs have been taken: the index of the free values of FB (log entry 1). The model's own -/
  epoch : Nat
  deriving DecidableEq, Repr

/-- A port's latch at its reset value in a build with parameters `p`, with nothing issued and nothing answered (R34). -/
def Port.reset (p : Params) : Port where
  headL := Reg.ofNat p.headBits 0
  countL := 0
  pushesL := 0
  since := 0
  rsp := none
  cmds := []

/-- The state right after RESET of a build with parameters `p` (R34), with an environment that offers nothing. -/
def State.resetWith (p : Params) : State where
  params := p
  wstate := .hunt
  nb := 0
  slot := 0
  fb := []
  ram := []
  head := Reg.ofNat p.headBits 0
  count := 0
  pushes := 0
  framesOk := 0
  framesCrcBad := 0
  framesPartial := 0
  bytesDiscarded := 0
  timeouts := 0
  samplesZero := 0
  lastError := .none
  metaValid := 0
  metaVerlen := 0
  metaSpeed := 0
  metaStart := 0
  metaEnd := 0
  metaTimestamp := 0
  metaCrc := 0
  ports := List.replicate p.ports (Port.reset p)
  srcQ := []
  sched := []
  epoch := 0

/-- The machine right after reset (R34, R124), with the parameters of this hardware (R5). -/
def State.reset : State := State.resetWith Params.ld19

end Sys2Proof.Machine
end

