-- ==== Sys2Proof/Machine/Ops.lean ====
section
/-! DEFINITION. The operations every rule is written in: sparse memory, the frame buffer and ring memory (20_memory.md),
counters, ports and responses, and `raise` (R9, R108), the one operation an error event is taken by. The block has no
return from an error (R117): after a recoverable one the writer is already in HUNT. -/

namespace Sys2Proof.Machine

/-! ## Sparse memory: a list of cells, addresses strictly rising -/

/-- What is listed at address `a`; `none` where nothing has written it. -/
def Memory.read {α : Type} : List (Nat × α) → Nat → Option α
  | [], _ => none
  | (b, v) :: m, a => if a = b then some v else Memory.read m a

/-- Writes `v` at address `a`, keeping the addresses strictly rising. -/
def Memory.write {α : Type} : List (Nat × α) → Nat → α → List (Nat × α)
  | [], a, v => [(a, v)]
  | (b, w) :: m, a, v =>
    if a < b then (a, v) :: (b, w) :: m
    else if a = b then (a, v) :: m
    else (b, w) :: Memory.write m a v

/-- The canonical form: addresses strictly rising and below `size`. An unlisted address has no value, so no entry can
equal what it reads as. -/
abbrev Memory.wf {α : Type} (size : Nat) (m : List (Nat × α)) : Prop :=
  m.Pairwise (fun c d => c.1 < d.1) ∧ ∀ c ∈ m, c.1 < size

/-! ## The frame buffer (R15, R36) -/

/-- `FB[j]`. A byte nothing has written since RESET is unspecified: a free value (R34, I8). -/
def fbRead (s : State) (j : Nat) : Byte := (Memory.read s.fb j).getD (Config.fbUnwritten s.epoch j)

/-- `FB[j] <- b`. -/
def fbStore (j : Nat) (b : Byte) (s : State) : State := { s with fb := Memory.write s.fb j b }

/-- `FB[0..n−1]` as a list. -/
def fbPrefix (s : State) (n : Nat) : List Byte := (List.range n).map (fbRead s)

/-! ## Ring memory (R17, R37) -/

/-- The word ring entry `idx` holds. An entry nothing has written is unspecified: a free value (R34, I8). -/
def ramRead (s : State) (idx : Nat) : PointWord := (Memory.read s.ram idx).getD (Config.ramUnwritten idx)

/-- `MemRead(idx)`: all 72 bits of an entry, for 0 ≤ idx < C (R37). -/
def memRead (s : State) (idx : Nat) : Except Fault PointWord :=
  if idx < s.params.capacity then .ok (ramRead s idx) else .error (.ramIndex idx)

/-- `MemWrite(idx, v)`: all 72 bits of an entry, for 0 ≤ idx < C (R37). -/
def memWrite (idx : Nat) (v : PointWord) (s : State) : Except Fault State :=
  if idx < s.params.capacity then .ok { s with ram := Memory.write s.ram idx v } else .error (.ramIndex idx)

/-! ## The sequencer and error events -/

/-- `NB <- n ; goto w`: the two parts of the sequencer every writer rule but PUSH moves together (R30). -/
def goto (w : WState) (n : BitVec 6) (s : State) : State := { s with wstate := w, nb := n }

/-- `raise E`: the error event's code goes to LAST_ERROR (R9, R27, R108). Counters are the handler rules' own. -/
def raise (e : ErrorClass) (s : State) : State := { s with lastError := e }

/-! ## Consumer ports (R29, R100) -/

/-- Port `p`; a port the build does not have reads as one at reset. -/
def portAt (s : State) (p : Nat) : Port := s.ports.getD p (Port.reset s.params)

/-- Changes port `p` by `f` and no other; a port the build does not have is not changed. -/
def onPort (p : Nat) (f : Port → Port) (s : State) : State := { s with ports := s.ports.modify p f }

/-- The command's response, returned in its own step (R58). -/
def respond (p : Nat) (r : Rsp) (s : State) : State := onPort p (fun q => { q with rsp := some r }) s

/-- A response with OK = 1, VALID = 1 (R58). -/
def Rsp.good (w0 w1 w2 : Word) : Rsp := ⟨true, true, w0, w1, w2⟩

/-- The response to a READ that is stale or out of range: OK = 1, VALID = 0, zero data (R58, R102). -/
def Rsp.stale : Rsp := ⟨true, false, 0, 0, 0⟩

/-- The response to an undefined selector or a reserved OP: OK = 0, VALID = 0, zero data (R58, R105, R106). -/
def Rsp.refusal : Rsp := ⟨false, false, 0, 0, 0⟩

end Sys2Proof.Machine
end

