-- ==== Sys2Proof/Machine/Operands.lean ====
section
/-! DEFINITION. What a step reads from the frame buffer: the slot angles (41_decoder.md section 3), and the ring indices
a snapshot entry stands for (20_memory.md R43, 43_ringbuffer.md R103, R104). Field positions are `Sys2Proof.Decode`'s. -/

namespace Sys2Proof.Machine

/-- `S` or `E`: a raw angle field in centidegrees, reduced into 0..35999 (R81). -/
def normAngle (raw : Half) : Nat := raw.toNat % turnCentideg

/-- `D = (E − S) mod 36000`, for `S` and `E` in 0..35999 (R82). -/
def angleSpan (start stop : Nat) : Nat := (stop + turnCentideg - start) % turnCentideg

/-- The angle code of slot `i`: `(11 S + D i) mod 396000` (R83). -/
def angleCode (startRaw endRaw : Half) (i : Nat) : Nat :=
  (11 * normAngle startRaw + angleSpan (normAngle startRaw) (normAngle endRaw) * i) % turnCodes

/-- `A(FB, i)` (R83). -/
def slotAngle (s : State) (i : Nat) : Nat := angleCode (startRawOf (fbRead s)) (endRawOf (fbRead s)) i

/-- `phys_p(k)`: the ring index of snapshot entry `k` of a port's latch, in a ring of capacity `c` (R43, R103). -/
def physIndex (c : Nat) (q : Port) (k : Nat) : Nat := (q.headL.toNat + c - q.countL.toNat + k) % c

/-- `stale_p(K)`: `SINCE[p] > C − COUNT_L[p] + K`, written without the subtraction (R104). -/
def isStale (c : Nat) (q : Port) (k : Nat) : Bool := decide (q.since.toNat + q.countL.toNat > c + k)

/-- `Content`: the logical content of the ring, oldest first (R35). -/
def content (s : State) : List PointWord :=
  (List.range s.count.toNat).map fun j =>
    ramRead s ((s.head.toNat + s.params.capacity - s.count.toNat + j) % s.params.capacity)

end Sys2Proof.Machine
end

