-- ==== Sys2Proof/Machine/Flags.lean ====
section
/-! DEFINITION. The block's status read-out: the codes of WSTATE and LAST_ERROR (10_state.md R13, R108) and the STAT
selector map (30_encoding.md R59). The block has no condition codes (R31). -/

namespace Sys2Proof.Machine

/-- The code of `WSTATE` (R13). -/
def wstateCode : WState → BitVec 3
  | .hunt => 0
  | .collect => 1
  | .decode => 2
  | .push => 3
  | .closed => 4

/-- The code of `LAST_ERROR` (R108). -/
def errorCode : ErrorClass → BitVec 3
  | .none => 0
  | .transportTimeout => 1
  | .frameMisaligned => 2
  | .checksumMismatch => 3
  | .transportClosed => 4

/-- `WSTATUS`: bits 2:0 WSTATE, bits 13:8 NB, bits 19:16 SLOT, the others 0 (R59). -/
def wstatusWord (s : State) : Word := 0#12 ++ s.slot ++ 0#2 ++ s.nb ++ 0#5 ++ wstateCode s.wstate

/-- `CFG_CRC`: bits 15:8 CRC_INIT, bits 7:0 CRC_POLY (R59). -/
def cfgCrcWord (p : Params) : Word := 0#16 ++ p.crcInit ++ p.crcPoly

/-- The value of a status selector for asking port `p`; `none` where R59 lists no such selector. -/
def statValue (s : State) (p : Nat) (sel : Byte) : Option Word :=
  match sel.toNat with
  | 0x00 => some (BitVec.ofNat 32 s.params.capacity)
  | 0x01 => some (s.params.marker.setWidth 32)
  | 0x02 => some (BitVec.ofNat 32 frameLen)
  | 0x03 => some (cfgCrcWord s.params)
  | 0x04 => some (BitVec.ofNat 32 s.params.ports)
  | 0x08 => some (wstatusWord s)
  | 0x09 => some (s.count.setWidth 32)
  | 0x0A => some (BitVec.ofNat 32 s.head.toNat)
  | 0x0B => some s.pushes
  | 0x10 => some s.framesOk
  | 0x11 => some s.framesCrcBad
  | 0x12 => some s.framesPartial
  | 0x13 => some s.bytesDiscarded
  | 0x14 => some s.timeouts
  | 0x15 => some s.samplesZero
  | 0x16 => some ((errorCode s.lastError).setWidth 32)
  | 0x20 => some (s.metaValid.setWidth 32)
  | 0x21 => some (s.metaVerlen.setWidth 32)
  | 0x22 => some (s.metaSpeed.setWidth 32)
  | 0x23 => some (s.metaStart.setWidth 32)
  | 0x24 => some (s.metaEnd.setWidth 32)
  | 0x25 => some (s.metaTimestamp.setWidth 32)
  | 0x26 => some (s.metaCrc.setWidth 32)
  | 0x30 => some ((portAt s p).countL.setWidth 32)
  | 0x31 => some (BitVec.ofNat 32 (portAt s p).headL.toNat)
  | 0x32 => some (portAt s p).pushesL
  | 0x33 => some ((portAt s p).since.setWidth 32)
  | _ => none

end Sys2Proof.Machine
end

