-- ==== Sys2Proof/Machine/Crc.lean ====
section
/-! DEFINITION. The CRC-8 of the packet decoder (41_decoder.md R77, R78): table-driven, most significant bit first, not
reflected, no final XOR, with the build's CRC_POLY and CRC_INIT. -/

namespace Sys2Proof.Machine

/-- One of the eight shifts that make a table entry (R77). -/
def crcShift (poly t : Byte) : Byte := if t.msb then (t <<< 1) ^^^ poly else t <<< 1

/-- `n` shifts. -/
def crcShifts (poly : Byte) : Nat → Byte → Byte
  | 0, t => t
  | n + 1, t => crcShifts poly n (crcShift poly t)

/-- `TAB[v]` (R77). -/
def crcTab (poly v : Byte) : Byte := crcShifts poly 8 v

/-- `CRC8` of a byte sequence, from register value `c` (R77). -/
def crc8From (poly c : Byte) (bs : List Byte) : Byte := bs.foldl (fun c b => crcTab poly (c ^^^ b)) c

/-- `CRC8` of a byte sequence with a build's parameters (R77). -/
def crc8 (p : Params) (bs : List Byte) : Byte := crc8From p.crcPoly p.crcInit bs

/-- The checksum that a frame's own first 46 bytes behind first byte `q` give (R78, R63). -/
def frameCrc (p : Params) (q : Byte) (f : Frame) : Byte := crc8 p ((f.bytes q).take 46)

/-- The frame with its checksum byte right behind first byte `q`: `crc=auto` of the stimulus notation (R63). -/
def sealFrame (p : Params) (q : Byte) (f : Frame) : Frame := { f with crc := frameCrc p q f }

end Sys2Proof.Machine
end

