-- ==== Sys2Proof/Machine/Projector.lean ====
section
/-! DEFINITION. The polar-to-Cartesian projector (42_projector.md): a pure function of a distance and an angle code.
The ideal coordinates are `256 d cos θ` and `256 d sin θ` with `θ = A π / 198000` (R89, R90). Here cosine and sine are
exact rationals, the Taylor polynomial of degree 30 or 31 at `θ` with π replaced by `piScaled / 2^96`, and a coordinate is
an exact rational rounded once, so the only errors are π's and the polynomial's (log entry 5). -/

namespace Sys2Proof.Machine

/-- π in units of 2^-96, rounded down. -/
def piScaled : Nat := 248902613312231085230521944622

/-- Angle codes in a quarter turn. -/
def quarterCodes : Nat := 99000

/-- The denominator of an angle in radians: an angle of `r` codes is `r * piScaled / thetaDen` (R89). -/
def thetaDen : Nat := 198000 * 2 ^ 96

/-- The divisors `(2k−1)(2k)`, k = 1..15, of the cosine's Taylor polynomial in nested form. -/
def cosDivisors : List Nat := (List.range 15).map fun k => (2 * k + 1) * (2 * k + 2)

/-- The divisors `2k(2k+1)`, k = 1..15, of the sine's. -/
def sinDivisors : List Nat := (List.range 15).map fun k => (2 * k + 2) * (2 * k + 3)

/-- A fraction: numerator and (positive) denominator. -/
abbrev Ratio := Int × Nat

/-- The nested form `1 − x²/a₁ (1 − x²/a₂ (1 − …))` at `x = u / thetaDen`, as an exact fraction. -/
def nested (u : Nat) : List Nat → Ratio
  | [] => (1, 1)
  | a :: as =>
    let (n, d) := nested u as
    (((d * a * thetaDen ^ 2 : Nat) : Int) - ((u ^ 2 : Nat) : Int) * n, d * a * thetaDen ^ 2)

/-- Cosine of an angle of `r` codes, `r` at most a quarter turn. -/
def cosQuarter (r : Nat) : Ratio := nested (r * piScaled) cosDivisors

/-- Sine of an angle of `r` codes, `r` at most a quarter turn. -/
def sinQuarter (r : Nat) : Ratio :=
  let (n, d) := nested (r * piScaled) sinDivisors
  (((r * piScaled : Nat) : Int) * n, thetaDen * d)

/-- The fraction with its sign changed. -/
def negRatio (q : Ratio) : Ratio := (-q.1, q.2)

/-- Cosine (axis x) or sine (axis y) of an angle in quarter `j`, from the cosine `c` and the sine `s` of what it lies
past the quarter's start. -/
def quarterTrig (axis : Axis) (j : Nat) (c s : Ratio) : Ratio :=
  match axis, j with
  | .x, 0 => c
  | .x, 1 => negRatio s
  | .x, 2 => negRatio c
  | .x, _ => s
  | .y, 0 => s
  | .y, 1 => c
  | .y, 2 => negRatio s
  | .y, _ => negRatio c

/-- Cosine or sine of angle code `a` (R89, R90). -/
def trig (axis : Axis) (a : Nat) : Ratio :=
  quarterTrig axis (a / quarterCodes % 4) (cosQuarter (a % quarterCodes)) (sinQuarter (a % quarterCodes))

/-- The coordinate in units of 1/256 mm, before rounding (R90). -/
def coordinate (axis : Axis) (d a : Nat) : Ratio :=
  let (n, k) := trig axis a
  (((2 ^ fracBits * d : Nat) : Int) * n, k)

/-- The integer nearest a fraction (R92). No tie arises at a coordinate (R93). -/
def nearest (q : Ratio) : Int := (2 * q.1 + q.2) / (2 * (q.2 : Int))

/-- `nearest q` is within 2^-40 of the fraction. At a coordinate this is so exactly where the ideal value is an integer:
no other distance and angle code come so close to one (log entry 5). -/
def isWhole (q : Ratio) : Bool := decide ((q.1 - nearest q * q.2).natAbs * 2 ^ 40 ≤ q.2)

/-- `PROJ_X` or `PROJ_Y` of a build (R91, R92), as an integer in units of 1/256 mm. -/
def project (build : ProjBuild) (axis : Axis) (d a : Nat) : Int :=
  let q := coordinate axis d a
  match build with
  | .reference => nearest q
  | .faithful b =>
    if isWhole q then nearest q
    else if Config.roundUp b axis d a then q.1 / (q.2 : Int) + 1
    else q.1 / (q.2 : Int)

/-- The point word `{I, PROJ_Y(d, a), PROJ_X(d, a)}` (R60, R96). -/
def pointWord (build : ProjBuild) (d a : Nat) (intensity : Byte) : PointWord :=
  intensity ++ BitVec.ofInt 32 (project build .y d a) ++ BitVec.ofInt 32 (project build .x d a)

end Sys2Proof.Machine
end

