-- ==== Sys2Proof/Machine/Synchronizer.lean ====
section
/-! DEFINITION. The frame synchronizer: one meaning for each source-event row (40_synchronizer.md R65-R72, R49) and for
the frame a source sends (R63). A meaning run in a writer state its row is not enabled in takes no step: the state stays
as it is (log entry 6); `step` never asks for that. -/

namespace Sys2Proof.Machine

/-- The outcome of a step. -/
abbrev Result := Host.Outcome State Fault Refusal

/-- TIMEOUT in HUNT: count it, record the class, go on hunting (R68, R109). -/
def timeoutInHunt (s : State) : State :=
  raise .transportTimeout { s with timeouts := s.timeouts + 1 }

/-- TIMEOUT in COLLECT: count it, drop the partial candidate, hunt again (R71, R110). -/
def timeoutInCollect (s : State) : State :=
  goto .hunt 0 (raise .frameMisaligned
    { s with timeouts := s.timeouts + 1, framesPartial := s.framesPartial + 1 })

/-- The transport closed: stop the writer (R67, R112). A candidate held is dropped and not counted. -/
def transportClosed (s : State) : State :=
  goto .closed 0 (raise .transportClosed { s with slot := 0 })

/-- `HUNT_MARKER` (R65). -/
def execHuntMarker (s : State) : Result :=
  if s.wstate = .hunt then .next (goto .collect 1 (fbStore 0 s.params.marker s)) else .next s

/-- `HUNT_SKIP` (R66). -/
def execHuntSkip (_b : Byte) (s : State) : Result :=
  if s.wstate = .hunt then .next { s with bytesDiscarded := s.bytesDiscarded + 1 } else .next s

/-- `HUNT_TIMEOUT` (R68). -/
def execHuntTimeout (_ign : Byte) (s : State) : Result :=
  if s.wstate = .hunt then .next (timeoutInHunt s) else .next s

/-- `COLLECT_BYTE` (R69): the byte is appended, MARKER or not (R75). -/
def execCollectByte (b : Byte) (s : State) : Result :=
  if s.wstate = .collect ∧ s.nb.toNat < 46 then
    .next (goto .collect (s.nb + 1) (fbStore s.nb.toNat b s))
  else .next s

/-- `COLLECT_LAST` (R70). -/
def execCollectLast (b : Byte) (s : State) : Result :=
  if s.wstate = .collect ∧ s.nb.toNat = 46 then .next (goto .decode 47 (fbStore 46 b s)) else .next s

/-- `COLLECT_TIMEOUT` (R71). -/
def execCollectTimeout (_ign : Byte) (s : State) : Result :=
  if s.wstate = .collect then .next (timeoutInCollect s) else .next s

/-- `CLOSED` (R67). -/
def execClosed (_ign : Byte) (s : State) : Result :=
  if s.wstate = .hunt ∨ s.wstate = .collect then .next (transportClosed s) else .next s

/-- `SRC_RSVD` (R49): exactly as TIMEOUT. -/
def execSrcRsvd (_ign : Byte) (s : State) : Result :=
  match s.wstate with
  | .hunt => .next (timeoutInHunt s)
  | .collect => .next (timeoutInCollect s)
  | .decode => .next s
  | .push => .next s
  | .closed => .next s

/-- `SRC_NOT_ACCEPTED` (R72): the source is not served; nothing changes, and its word stays with it. -/
def execSrcNotAccepted (_w : SrcWord) (s : State) : Result := .next s

/-- The DATA event of a byte: KIND 00 (R48, R49). -/
def dataEvent (b : Byte) : SrcItem := .word (0#2 ++ b)

/-- `WIRE_FRAME` (R50, R48, R63): the source's next 47 events are DATA events of the frame's bytes, in order. -/
def execWireFrame (f : Frame) (s : State) : Result :=
  .next { s with srcQ := (f.bytes s.params.marker).map dataEvent ++ s.srcQ }

end Sys2Proof.Machine
end

