-- ==== Sys2Proof/Machine/Decoder.lean ====
section
/-! DEFINITION. The packet decoder's one step, DECODE (41_decoder.md R76-R80, R87). -/

namespace Sys2Proof.Machine

/-- The candidate passes the defensive re-check: 47 bytes, marker first (R76, R87). -/
def candidateFormed (s : State) : Bool := decide (s.nb.toNat = 47) && fbRead s 0 == s.params.marker

/-- `CRC8(FB[0..45]) = FB[46]` (R76, R78). -/
def checksumMatches (s : State) : Bool := crc8 s.params (fbPrefix s 46) == fbRead s 46

/-- `reject_checksum`, and `reject_defensive`, which acts as it: count the frame, record the class, drop the candidate
(R79, R87, R111). -/
def rejectFrame (s : State) : State :=
  goto .hunt 0 (raise .checksumMismatch { s with framesCrcBad := s.framesCrcBad + 1 })

/-- `accept`: count the frame, latch its metadata, start emitting its slots (R80). -/
def acceptFrame (s : State) : State :=
  goto .push 0 { s with
    framesOk := s.framesOk + 1
    metaValid := 1
    metaVerlen := verlenOf (fbRead s)
    metaSpeed := speedOf (fbRead s)
    metaStart := startRawOf (fbRead s)
    metaEnd := endRawOf (fbRead s)
    metaTimestamp := tstampOf (fbRead s)
    metaCrc := crcByteOf (fbRead s)
    slot := 0 }

/-- `DECODE` (R76). -/
def execDecode (s : State) : Result :=
  if s.wstate = .decode then
    if candidateFormed s then
      if checksumMatches s then .next (acceptFrame s) else .next (rejectFrame s)
    else .next (rejectFrame s)
  else .next s

end Sys2Proof.Machine
end

