-- ==== Sys2Proof/Machine/Ring.lean ====
section
/-! DEFINITION. The ring-buffer write controller: `ring_write` and the PUSH step (43_ringbuffer.md R96-R98). -/

namespace Sys2Proof.Machine

/-- `SINCE[p] <- min(SINCE[p] + 1, C)` (R97). -/
def bumpSince (c : Nat) (q : Port) : Port := { q with since := BitVec.ofNat 25 (min (q.since.toNat + 1) c) }

/-- `ring_write(PW)`: all its writes land together, and read the state before it (R9, R97). -/
def ringWrite (pw : PointWord) (s : State) : Except Fault State :=
  match memWrite s.head.toNat pw s with
  | .error f => .error f
  | .ok t => .ok { t with
      head := Reg.ofNat s.params.headBits ((s.head.toNat + 1) % s.params.capacity)
      count := BitVec.ofNat 25 (min (s.count.toNat + 1) s.params.capacity)
      pushes := s.pushes + 1
      ports := s.ports.map (bumpSince s.params.capacity) }

/-- The slot after slot `i`; after slot 11 the frame is done and the writer hunts again (R96, R98). -/
def nextSlot (s : State) : State :=
  if s.slot.toNat = 11 then goto .hunt 0 { s with slot := 0 } else { s with slot := s.slot + 1 }

/-- The point of slot `i` of the frame in the buffer (R96). -/
def slotPoint (s : State) (i : Nat) : PointWord :=
  pointWord s.params.proj (distOf (fbRead s) i).toNat (slotAngle s i) (intensityOf (fbRead s) i)

/-- `PUSH` (R96): slot SLOT is emitted, or counted where its distance is 0. -/
def execPush (s : State) : Result :=
  if s.wstate = .push then
    if s.slot.toNat ≤ 11 then
      if distOf (fbRead s) s.slot.toNat = 0 then
        .next (nextSlot { s with samplesZero := s.samplesZero + 1 })
      else
        match ringWrite (slotPoint s s.slot.toNat) s with
        | .ok t => .next (nextSlot t)
        | .error f => .fault f
    else .fault (.slotIndex s.slot.toNat)
  else .next s

end Sys2Proof.Machine
end

