-- ==== Sys2Proof/Machine/Consumer.lean ====
section
/-! DEFINITION. The consumer ports' commands (43_ringbuffer.md R100-R106, responses of 30_encoding.md R58). They run in
every writer state and change nothing but their own port. -/

namespace Sys2Proof.Machine

/-- `SNAP`'s writes to the asking port's latch (R101). -/
def takeSnapshot (s : State) (q : Port) : Port :=
  { q with headL := s.head, countL := s.count, pushesL := s.pushes, since := 0 }

/-- `SNAP` (R101). -/
def execSnap (p : Nat) (_ign : BitVec 28) (s : State) : Result :=
  .next (respond p (Rsp.good (s.count.setWidth 32) s.pushes 0) (onPort p (takeSnapshot s) s))

/-- The response that carries a point word: X, Y, and the intensity widened (R58, R102). -/
def pointRsp (pw : PointWord) : Rsp :=
  Rsp.good (pw.extractLsb' 0 32) (pw.extractLsb' 32 32) ((pw.extractLsb' 64 8).setWidth 32)

/-- `READ K` (R102). -/
def execRead (p : Nat) (_ign : BitVec 4) (k : BitVec 24) (s : State) : Result :=
  if k.toNat < (portAt s p).countL.toNat ∧ isStale s.params.capacity (portAt s p) k.toNat = false then
    match memRead s (physIndex s.params.capacity (portAt s p) k.toNat) with
    | .ok pw => .next (respond p (pointRsp pw) s)
    | .error f => .fault f
  else .next (respond p Rsp.stale s)

/-- `STAT SEL` (R105). -/
def execStat (p : Nat) (_ign : BitVec 20) (sel : Byte) (s : State) : Result :=
  match statValue s p sel with
  | some v => .next (respond p (Rsp.good v 0 0) s)
  | none => .next (respond p Rsp.refusal s)

/-- `CMD_RSVD_0` (R106). -/
def execCmdRsvd0 (p : Nat) (_ign : BitVec 28) (s : State) : Result := .next (respond p Rsp.refusal s)

/-- `CMD_RSVD_4_7` (R106). -/
def execCmdRsvd47 (p : Nat) (_op : BitVec 2) (_ign : BitVec 28) (s : State) : Result :=
  .next (respond p Rsp.refusal s)

/-- `CMD_RSVD_8_F` (R106). -/
def execCmdRsvd8F (p : Nat) (_op : BitVec 3) (_ign : BitVec 28) (s : State) : Result :=
  .next (respond p Rsp.refusal s)

end Sys2Proof.Machine
end

