-- ==== Sys2Proof/Machine/Reset.lean ====
section
/-! DEFINITION. RESET (70_reset_and_hazards.md R122): every state element takes its reset value of 10_state.md R34. RAM
keeps its bits and the parameters stay; FB is unspecified again. What the environment holds (pending events, commands,
responses already given, turns) is not the block's state and stays. -/

namespace Sys2Proof.Machine

/-- A port's latch at its reset values (R34); its consumer keeps its commands and the response it has. -/
def resetLatch (p : Params) (q : Port) : Port :=
  { q with headL := Reg.ofNat p.headBits 0, countL := 0, pushesL := 0, since := 0 }

/-- `RESET` (R122). -/
def execReset (s : State) : Result :=
  .next { State.resetWith s.params with
    ram := s.ram
    ports := s.ports.map (resetLatch s.params)
    srcQ := s.srcQ
    sched := s.sched
    epoch := s.epoch + 1 }

end Sys2Proof.Machine
end

