-- ==== Sys2Proof/Machine/Fetch.lean ====
section
/-! DEFINITION. What the next step is (00_scope.md R10, R11; 40_synchronizer.md R64): whose turn, which word that agent
presents, which row of the opcode table it is, and what presenting it takes from the agent's pending words. -/

namespace Sys2Proof.Machine

/-- The writer requests a source event exactly in HUNT and COLLECT (R64). -/
def requests (s : State) : Bool := decide (s.wstate = .hunt ∨ s.wstate = .collect)

/-- An internal step is enabled (R11, R76, R96). -/
def internalDue (s : State) : Bool := decide (s.wstate = .decode ∨ s.wstate = .push)

/-- What selects the rule, beside the word (R64). -/
def ctxOf (s : State) : Ctx := ⟨s.params, s.wstate, s.nb⟩

/-- The first port with a command pending. -/
def firstPending : List Port → Nat → Option Nat
  | [], _ => none
  | q :: qs, p => if q.cmds = [] then firstPending qs (p + 1) else some p

/-- The turn where the schedule says nothing: the writer's one step first (an internal step, else a source event it
requests), then consumers in ascending port number (the order of R114; log entry 7). -/
def defaultTurn (s : State) : Turn :=
  if internalDue s then .writer
  else if requests s ∧ s.srcQ ≠ [] then .source
  else match firstPending s.ports 0 with
    | some p => .consumer p
    | none => .writer

/-- Whose turn it is. -/
def turnOf (s : State) : Turn :=
  match s.sched with
  | [] => defaultTurn s
  | t :: _ => t

/-- The state once the turn is taken from the schedule. -/
def afterTurn (s : State) : State := { s with sched := s.sched.tail }

/-- What the agent presents; `none` where it has nothing to present, and so waits (R64). A source that has a frame to send
and is not asked for anything offers the frame's first byte, the marker (R48, R72). -/
def offered (s : State) : Turn → Option PortWord
  | .writer => some .internal
  | .source =>
    match s.srcQ with
    | [] => none
    | .word w :: _ => some (.src w)
    | .frame f :: _ =>
      if requests s then some (.frame (f.bytes s.params.marker)) else some (.src (0#2 ++ s.params.marker))
  | .consumer p =>
    match (portAt s p).cmds with
    | [] => none
    | w :: _ => some (.cmd p w)
  | .host line => some (.host line)

/-- What the presenting agent gives up when its word is taken: an event word that is not accepted stays with the source
(R72, R122), every other word is consumed. -/
def consume (t : Turn) (i : Instr) (s : State) : State :=
  match t, i with
  | .source, .srcNotAccepted _ => s
  | .source, _ => { s with srcQ := s.srcQ.tail }
  | .consumer p, _ => onPort p (fun q => { q with cmds := q.cmds.tail }) s
  | .writer, _ => s
  | .host _, _ => s

/-- The instruction of the next step, if any agent's step is enabled, and the state it runs in. -/
def fetch (s : State) : Option Instr × State :=
  match offered s (turnOf s) with
  | none => (none, afterTurn s)
  | some w =>
    match decode (ctxOf s) w with
    | .error _ => (none, afterTurn s)
    | .ok i => (some i, consume (turnOf s) i (afterTurn s))

/-- The turns of one clock cycle of an implementation that takes several steps in one (R12, R114): RESET if it is
asserted, else the writer's one step; then the consumers in ascending port number. -/
def cycleTurns (s : State) (reset : Bool) : List Turn :=
  (if reset then [.host 1#1] else if requests s then [.source] else [.writer])
    ++ (List.range s.params.ports).map .consumer

end Sys2Proof.Machine
end

