-- ==== Sys2Proof/Machine/Dispatch.lean ====
section
/-! DEFINITION. One arm for each constructor of Instr, each one call of that instruction's meaning. -/

namespace Sys2Proof.Machine

/-- The effect of one instruction on the state it runs in. -/
def exec (i : Instr) (s : State) : Host.Outcome State Fault Refusal :=
  match i with
  | .huntMarker => Sys2Proof.Machine.execHuntMarker s
  | .huntSkip b => Sys2Proof.Machine.execHuntSkip b s
  | .huntTimeout ign => Sys2Proof.Machine.execHuntTimeout ign s
  | .collectByte b => Sys2Proof.Machine.execCollectByte b s
  | .collectLast b => Sys2Proof.Machine.execCollectLast b s
  | .collectTimeout ign => Sys2Proof.Machine.execCollectTimeout ign s
  | .closed ign => Sys2Proof.Machine.execClosed ign s
  | .srcRsvd ign => Sys2Proof.Machine.execSrcRsvd ign s
  | .srcNotAccepted w => Sys2Proof.Machine.execSrcNotAccepted w s
  | .decode => Sys2Proof.Machine.execDecode s
  | .push => Sys2Proof.Machine.execPush s
  | .snap p ign => Sys2Proof.Machine.execSnap p ign s
  | .read p ign k => Sys2Proof.Machine.execRead p ign k s
  | .stat p ign sel => Sys2Proof.Machine.execStat p ign sel s
  | .cmdRsvd0 p ign => Sys2Proof.Machine.execCmdRsvd0 p ign s
  | .cmdRsvd47 p op ign => Sys2Proof.Machine.execCmdRsvd47 p op ign s
  | .cmdRsvd8F p op ign => Sys2Proof.Machine.execCmdRsvd8F p op ign s
  | .reset => Sys2Proof.Machine.execReset s
  | .wireFrame f => Sys2Proof.Machine.execWireFrame f s

end Sys2Proof.Machine
end

