-- ==== Sys2Proof/Machine/Step.lean ====
section
/-! DEFINITION. One step of the machine, and where a word is put so that the next step runs it. -/

namespace Sys2Proof.Machine

/-- One step: the instruction of the turn, if its agent has an enabled step, else a turn that passes with nothing done
(R11, R64: an agent with no enabled step waits). -/
def step (s : State) : Host.Outcome State Fault Refusal :=
  match fetch s with
  | (some i, t) => exec i t
  | (none, t) => .next t

/-- The word presented by its own agent, whose turn comes next (log entry 4). A source word or
a frame is read in HUNT and a step selected by state alone in DECODE, the contexts `tableCtx` names; a frame is the one
its 47 bytes are. -/
def State.withFetchWord (s : State) (nbits w : Nat) : State :=
  match tablePortWord nbits w with
  | .src x => { s with wstate := .hunt, nb := 0, srcQ := .word x :: s.srcQ, sched := .source :: s.sched }
  | .frame bs =>
    { s with wstate := .hunt, nb := 0, srcQ := .frame (frameOf (byteFn bs)) :: s.srcQ, sched := .source :: s.sched }
  | .cmd p x => { onPort p (fun q => { q with cmds := x :: q.cmds }) s with sched := .consumer p :: s.sched }
  | .host line => { s with sched := .host line :: s.sched }
  | .internal => { s with wstate := .decode, nb := 47, sched := .writer :: s.sched }

end Sys2Proof.Machine
end

