-- ==== Sys2Proof/Machine/Stimulus.lean ====
section
/-! DEFINITION. Stimulus programs (30_encoding.md R62, R63): a list of lines, one step a line, run under the eager
schedule. The lines go to the block directly, not through the pending words of the state. -/

namespace Sys2Proof.Machine

/-- One stimulus line (R62). `src BYTES` and `src FRAME` expand to `src` lines (R63). -/
inductive Line where
  | src (w : SrcWord)
  | cmd (p : Nat) (w : CmdWord)
  | reset
  deriving DecidableEq, Repr

/-- What the program records of a line (R62). -/
inductive Record where
  /-- a `src` line that was taken -/
  | accepted
  /-- a `src` line offered while the writer makes no request -/
  | notAccepted
  /-- a `cmd` line's response -/
  | response (r : Option Rsp)
  /-- a `host RESET` line -/
  | wasReset
  deriving DecidableEq, Repr

/-- `src BYTES b0 … bn`: one DATA line for each byte, in order (R63). -/
def bytesLines (bs : List Byte) : List Line := bs.map fun b => .src (0#2 ++ b)

/-- `src FRAME … [crc=K] [marker=Q]`, the other fields as in `f` (R63): 47 lines. Q defaults to MARKER, and K to `auto`,
the CRC8 of the 46 bytes before it, Q first. -/
def frameLines (p : Params) (marker crc : Option Byte) (f : Frame) : List Line :=
  let q := marker.getD p.marker
  let sealed := sealFrame p q f
  bytesLines ({ sealed with crc := crc.getD sealed.crc }.bytes q)

/-- Runs the next instruction, keeping what an earlier one stopped with. -/
def andThen (r : Result) (f : State → Result) : Result :=
  match r with
  | .next s => f s
  | .fault e => .fault e
  | .refused e => .refused e

/-- The writer's enabled internal steps, at most `n` of them. One frame has 13: DECODE and 12 PUSH steps (R96). -/
def drain : Nat → State → Result
  | 0, s => .next s
  | n + 1, s =>
    match decode (ctxOf s) .internal with
    | .ok i => andThen (exec i s) (drain n)
    | .error _ => .next s

/-- The word a line presents. -/
def lineWord : Line → PortWord
  | .src w => .src w
  | .cmd p w => .cmd p w
  | .reset => .host 1#1

/-- One line in a drained state: a `src` line is taken only when the writer requests an event (R62). -/
def runLine (l : Line) (s : State) : Result :=
  match decode (ctxOf s) (lineWord l) with
  | .ok i => exec i s
  | .error _ => .next s

/-- What the program records of a line run from drained state `s` to `t`. -/
def recordOf (l : Line) (s t : State) : Record :=
  match l with
  | .src _ => if requests s then .accepted else .notAccepted
  | .cmd p _ => .response (portAt t p).rsp
  | .reset => .wasReset

/-- A program under the eager schedule: the writer's internal steps before each line and after the last (R62). The records
come in line order. -/
def runLines : List Line → State → Except (Host.Outcome State Fault Refusal) (State × List Record)
  | [], s =>
    match drain 13 s with
    | .next t => .ok (t, [])
    | r => .error r
  | l :: ls, s =>
    match drain 13 s with
    | .next s' =>
      match runLine l s' with
      | .next t =>
        match runLines ls t with
        | .ok (u, rs) => .ok (u, recordOf l s' t :: rs)
        | .error r => .error r
      | r => .error r
    | r => .error r

end Sys2Proof.Machine
end

