-- ==== Sys2Proof/Safety.lean ====
section
/-! DEFINITION. What every reachable state satisfies (10_state.md R33, with the parts of R14-R16 and R104 it rests on),
and when a run is over (70_reset_and_hazards.md R134). -/

namespace Sys2Proof.Safety

open Sys2Proof.Machine

/-- How many bytes of the frame buffer belong to the current candidate or frame (R14, R15). -/
def heldBytes (s : State) : Nat :=
  match s.wstate with
  | .hunt => 0
  | .collect => s.nb.toNat
  | .decode => frameLen
  | .push => frameLen
  | .closed => 0

/-- NB and SLOT as R14 and R16 bound them in each writer state. -/
def SequencerOk (s : State) : Prop :=
  match s.wstate with
  | .hunt => s.nb = 0 ∧ s.slot = 0
  | .collect => 1 ≤ s.nb.toNat ∧ s.nb.toNat ≤ 46 ∧ s.slot = 0
  | .decode => s.nb = 47 ∧ s.slot = 0
  | .push => s.nb = 0 ∧ s.slot.toNat ≤ 11
  | .closed => s.nb = 0 ∧ s.slot = 0

/-- A port's latch: R33 item 3, HEAD_L's width (R29), and that what it names is in the ring: the ring has not shrunk since
the SNAP, and a snapshot of a ring not yet full starts at entry 0 (R33 item 2, R104). -/
structure LatchOk (s : State) (q : Port) : Prop where
  count_le : q.countL.toNat ≤ s.count.toNat
  width : q.headL.width = s.params.headBits
  head_lt : q.headL.toNat < s.params.capacity
  since_le : q.since.toNat ≤ s.params.capacity
  head_eq : q.countL.toNat < s.params.capacity → q.headL.toNat = q.countL.toNat

/-- The invariant of every reachable state. -/
structure Inv (s : State) : Prop where
  /-- the parameters are legal (R5) and the build has its P ports (R29) -/
  params : s.params.legal
  ports : s.ports.length = s.params.ports
  /-- both memories are in canonical form, within their index ranges (R36) -/
  fbForm : Memory.wf frameLen s.fb
  ramForm : Memory.wf s.params.capacity s.ram
  /-- HEAD has its width (R18) -/
  width : s.head.width = s.params.headBits
  /-- R33 item 1 -/
  count_le : s.count.toNat ≤ s.params.capacity
  head_lt : s.head.toNat < s.params.capacity
  /-- R33 item 2 -/
  head_eq : s.count.toNat < s.params.capacity → s.head.toNat = s.count.toNat
  /-- R33 item 3 -/
  latches : ∀ q ∈ s.ports, LatchOk s q
  /-- R33 item 4 -/
  sequencer : SequencerOk s
  /-- R33 item 5, and for COLLECT: the candidate starts with the marker (R15) -/
  marker : 0 < heldBytes s → fbRead s 0 = s.params.marker
  /-- every byte held has been written since RESET (R15) -/
  held : ∀ j < heldBytes s, (Memory.read s.fb j).isSome
  /-- every ring entry that holds a point has been written (R104) -/
  stored : ∀ i < s.params.capacity, i < s.count.toNat ∨ s.count.toNat = s.params.capacity →
    (Memory.read s.ram i).isSome

/-- The effects of several instructions one after another, whichever agents took them (R11, R44). -/
def execAll : List Instr → State → Result
  | [], s => .next s
  | i :: is, s => andThen (exec i s) (execAll is)

/-- The points the frame in the buffer gives, in slot order: one for each slot whose distance is not 0 (R84, R85, R88). -/
def framePoints (s : State) : List PointWord :=
  (List.range slotCount).filterMap fun i =>
    if distOf (fbRead s) i = 0 then none else some (slotPoint s i)

/-- No agent has an enabled step (R134): the writer has no internal step, the source has nothing it is asked for, no
consumer has a command, and the host is not about to assert RESET. -/
def RunOver (s : State) : Prop :=
  internalDue s = false ∧ (requests s = true → s.srcQ = []) ∧ (∀ q ∈ s.ports, q.cmds = []) ∧
    Turn.host 1#1 ∉ s.sched

/-- A final state is closed-final if the writer is CLOSED, and idle-final otherwise (R134). -/
def ClosedFinal (s : State) : Prop := RunOver s ∧ s.wstate = .closed

/-- See `ClosedFinal`. -/
def IdleFinal (s : State) : Prop := RunOver s ∧ s.wstate ≠ .closed

end Sys2Proof.Safety
end

