-- ==== Sys2Proof/Certificates/Slice0/Obligations.lean ====
section
/-! DEFINITION. The statements about the model, one `def Obligations.<Name> : Prop` each. A result statement gives the
next state of an instruction and, by an equation between records, everything it leaves unchanged: `t = { s with f := t.f }`
says that `t` differs from `s` in no field but `f`. -/

open Sys2Proof Sys2Proof.Machine Sys2Proof.Safety

/-! ## Encoding -/

/-- R48, R49, R56, R57, R64: words written out from the tables, in the state that selects their row. -/
def Obligations.TableWordsDecodeAsTabled : Prop :=
  decode ⟨Params.ld19, .hunt, 0⟩ (.src 0x054#10) = .ok .huntMarker ∧
  decode ⟨Params.ld19, .hunt, 0⟩ (.src 0x0D4#10) = .ok (.huntSkip 0xD4) ∧
  decode ⟨Params.ld19, .hunt, 0⟩ (.src 0x1FF#10) = .ok (.huntTimeout 0xFF) ∧
  decode ⟨Params.ld19, .hunt, 0⟩ (.src 0x200#10) = .ok (.closed 0) ∧
  decode ⟨Params.ld19, .hunt, 0⟩ (.src 0x300#10) = .ok (.srcRsvd 0) ∧
  decode ⟨Params.ld19, .collect, 1⟩ (.src 0x054#10) = .ok (.collectByte 0x54) ∧
  decode ⟨Params.ld19, .collect, 46⟩ (.src 0x006#10) = .ok (.collectLast 0x06) ∧
  decode ⟨Params.ld19, .collect, 20⟩ (.src 0x100#10) = .ok (.collectTimeout 0) ∧
  decode ⟨Params.ld19, .push, 0⟩ (.src 0x054#10) = .ok (.srcNotAccepted 0x054#10) ∧
  decode ⟨Params.ld19, .decode, 47⟩ .internal = .ok .decode ∧
  decode ⟨Params.ld19, .push, 0⟩ .internal = .ok .push ∧
  decode ⟨Params.ld19, .hunt, 0⟩ (.cmd 0 0x1F00ABCD#32) = .ok (.snap 0 0xF00ABCD) ∧
  decode ⟨Params.ld19, .hunt, 0⟩ (.cmd 0 0x2F000001#32) = .ok (.read 0 0xF 1) ∧
  decode ⟨Params.ld19, .hunt, 0⟩ (.cmd 0 0x3000FF08#32) = .ok (.stat 0 0x000FF 0x08) ∧
  decode ⟨Params.ld19, .hunt, 0⟩ (.cmd 0 0x00000000#32) = .ok (.cmdRsvd0 0 0) ∧
  decode ⟨Params.ld19, .hunt, 0⟩ (.cmd 0 0x4000000C#32) = .ok (.cmdRsvd47 0 0 0xC) ∧
  decode ⟨Params.ld19, .hunt, 0⟩ (.cmd 0 0xFFFFFFFF#32) = .ok (.cmdRsvd8F 0 7 0xFFFFFFF) ∧
  decode ⟨Params.ld19, .closed, 0⟩ (.host 1#1) = .ok .reset

/-- In every writer state in which an instruction's row is enabled, its word decodes to it, whatever its operands. -/
def Obligations.DecodingAnEncodedInstructionGivesItBack : Prop :=
  ∀ (p : Params) (i : Instr) (ws : WState) (nb : BitVec 6),
    i.wf p = true → i.enabledIn ws nb = true → decode ⟨p, ws, nb⟩ (encode p i) = .ok i

/-- The other direction: a word that decodes is the encoding of what it decodes to, which is well formed and enabled; so
each word in each context has one meaning (R64: the rows do not overlap, R114). -/
def Obligations.EncodingADecodedWordGivesItBack : Prop :=
  ∀ (c : Ctx) (w : PortWord) (i : Instr), decode c w = .ok i →
    encode c.params i = w ∧ i.wf c.params = true ∧ i.enabledIn c.wstate c.nb = true

/-- R50, R51, R52 with R8: where each field of a frame stands among its 47 bytes, as numbers. -/
def Obligations.FrameFieldsStandAtTheirOffsets : Prop :=
  ∀ (m : Byte) (f : Frame), (f.bytes m).length = 47 ∧
    let b : Nat → Nat := fun j => (byteFn (f.bytes m) j).toNat
    b 0 = m.toNat ∧ b 1 = f.verlen.toNat ∧
    b 2 + 256 * b 3 = f.speed.toNat ∧ b 4 + 256 * b 5 = f.startAngle.toNat ∧
    (∀ i (h : i < 12), b (6 + 3 * i) + 256 * b (7 + 3 * i) = f.slots[i].dist.toNat ∧
      b (8 + 3 * i) = f.slots[i].intensity.toNat) ∧
    b 42 + 256 * b 43 = f.endAngle.toNat ∧ b 44 + 256 * b 45 = f.timestamp.toNat ∧ b 46 = f.crc.toNat

/-- R48, R56: the bits a word's format ignores change nothing the instruction does. -/
def Obligations.IgnoredBitsChangeNothing : Prop :=
  ∀ (s : State) (p : Nat) (k : BitVec 24) (sel b b' : Byte) (g g' : BitVec 28) (h h' : BitVec 4) (l l' : BitVec 20),
    exec (.huntTimeout b) s = exec (.huntTimeout b') s ∧ exec (.collectTimeout b) s = exec (.collectTimeout b') s ∧
    exec (.closed b) s = exec (.closed b') s ∧ exec (.srcRsvd b) s = exec (.srcRsvd b') s ∧
    exec (.snap p g) s = exec (.snap p g') s ∧ exec (.read p h k) s = exec (.read p h' k) s ∧
    exec (.stat p l sel) s = exec (.stat p l' sel) s ∧ exec (.cmdRsvd0 p g) s = exec (.cmdRsvd0 p g') s

/-! ## The step -/

/-- R10, R11: when the word of the agent whose turn it is decodes to `i`, the step is `i`'s effect, on the state with the
turn taken and the word consumed (an event word that is not accepted stays with the source). Whose turn it is, and the
lists of words pending, are the model's own state (log entries 7 and 8). -/
def Obligations.StepRunsTheDecodedInstruction : Prop :=
  ∀ (s : State) (w : PortWord) (i : Instr), offered s (turnOf s) = some w → decode (ctxOf s) w = .ok i →
    step s = exec i (consume (turnOf s) i { s with sched := s.sched.tail })

/-- R11, R64: an agent with nothing to present, or whose word stands for no enabled step, waits; only its turn passes
(a turn of the model's schedule, log entries 7 and 8). -/
def Obligations.StepWaitsWhereNoStepIsEnabled : Prop :=
  ∀ (s : State), (offered s (turnOf s) = none ∨ ∃ w e, offered s (turnOf s) = some w ∧ decode (ctxOf s) w = .error e) →
    step s = .next { s with sched := s.sched.tail }

/-- A table word put by `withFetchWord` is what the very next step runs, in a state that differs from `s` at most in the
writer state and NB (the model's convention, log entry 4). -/
def Obligations.TableWordRunsNext : Prop :=
  ∀ (s : State) (nbits w : Nat) (i : Instr), s.params.marker = Params.ld19.marker → 0 < s.params.ports →
    0 < s.ports.length → decodeTableWord nbits w = some i →
    ∃ t ws n, t = { s with wstate := ws, nb := n } ∧ fetch (s.withFetchWord nbits w) = (some i, t) ∧
      step (s.withFetchWord nbits w) = exec i t

/-- R64, R72: the writer takes exactly one event word in a source step, and takes none in DECODE, PUSH or CLOSED. The
source's pending words and its turn are the model's own state (log entries 7 and 8). -/
def Obligations.OneEventIsTakenWhenRequested : Prop :=
  ∀ (s t : State) (w : SrcWord) (rest : List SrcItem) (ts : List Turn), s.sched = .source :: ts →
    s.srcQ = .word w :: rest → (s.wstate = .collect → s.nb.toNat ≤ 46) → step s = .next t →
    t.srcQ = if s.wstate = .hunt ∨ s.wstate = .collect then rest else s.srcQ

/-! ## Frame synchronizer -/

/-- R65. -/
def Obligations.HuntMarkerStartsACandidate : Prop :=
  ∀ (s : State), s.wstate = .hunt → ∃ t, exec .huntMarker s = .next t ∧
    fbRead t 0 = s.params.marker ∧ (∀ j, j ≠ 0 → fbRead t j = fbRead s j) ∧ t.nb = 1 ∧ t.wstate = .collect ∧
    t = { s with fb := t.fb, nb := t.nb, wstate := t.wstate }

/-- R66. -/
def Obligations.HuntSkipCountsTheByte : Prop :=
  ∀ (s : State) (b : Byte), s.wstate = .hunt →
    exec (.huntSkip b) s = .next { s with bytesDiscarded := s.bytesDiscarded + 1 }

/-- R67. -/
def Obligations.ClosedStopsTheWriter : Prop :=
  ∀ (s : State) (g : Byte), (s.wstate = .hunt ∨ s.wstate = .collect) →
    exec (.closed g) s =
      .next { s with nb := 0, slot := 0, lastError := .transportClosed, wstate := .closed }

/-- R68. -/
def Obligations.HuntTimeoutCounts : Prop :=
  ∀ (s : State) (g : Byte), s.wstate = .hunt →
    exec (.huntTimeout g) s = .next { s with timeouts := s.timeouts + 1, lastError := .transportTimeout }

/-- R69. -/
def Obligations.CollectByteAppends : Prop :=
  ∀ (s : State) (b : Byte), s.wstate = .collect → s.nb.toNat < 46 → ∃ t, exec (.collectByte b) s = .next t ∧
    fbRead t s.nb.toNat = b ∧ (∀ j, j ≠ s.nb.toNat → fbRead t j = fbRead s j) ∧
    t.nb.toNat = s.nb.toNat + 1 ∧ t.wstate = .collect ∧ t = { s with fb := t.fb, nb := t.nb }

/-- R70. -/
def Obligations.CollectLastCompletes : Prop :=
  ∀ (s : State) (b : Byte), s.wstate = .collect → s.nb.toNat = 46 → ∃ t, exec (.collectLast b) s = .next t ∧
    fbRead t 46 = b ∧ (∀ j, j ≠ 46 → fbRead t j = fbRead s j) ∧ t.nb = 47 ∧ t.wstate = .decode ∧
    t = { s with fb := t.fb, nb := t.nb, wstate := t.wstate }

/-- R71. -/
def Obligations.CollectTimeoutDropsTheCandidate : Prop :=
  ∀ (s : State) (g : Byte), s.wstate = .collect →
    exec (.collectTimeout g) s = .next { s with
      timeouts := s.timeouts + 1, framesPartial := s.framesPartial + 1, lastError := .frameMisaligned,
      nb := 0, wstate := .hunt }

/-- R49. -/
def Obligations.ReservedKindActsAsTimeout : Prop :=
  ∀ (s : State) (g g' : Byte),
    (s.wstate = .hunt → exec (.srcRsvd g) s = exec (.huntTimeout g') s ∧ exec (.srcRsvd g) s =
      .next { s with timeouts := s.timeouts + 1, lastError := .transportTimeout }) ∧
    (s.wstate = .collect → exec (.srcRsvd g) s = exec (.collectTimeout g') s ∧ exec (.srcRsvd g) s =
      .next { s with
        timeouts := s.timeouts + 1, framesPartial := s.framesPartial + 1, lastError := .frameMisaligned,
        nb := 0, wstate := .hunt })

/-- R72: nothing changes, and in a source step the word stays with the source (its list of pending words is the model's
own state, log entry 8). -/
def Obligations.UnservedEventStaysWithTheSource : Prop :=
  ∀ (s : State) (w : SrcWord), (s.wstate = .decode ∨ s.wstate = .push ∨ s.wstate = .closed) →
    exec (.srcNotAccepted w) s = .next s ∧
    ∀ (rest : List SrcItem) (ts : List Turn), s.sched = .source :: ts → s.srcQ = .word w :: rest →
      step s = .next { s with sched := ts }

/-- R50, R63: the source's next 47 events are the DATA events of the frame's bytes, in order; no other state changes. -/
def Obligations.WireFrameIsFortySevenEvents : Prop :=
  ∀ (s : State) (f : Frame), ∃ t, exec (.wireFrame f) s = .next t ∧ t = { s with srcQ := t.srcQ } ∧
    t.srcQ.length = 47 + s.srcQ.length ∧ t.srcQ.drop 47 = s.srcQ ∧
    ∀ j < 47, t.srcQ[j]? = some (.word ((f.byteAt s.params.marker j).setWidth 10))

/-! ## Packet decoder -/

/-- R80 (with R76, R78). -/
def Obligations.DecodeAcceptsAMatchingFrame : Prop :=
  ∀ (s : State), s.wstate = .decode → s.nb = 47 → fbRead s 0 = s.params.marker →
    crc8 s.params (fbPrefix s 46) = fbRead s 46 →
    exec .decode s = .next { s with
      framesOk := s.framesOk + 1, metaValid := 1, metaVerlen := fbRead s 1,
      metaSpeed := le16 (fbRead s 2) (fbRead s 3), metaStart := le16 (fbRead s 4) (fbRead s 5),
      metaEnd := le16 (fbRead s 42) (fbRead s 43), metaTimestamp := le16 (fbRead s 44) (fbRead s 45),
      metaCrc := fbRead s 46, nb := 0, slot := 0, wstate := .push }

/-- R79 (with R76, R78). -/
def Obligations.DecodeRejectsAMismatch : Prop :=
  ∀ (s : State), s.wstate = .decode → s.nb = 47 → fbRead s 0 = s.params.marker →
    crc8 s.params (fbPrefix s 46) ≠ fbRead s 46 →
    exec .decode s = .next { s with
      framesCrcBad := s.framesCrcBad + 1, lastError := .checksumMismatch, nb := 0, wstate := .hunt }

/-- R87: the defensive branch, which no state that meets the invariant takes. -/
def Obligations.DefensiveCheckActsAsAMismatch : Prop :=
  (∀ (s : State), s.wstate = .decode → (s.nb ≠ 47 ∨ fbRead s 0 ≠ s.params.marker) →
    exec .decode s = .next { s with
      framesCrcBad := s.framesCrcBad + 1, lastError := .checksumMismatch, nb := 0, wstate := .hunt }) ∧
  ∀ (s : State), Inv s → s.wstate = .decode → s.nb = 47 ∧ fbRead s 0 = s.params.marker

/-- R79's example and R131 case 1: with an odd CRC_POLY, changing any one byte of an acceptable candidate makes DECODE
reject it. -/
def Obligations.OneChangedByteIsAlwaysRejected : Prop :=
  ∀ (s : State) (j : Nat) (b : Byte), s.wstate = .decode → s.nb = 47 → fbRead s 0 = s.params.marker →
    crc8 s.params (fbPrefix s 46) = fbRead s 46 → s.params.crcPoly.getLsbD 0 = true →
    j < 47 → b ≠ fbRead s j → ∃ t, exec .decode (fbStore j b s) = .next t ∧
      t.framesCrcBad = s.framesCrcBad + 1 ∧ t.framesOk = s.framesOk ∧ t.wstate = .hunt ∧
      t.lastError = .checksumMismatch

/-- R77: the check values, and entries of the printed table, with this hardware's parameters. -/
def Obligations.CrcCheckValues : Prop :=
  crc8 Params.ld19 [] = 0x00 ∧ crc8 Params.ld19 [0x54] = 0xEE ∧
  crc8 Params.ld19 [0x31, 0x32, 0x33, 0x34, 0x35, 0x36, 0x37, 0x38, 0x39] = 0xC3 ∧
  crcTab 0x4D 0x01 = 0x4D ∧ crcTab 0x4D 0x0F = 0x5C ∧ crcTab 0x4D 0x80 = 0x7C ∧ crcTab 0x4D 0xFF = 0xA8

/-! ## Slot angles and projection -/

/-- R81, R82, R83 with R51's offsets: `A(FB, i)` from the frame buffer's bytes. `S` and `E` are the little-endian fields at
4 and 42, mod 36000, and `D` the mathematical `(E − S) mod 36000`. -/
def Obligations.SlotAnglesSpanStartToEnd : Prop :=
  ∀ (s : State) (i : Nat), i ≤ 11 →
    let S : Int := (((fbRead s 4).toNat + 256 * (fbRead s 5).toNat : Nat) : Int) % 36000
    let E : Int := (((fbRead s 42).toNat + 256 * (fbRead s 43).toNat : Nat) : Int) % 36000
    let D : Int := (E - S) % 36000
    (slotAngle s i : Int) = (11 * S + D * i) % 396000 ∧ slotAngle s i < 396000 ∧
    (slotAngle s 0 : Int) = 11 * S ∧ (slotAngle s 11 : Int) = 11 * E

/-- R91 with R89, R90: every build's projection is the floor or the ceiling of the ideal coordinate. That a build other
than the reference is one free rounding of each coordinate is the model's form of R91 (log entry 3). -/
def Obligations.ProjectionIsFaithful : Prop :=
  ∀ (build : ProjBuild) (d a : Nat), 1 ≤ d → d ≤ 65535 → a < 396000 →
    let θ : ℝ := a * Real.pi / 198000
    (project build .x d a = ⌊256 * d * Real.cos θ⌋ ∨ project build .x d a = ⌈256 * d * Real.cos θ⌉) ∧
    (project build .y d a = ⌊256 * d * Real.sin θ⌋ ∨ project build .y d a = ⌈256 * d * Real.sin θ⌉)

/-- R92, as far as it is proved in general: PROJ_REF is within half a unit, and 2^-40 more, of the ideal coordinate
(log entry 5 says why that makes it the nearest integer). -/
def Obligations.ReferenceProjectionIsWithinHalfAUnit : Prop :=
  ∀ (d a : Nat), 1 ≤ d → d ≤ 65535 → a < 396000 →
    let θ : ℝ := a * Real.pi / 198000
    |(project .reference .x d a : ℝ) - 256 * d * Real.cos θ| ≤ 1 / 2 + 1 / 2 ^ 40 ∧
    |(project .reference .y d a : ℝ) - 256 * d * Real.sin θ| ≤ 1 / 2 + 1 / 2 ^ 40

/-- R94: the exact angles, for every build and distance. -/
def Obligations.ExactAnglesAreExact : Prop :=
  ∀ (build : ProjBuild) (d : Nat), 1 ≤ d → d ≤ 65535 →
    (∀ axc ∈ [((0 : Nat), (256 : Int)), (66000, 128), (99000, 0), (132000, -128), (198000, -256), (264000, -128),
        (297000, 0), (330000, 128)], project build .x d axc.1 = axc.2 * d) ∧
    (∀ ayc ∈ [((0 : Nat), (0 : Int)), (33000, 128), (99000, 256), (165000, 128), (198000, 0), (231000, -128),
        (297000, -256), (363000, -128)], project build .y d ayc.1 = ayc.2 * d)

/-- R95: coordinates fit s32, so the point word holds them whole; X, Y and the intensity are its fields (R60). -/
def Obligations.PointWordHoldsThePoint : Prop :=
  ∀ (build : ProjBuild) (d a : Nat) (c : Byte), 1 ≤ d → d ≤ 65535 → a < 396000 →
    (∀ axis, |project build axis d a| ≤ 16776960) ∧
    ((pointWord build d a c).extractLsb' 0 32).toInt = project build .x d a ∧
    ((pointWord build d a c).extractLsb' 32 32).toInt = project build .y d a ∧
    (pointWord build d a c).extractLsb' 64 8 = c

/-! ## Ring-buffer write controller -/

/-- R96, R97, R98: a slot with a distance is pushed, the ring and every port's SINCE move, and the writer goes on to the
next slot or, after slot 11, to HUNT. -/
def Obligations.PushWritesThePoint : Prop :=
  ∀ (s : State), s.wstate = .push → s.slot.toNat ≤ 11 → distOf (fbRead s) s.slot.toNat ≠ 0 →
    s.head.toNat < s.params.capacity → s.params.capacity ≤ 2 ^ 24 → ∃ t, exec .push s = .next t ∧
      ramRead t s.head.toNat = pointWord s.params.proj (distOf (fbRead s) s.slot.toNat).toNat
        (slotAngle s s.slot.toNat) (intensityOf (fbRead s) s.slot.toNat) ∧
      (∀ idx, idx ≠ s.head.toNat → ramRead t idx = ramRead s idx) ∧
      t.head.toNat = (s.head.toNat + 1) % s.params.capacity ∧ t.head.width = s.params.headBits ∧
      t.count.toNat = min (s.count.toNat + 1) s.params.capacity ∧ t.pushes = s.pushes + 1 ∧
      (∀ (p : Nat) (q : Port), s.ports[p]? = some q → ∃ n : BitVec 25, n.toNat = min (q.since.toNat + 1) s.params.capacity ∧
        t.ports[p]? = some { q with since := n }) ∧ t.ports.length = s.ports.length ∧
      (if s.slot.toNat = 11 then t.wstate = .hunt ∧ t.slot = 0 ∧ t.nb = 0
        else t.wstate = .push ∧ t.slot.toNat = s.slot.toNat + 1 ∧ t.nb = s.nb) ∧
      t = { s with ram := t.ram, head := t.head, count := t.count, pushes := t.pushes, ports := t.ports,
                   wstate := t.wstate, slot := t.slot, nb := t.nb }

/-- R85, R96, R98: a slot with distance 0 is only counted. -/
def Obligations.PushSkipsZeroDistance : Prop :=
  ∀ (s : State), s.wstate = .push → s.slot.toNat ≤ 11 → distOf (fbRead s) s.slot.toNat = 0 → ∃ t,
    exec .push s = .next t ∧ t.samplesZero = s.samplesZero + 1 ∧
    (if s.slot.toNat = 11 then t.wstate = .hunt ∧ t.slot = 0 ∧ t.nb = 0
      else t.wstate = .push ∧ t.slot.toNat = s.slot.toNat + 1 ∧ t.nb = s.nb) ∧
    t = { s with samplesZero := t.samplesZero, wstate := t.wstate, slot := t.slot, nb := t.nb }

/-- R81, R83, R85, R96, and the source's property that every point has a distance and an angle in the turn: whatever
instruction writes RAM writes, at HEAD, the point of a distance of at least 1 and an angle code below a full turn. -/
def Obligations.EveryPointHasADistanceAndAnAngle : Prop :=
  ∀ (s t : State) (i : Instr), exec i s = .next t → t.ram ≠ s.ram → ∃ (d a : Nat) (c : Byte),
    1 ≤ d ∧ d ≤ 65535 ∧ a < 396000 ∧ t.ram = Memory.write s.ram s.head.toNat (pointWord s.params.proj d a c)

/-- The model's two faults (log entry 11): PUSH at an index outside the ring or a slot outside the frame. A READ never
stops: the index it reads is below C wherever it reads one. -/
def Obligations.AccessesOutsideRingOrFrameStop : Prop :=
  (∀ (s : State), s.wstate = .push → 11 < s.slot.toNat → exec .push s = .fault (.slotIndex s.slot.toNat)) ∧
  (∀ (s : State), s.wstate = .push → s.slot.toNat ≤ 11 → distOf (fbRead s) s.slot.toNat ≠ 0 →
    s.params.capacity ≤ s.head.toNat → exec .push s = .fault (.ramIndex s.head.toNat)) ∧
  (∀ (s : State) (p : Nat) (g : BitVec 4) (k : BitVec 24), ∃ t, exec (.read p g k) s = .next t)

/-- R97 with R35: a ring write appends the point, and evicts the oldest one where the ring is full. -/
def Obligations.RingWriteEvictsOnlyTheOldest : Prop :=
  ∀ (s : State) (pw : PointWord), Inv s → ∃ t, ringWrite pw s = .ok t ∧
    content t = (if s.count.toNat = s.params.capacity then (content s).drop 1 else content s) ++ [pw]

/-- R99, the eviction law: after N pushes from reset the ring holds the last min(N, C) of them, in order. -/
def Obligations.RingHoldsTheNewestPushes : Prop :=
  ∀ (p : Params) (pws : List PointWord), p.legal → ∃ t,
    pws.foldlM (fun s pw => ringWrite pw s) (State.resetWith p) = .ok t ∧
    t.count.toNat = min pws.length p.capacity ∧ content t = pws.drop (pws.length - p.capacity)

/-! ## Consumer ports -/

/-- R101. -/
def Obligations.SnapLatchesTheRing : Prop :=
  ∀ (s : State) (p : Nat) (g : BitVec 28) (q : Port), s.ports[p]? = some q → ∃ t, exec (.snap p g) s = .next t ∧
    t.ports[p]? = some { q with
      headL := s.head, countL := s.count, pushesL := s.pushes, since := 0,
      rsp := some ⟨true, true, BitVec.ofNat 32 s.count.toNat, s.pushes, 0⟩ } ∧
    (∀ p', p' ≠ p → t.ports[p']? = s.ports[p']?) ∧ t = { s with ports := t.ports }

/-- R102, R103, R104: an entry in range and not overwritten since the SNAP is returned. -/
def Obligations.ReadReturnsAValidEntry : Prop :=
  ∀ (s : State) (p : Nat) (g : BitVec 4) (k : BitVec 24) (q : Port), s.ports[p]? = some q →
    k.toNat < q.countL.toNat → q.countL.toNat ≤ s.params.capacity →
    q.since.toNat ≤ s.params.capacity - q.countL.toNat + k.toNat → ∃ t, exec (.read p g k) s = .next t ∧
      (let pw := ramRead s ((q.headL.toNat + s.params.capacity - q.countL.toNat + k.toNat) % s.params.capacity)
       t.ports[p]? = some { q with rsp := some ⟨true, true, pw.extractLsb' 0 32, pw.extractLsb' 32 32,
         BitVec.ofNat 32 (pw.extractLsb' 64 8).toNat⟩ }) ∧
      (∀ p', p' ≠ p → t.ports[p']? = s.ports[p']?) ∧ t = { s with ports := t.ports }

/-- R102, R104: a READ out of range or of an overwritten entry answers OK = 1, VALID = 0 and zero data. -/
def Obligations.ReadOutOfRangeOrStaleIsInvalid : Prop :=
  ∀ (s : State) (p : Nat) (g : BitVec 4) (k : BitVec 24) (q : Port), s.ports[p]? = some q →
    q.countL.toNat ≤ s.params.capacity →
    (q.countL.toNat ≤ k.toNat ∨ q.since.toNat > s.params.capacity - q.countL.toNat + k.toNat) →
    ∃ t, exec (.read p g k) s = .next t ∧ t.ports[p]? = some { q with rsp := some ⟨true, false, 0, 0, 0⟩ } ∧
      (∀ p', p' ≠ p → t.ports[p']? = s.ports[p']?) ∧ t = { s with ports := t.ports }

/-- R59, R105: every selector of the map and its value, as a number, with the codes of WSTATE (R13) and of LAST_ERROR
(R108). HEAD and HEAD_L have their width (R18, R29). -/
def Obligations.StatAnswersEverySelector : Prop :=
  ∀ (s : State) (p : Nat) (g : BitVec 20) (q : Port), s.ports[p]? = some q → s.params.legal →
    s.params.ports < 2 ^ 32 → s.head.width = s.params.headBits → q.headL.width = s.params.headBits →
    let ws : Nat := match s.wstate with
      | .hunt => 0
      | .collect => 1
      | .decode => 2
      | .push => 3
      | .closed => 4
    let le : Nat := match s.lastError with
      | .none => 0
      | .transportTimeout => 1
      | .frameMisaligned => 2
      | .checksumMismatch => 3
      | .transportClosed => 4
    ∀ row ∈ ([(0x00, s.params.capacity), (0x01, s.params.marker.toNat), (0x02, 47),
        (0x03, 256 * s.params.crcInit.toNat + s.params.crcPoly.toNat), (0x04, s.params.ports),
        (0x08, ws + 2 ^ 8 * s.nb.toNat + 2 ^ 16 * s.slot.toNat),
        (0x09, s.count.toNat), (0x0A, s.head.toNat), (0x0B, s.pushes.toNat)] ++
      [(0x10, s.framesOk.toNat), (0x11, s.framesCrcBad.toNat), (0x12, s.framesPartial.toNat),
        (0x13, s.bytesDiscarded.toNat), (0x14, s.timeouts.toNat), (0x15, s.samplesZero.toNat),
        (0x16, le)] ++
      [(0x20, s.metaValid.toNat), (0x21, s.metaVerlen.toNat), (0x22, s.metaSpeed.toNat), (0x23, s.metaStart.toNat),
        (0x24, s.metaEnd.toNat), (0x25, s.metaTimestamp.toNat), (0x26, s.metaCrc.toNat)] ++
      [(0x30, q.countL.toNat), (0x31, q.headL.toNat), (0x32, q.pushesL.toNat), (0x33, q.since.toNat)] :
        List (Byte × Nat)),
      ∃ t, exec (.stat p g row.1) s = .next t ∧
        t.ports[p]? = some { q with rsp := some ⟨true, true, BitVec.ofNat 32 row.2, 0, 0⟩ } ∧ row.2 < 2 ^ 32 ∧
        (∀ p', p' ≠ p → t.ports[p']? = s.ports[p']?) ∧ t = { s with ports := t.ports }

/-- R59, R105: a selector the map does not list. -/
def Obligations.StatRefusesUndefinedSelectors : Prop :=
  ∀ (s : State) (p : Nat) (g : BitVec 20) (sel : Byte) (q : Port), s.ports[p]? = some q →
    sel.toNat ∉ [0x00, 0x01, 0x02, 0x03, 0x04, 0x08, 0x09, 0x0A, 0x0B, 0x10, 0x11, 0x12, 0x13, 0x14, 0x15, 0x16,
      0x20, 0x21, 0x22, 0x23, 0x24, 0x25, 0x26, 0x30, 0x31, 0x32, 0x33] → ∃ t,
    exec (.stat p g sel) s = .next t ∧ t.ports[p]? = some { q with rsp := some ⟨false, false, 0, 0, 0⟩ } ∧
      (∀ p', p' ≠ p → t.ports[p']? = s.ports[p']?) ∧ t = { s with ports := t.ports }

/-- R106: the three reserved rows write nothing and answer OK = 0, VALID = 0, zero data. -/
def Obligations.ReservedCommandsAreRefused : Prop :=
  ∀ (s : State) (p : Nat) (g : BitVec 28) (a : BitVec 2) (b : BitVec 3) (q : Port) (i : Instr),
    s.ports[p]? = some q → i ∈ [.cmdRsvd0 p g, .cmdRsvd47 p a g, .cmdRsvd8F p b g] → ∃ t,
    exec i s = .next t ∧ t.ports[p]? = some { q with rsp := some ⟨false, false, 0, 0, 0⟩ } ∧
      (∀ p', p' ≠ p → t.ports[p']? = s.ports[p']?) ∧ t = { s with ports := t.ports }

/-- R42: repeating a READ or a STAT with no step in between changes nothing more and gives the same response. -/
def Obligations.ReadAndStatAreIdempotent : Prop :=
  ∀ (s t : State) (p : Nat) (g : BitVec 4) (k : BitVec 24) (l : BitVec 20) (sel : Byte) (i : Instr),
    i = .read p g k ∨ i = .stat p l sel → exec i s = .next t → exec i t = .next t ∧
      ∀ (q q' : Port) (n : Nat), s.ports[n]? = some q → t.ports[n]? = some q' → q' = { q with rsp := q'.rsp }

/-- R32, R118, R119: what a command can change is its own port: READ, STAT and reserved commands only the response there,
SNAP that port's latch too. No command changes the ring, a counter, the metadata or the sequencer. -/
def Obligations.CommandsReachOnlyTheirPort : Prop :=
  ∀ (s t : State) (p : Nat) (g : BitVec 28) (h : BitVec 4) (l : BitVec 20) (k : BitVec 24) (sel : Byte) (a : BitVec 2)
    (b : BitVec 3) (i : Instr),
    i ∈ [.snap p g, .read p h k, .stat p l sel, .cmdRsvd0 p g, .cmdRsvd47 p a g, .cmdRsvd8F p b g] →
    exec i s = .next t → t = { s with ports := t.ports } ∧ t.ports.length = s.ports.length ∧
      (∀ p', p' ≠ p → t.ports[p']? = s.ports[p']?) ∧
      ∀ (q q' : Port), s.ports[p]? = some q → t.ports[p]? = some q' → q'.cmds = q.cmds ∧
        (i ≠ .snap p g → q' = { q with rsp := q'.rsp })

/-- R45: right after a SNAP every entry reads back as the ring's content at the SNAP. -/
def Obligations.ReadAfterSnapReturnsTheContent : Prop :=
  ∀ (s t : State) (p : Nat) (g : BitVec 28) (h : BitVec 4) (k : BitVec 24), Inv s → p < s.ports.length →
    exec (.snap p g) s = .next t → (content s).length = s.count.toNat ∧
    ∀ pw, (content s)[k.toNat]? = some pw → ∃ u, exec (.read p h k) t = .next u ∧
      (portAt u p).rsp = some (pointRsp pw)

/-- R45, R104: after a SNAP, whatever steps follow short of RESET and a new SNAP on the port, a READ that answers VALID = 1
returns the entry the ring held at the SNAP. -/
def Obligations.ValidReadsReturnTheSnapshot : Prop :=
  ∀ (s s1 t u : State) (p : Nat) (g : BitVec 28) (is : List Instr) (h : BitVec 4) (k : BitVec 24) (r : Rsp),
    Inv s → p < s.ports.length → exec (.snap p g) s = .next s1 →
    (∀ i ∈ is, i ≠ .reset ∧ ∀ g', i ≠ .snap p g') → execAll is s1 = .next t →
    exec (.read p h k) t = .next u → (portAt u p).rsp = some r → r.valid = true →
    ∃ pw, (content s)[k.toNat]? = some pw ∧ r = pointRsp pw

/-! ## Reset -/

/-- R122, R34: every element takes its reset value, from any state; RAM keeps its bits, the parameters stay, and an event
the source has not delivered stays with it. That each port's pending commands and last response and the schedule stay is
the model's choice (log entry 15): they are no elements of the block. -/
def Obligations.ResetGivesTheResetState : Prop :=
  ∀ (s : State), ∃ t, exec .reset s = .next t ∧
    t.wstate = .hunt ∧ t.nb = 0 ∧ t.slot = 0 ∧ t.head = Reg.ofNat s.params.headBits 0 ∧ t.count = 0 ∧ t.pushes = 0 ∧
    t.framesOk = 0 ∧ t.framesCrcBad = 0 ∧ t.framesPartial = 0 ∧ t.bytesDiscarded = 0 ∧ t.timeouts = 0 ∧ t.samplesZero = 0 ∧
    t.lastError = .none ∧ t.metaValid = 0 ∧ t.metaVerlen = 0 ∧ t.metaSpeed = 0 ∧ t.metaStart = 0 ∧ t.metaEnd = 0 ∧
    t.metaTimestamp = 0 ∧ t.metaCrc = 0 ∧ t.ram = s.ram ∧ t.params = s.params ∧ content t = [] ∧
    t.ports.length = s.ports.length ∧
    (∀ (p : Nat) (q : Port), s.ports[p]? = some q → t.ports[p]? =
      some { q with headL := Reg.ofNat s.params.headBits 0, countL := 0, pushesL := 0, since := 0 }) ∧
    t.srcQ = s.srcQ ∧ t.sched = s.sched

/-- R123, R121: RESET is the only way out of CLOSED. -/
def Obligations.OnlyResetLeavesClosed : Prop :=
  ∀ (s t : State) (i : Instr), exec i s = .next t → s.wstate = .closed → i ≠ .reset →
    t.wstate = .closed ∧ t = { s with ports := t.ports, srcQ := t.srcQ }

/-- R125, R47: no step changes a parameter. -/
def Obligations.ParametersNeverChange : Prop :=
  ∀ (s t : State), step s = .next t → t.params = s.params

/-! ## Whole-machine rules -/

/-- R33 at reset. -/
def Obligations.ResetStateMeetsTheInvariant : Prop :=
  ∀ (p : Params), p.legal → Inv (State.resetWith p)

/-- R33: every step keeps the invariant. -/
def Obligations.StepKeepsTheInvariant : Prop :=
  ∀ (s t : State), Inv s → step s = .next t → Inv t

/-- R134, R113: the block has no fault state; a step from a state that meets the invariant never stops. -/
def Obligations.StepNeverStops : Prop :=
  ∀ (s : State), Inv s → ∃ t, step s = .next t

/-- R34, I8, R15, R32: where the invariant holds, no result rests on a byte of FB or an entry of RAM that nothing has
written. The 47 bytes are written in DECODE and PUSH, and so is every snapshot entry a READ can return; only DECODE and
PUSH depend on FB, and there on those 47 bytes; only READ depends on RAM, and there on those entries. -/
def Obligations.UnspecifiedContentsAreNeverRead : Prop :=
  ∀ (s : State), Inv s →
    (∀ j < 47, s.wstate = .decode ∨ s.wstate = .push → (Memory.read s.fb j).isSome) ∧
    (∀ q ∈ s.ports, ∀ k < q.countL.toNat, isStale s.params.capacity q k = false →
      (Memory.read s.ram (physIndex s.params.capacity q k)).isSome) ∧
    ∀ (i : Instr) (t : State), exec i s = .next t →
      (i ≠ .decode → i ≠ .push → ∀ (m : List Host.Cell) (e : Nat), ∃ m' e',
        exec i { s with fb := m, epoch := e } = .next { t with fb := m', epoch := e' }) ∧
      (i = .decode ∨ i = .push → ∀ (m : List Host.Cell) (e : Nat),
        (∀ j < 47, Memory.read m j = Memory.read s.fb j) →
        exec i { s with fb := m, epoch := e } = .next { t with fb := m, epoch := e }) ∧
      ((∀ p g k, i ≠ .read p g k) → ∀ (m : List (Nat × PointWord)), ∃ m',
        exec i { s with ram := m } = .next { t with ram := m' }) ∧
      (∀ p g k, i = .read p g k → ∀ (m : List (Nat × PointWord)),
        (∀ j < (portAt s p).countL.toNat, isStale s.params.capacity (portAt s p) j = false →
          Memory.read m (physIndex s.params.capacity (portAt s p) j) =
            Memory.read s.ram (physIndex s.params.capacity (portAt s p) j)) →
        exec i { s with ram := m } = .next { t with ram := m })

/-- R27: only RESET clears LAST_ERROR, and only the error events of R108 write it. -/
def Obligations.OnlyErrorEventsWriteLastError : Prop :=
  ∀ (s t : State) (i : Instr), exec i s = .next t → i ≠ .reset → t.lastError ≠ s.lastError →
    (∃ g, i = .huntTimeout g ∨ i = .collectTimeout g ∨ i = .srcRsvd g ∨ i = .closed g) ∧ t.lastError ≠ .none ∨
    i = .decode ∧ t.lastError = .checksumMismatch

/-- R28: the metadata is written only by the accept path, all of it in one step. -/
def Obligations.OnlyAcceptWritesMetadata : Prop :=
  ∀ (s t : State) (i : Instr), exec i s = .next t → i ≠ .reset →
    (t.metaValid = s.metaValid ∧ t.metaVerlen = s.metaVerlen ∧ t.metaSpeed = s.metaSpeed ∧
      t.metaStart = s.metaStart ∧ t.metaEnd = s.metaEnd ∧ t.metaTimestamp = s.metaTimestamp ∧ t.metaCrc = s.metaCrc) ∨
    (i = .decode ∧ s.wstate = .decode ∧ t.wstate = .push ∧ t.framesOk = s.framesOk + 1)

/-- R17, R32, R88, R126: only PUSH writes the ring; a port's SINCE moves only there and in that port's own SNAP. The
writer comes to PUSH only by a DECODE that finds 47 bytes, the marker first, and the checksum equal, and while it is there
nothing changes FB: so what is pushed is of a frame whose CRC was found equal. -/
def Obligations.OnlyPushWritesTheRing : Prop :=
  ∀ (s t : State) (i : Instr), exec i s = .next t → i ≠ .reset →
    ((t.ram = s.ram ∧ t.head = s.head ∧ t.count = s.count ∧ t.pushes = s.pushes ∧
      ∀ (p : Nat) (q q' : Port), s.ports[p]? = some q → t.ports[p]? = some q' → q'.since = q.since ∨ ∃ g, i = .snap p g) ∨
    (i = .push ∧ s.wstate = .push)) ∧
    (t.wstate = .push → s.wstate = .push ∨
      (i = .decode ∧ s.wstate = .decode ∧ s.nb = 47 ∧ fbRead s 0 = s.params.marker ∧
        crc8 s.params (fbPrefix s 46) = fbRead s 46 ∧ t.fb = s.fb ∧ t.slot = 0)) ∧
    (s.wstate = .push → t.fb = s.fb)

/-- R21 to R26: which instructions can move each counter, and that each moves by one. -/
def Obligations.CountersMoveOnlyByTheirRules : Prop :=
  ∀ (s t : State) (i : Instr), exec i s = .next t → i ≠ .reset →
    (t.framesOk = s.framesOk ∨ i = .decode ∧ t.framesOk = s.framesOk + 1) ∧
    (t.framesCrcBad = s.framesCrcBad ∨ i = .decode ∧ t.framesCrcBad = s.framesCrcBad + 1) ∧
    (t.framesPartial = s.framesPartial ∨ (∃ g, i = .collectTimeout g ∨ i = .srcRsvd g) ∧ s.wstate = .collect ∧
      t.framesPartial = s.framesPartial + 1) ∧
    (t.bytesDiscarded = s.bytesDiscarded ∨ (∃ b, i = .huntSkip b) ∧ t.bytesDiscarded = s.bytesDiscarded + 1) ∧
    (t.timeouts = s.timeouts ∨ (∃ g, i = .huntTimeout g ∨ i = .collectTimeout g ∨ i = .srcRsvd g) ∧
      t.timeouts = s.timeouts + 1) ∧
    (t.samplesZero = s.samplesZero ∨ i = .push ∧ t.samplesZero = s.samplesZero + 1)

/-- R134: where the run is over, a step changes nothing but whose turn it is. The schedule and the lists of pending words
are the model's own state (log entries 7 and 8). -/
def Obligations.NothingMovesWhenTheRunIsOver : Prop :=
  ∀ (s : State), RunOver s → step s = .next { s with sched := s.sched.tail }

/-- R12, R114, R127: one clock cycle, as the turns the model gives it (`cycleTurns`, log entry 16). RESET, if it is
asserted, or else the writer's one step comes first, and each command then runs on the state that step leaves: a command
in the RESET cycle sees the reset state and no event is accepted, a SNAP beside a push includes that push, and a READ of
the entry the push overwrites answers VALID = 0. -/
def Obligations.PushBeforeReadInOneCycle : Prop :=
  ∀ (s : State) (reset : Bool) (ts : List Turn), Inv s → s.sched = cycleTurns s reset ++ ts → ∃ t u,
    step s = .next t ∧ Sys2Proof.core.run (1 + s.params.ports) s = .next u ∧
    u = { t with ports := u.ports, sched := ts } ∧
    (reset = true → exec .reset s = .next { t with sched := s.sched } ∧ t.srcQ = s.srcQ) ∧
    (reset = false → s.wstate = .push → exec .push s = .next { t with sched := s.sched }) ∧
    ∀ (p : Nat) (q : Port) (w : CmdWord) (ws : List CmdWord), s.ports[p]? = some q → q.cmds = w :: ws →
      (∃ v, exec (decodeCmd p w) t = .next v ∧ u.ports[p]? = some { portAt v p with cmds := ws }) ∧
      (reset = true → ∀ g, decodeCmd p w = .snap p g → (portAt u p).rsp = some ⟨true, true, 0, 0, 0⟩) ∧
      (reset = false → s.wstate = .push → distOf (fbRead s) s.slot.toNat ≠ 0 →
        u.pushes = s.pushes + 1 ∧
        (∀ g, decodeCmd p w = .snap p g →
          (portAt u p).headL.toNat = (s.head.toNat + 1) % s.params.capacity ∧
          (portAt u p).countL.toNat = min (s.count.toNat + 1) s.params.capacity ∧
          (portAt u p).pushesL = s.pushes + 1 ∧ (portAt u p).since = 0 ∧
          (portAt u p).rsp =
            some ⟨true, true, BitVec.ofNat 32 (min (s.count.toNat + 1) s.params.capacity), s.pushes + 1, 0⟩) ∧
        (∀ g k, decodeCmd p w = .read p g k → k.toNat < q.countL.toNat →
          s.params.capacity - q.countL.toNat + k.toNat ≤ q.since.toNat →
          (portAt u p).rsp = some ⟨true, false, 0, 0, 0⟩))

/-- R74, R65, R69, R70: a frame the source sends in HUNT is collected whole, and DECODE is then due with exactly its bytes.
The first clause is for any schedule without RESET: the source's 48 turns (the frame as one queued item, log entry 13,
then its 47 events), with any turns of the other agents between them. The second assumes the empty schedule, in which the
default turns (log entry 7) make it 48 steps. -/
def Obligations.FrameIsCollectedWhole : Prop :=
  ∀ (s : State) (f : Frame) (rest : List SrcItem), s.wstate = .hunt → s.srcQ = .frame f :: rest →
    (∀ (us ts : List Turn), s.sched = us ++ .source :: ts → us.count .source = 47 → Turn.host 1#1 ∉ us →
      ∃ t, Sys2Proof.core.run (us.length + 1) s = .next t ∧ t.wstate = .decode ∧ t.nb = 47 ∧ t.srcQ = rest ∧
        (∀ j < 47, fbRead t j = f.byteAt s.params.marker j) ∧ t.sched = ts ∧
        t = { s with wstate := t.wstate, nb := t.nb, srcQ := t.srcQ, fb := t.fb, ports := t.ports, sched := t.sched }) ∧
    (s.sched = [] →
      ∃ t, Sys2Proof.core.run 48 s = .next t ∧ t.wstate = .decode ∧ t.nb = 47 ∧ t.srcQ = rest ∧
        (∀ j < 47, fbRead t j = f.byteAt s.params.marker j) ∧
        t = { s with wstate := t.wstate, nb := t.nb, srcQ := t.srcQ, fb := t.fb })

/-- R88, R96, R100, R119: the 12 PUSH steps of an accepted frame push its points, all of them and in slot order, and end
in HUNT. The first clause is for any schedule without RESET: the writer's 12 turns, with any turns of the source, the
consumers and the host between them. The second assumes the empty schedule, in which the default turns (log entry 7) make
it 12 steps. -/
def Obligations.AcceptedFrameIsPushedWhole : Prop :=
  ∀ (s : State), Inv s → s.wstate = .push → s.slot = 0 →
    (∀ (us ts : List Turn), s.sched = us ++ .writer :: ts → us.count .writer = 11 → Turn.host 1#1 ∉ us →
      ∃ t, Sys2Proof.core.run (us.length + 1) s = .next t ∧ t.wstate = .hunt ∧
        content t = (content s ++ framePoints s).drop (s.count.toNat + (framePoints s).length - s.params.capacity) ∧
        t.pushes = s.pushes + BitVec.ofNat 32 (framePoints s).length ∧
        t.samplesZero = s.samplesZero + BitVec.ofNat 32 (12 - (framePoints s).length) ∧
        t.srcQ = s.srcQ ∧ t.sched = ts) ∧
    (s.sched = [] →
      ∃ t, Sys2Proof.core.run 12 s = .next t ∧ t.wstate = .hunt ∧
        content t = (content s ++ framePoints s).drop (s.count.toNat + (framePoints s).length - s.params.capacity) ∧
        t.pushes = s.pushes + BitVec.ofNat 32 (framePoints s).length ∧
        t.samplesZero = s.samplesZero + BitVec.ofNat 32 (12 - (framePoints s).length))
end

