-- ==== Sys2Proof/Laws/State.lean ====
section
/-! SUPPORT. For each named update of `State`, one lemma a field, true by `rfl`, so that no later proof unfolds a record
update. A field a lemma's right side shows unchanged is part of the update's frame. -/

namespace Sys2Proof.Machine

/-! ### goto -/

@[simp] theorem goto_params (w : WState) (n : BitVec 6) (s : State) : (goto w n s).params = s.params := rfl
@[simp] theorem goto_wstate (w : WState) (n : BitVec 6) (s : State) : (goto w n s).wstate = w := rfl
@[simp] theorem goto_nb (w : WState) (n : BitVec 6) (s : State) : (goto w n s).nb = n := rfl
@[simp] theorem goto_slot (w : WState) (n : BitVec 6) (s : State) : (goto w n s).slot = s.slot := rfl
@[simp] theorem goto_fb (w : WState) (n : BitVec 6) (s : State) : (goto w n s).fb = s.fb := rfl
@[simp] theorem goto_ram (w : WState) (n : BitVec 6) (s : State) : (goto w n s).ram = s.ram := rfl
@[simp] theorem goto_head (w : WState) (n : BitVec 6) (s : State) : (goto w n s).head = s.head := rfl
@[simp] theorem goto_count (w : WState) (n : BitVec 6) (s : State) : (goto w n s).count = s.count := rfl
@[simp] theorem goto_pushes (w : WState) (n : BitVec 6) (s : State) : (goto w n s).pushes = s.pushes := rfl
@[simp] theorem goto_framesOk (w : WState) (n : BitVec 6) (s : State) : (goto w n s).framesOk = s.framesOk := rfl
@[simp] theorem goto_framesCrcBad (w : WState) (n : BitVec 6) (s : State) : (goto w n s).framesCrcBad = s.framesCrcBad := rfl
@[simp] theorem goto_framesPartial (w : WState) (n : BitVec 6) (s : State) : (goto w n s).framesPartial = s.framesPartial := rfl
@[simp] theorem goto_bytesDiscarded (w : WState) (n : BitVec 6) (s : State) : (goto w n s).bytesDiscarded = s.bytesDiscarded := rfl
@[simp] theorem goto_timeouts (w : WState) (n : BitVec 6) (s : State) : (goto w n s).timeouts = s.timeouts := rfl
@[simp] theorem goto_samplesZero (w : WState) (n : BitVec 6) (s : State) : (goto w n s).samplesZero = s.samplesZero := rfl
@[simp] theorem goto_lastError (w : WState) (n : BitVec 6) (s : State) : (goto w n s).lastError = s.lastError := rfl
@[simp] theorem goto_metaValid (w : WState) (n : BitVec 6) (s : State) : (goto w n s).metaValid = s.metaValid := rfl
@[simp] theorem goto_metaVerlen (w : WState) (n : BitVec 6) (s : State) : (goto w n s).metaVerlen = s.metaVerlen := rfl
@[simp] theorem goto_metaSpeed (w : WState) (n : BitVec 6) (s : State) : (goto w n s).metaSpeed = s.metaSpeed := rfl
@[simp] theorem goto_metaStart (w : WState) (n : BitVec 6) (s : State) : (goto w n s).metaStart = s.metaStart := rfl
@[simp] theorem goto_metaEnd (w : WState) (n : BitVec 6) (s : State) : (goto w n s).metaEnd = s.metaEnd := rfl
@[simp] theorem goto_metaTimestamp (w : WState) (n : BitVec 6) (s : State) : (goto w n s).metaTimestamp = s.metaTimestamp := rfl
@[simp] theorem goto_metaCrc (w : WState) (n : BitVec 6) (s : State) : (goto w n s).metaCrc = s.metaCrc := rfl
@[simp] theorem goto_ports (w : WState) (n : BitVec 6) (s : State) : (goto w n s).ports = s.ports := rfl
@[simp] theorem goto_srcQ (w : WState) (n : BitVec 6) (s : State) : (goto w n s).srcQ = s.srcQ := rfl
@[simp] theorem goto_sched (w : WState) (n : BitVec 6) (s : State) : (goto w n s).sched = s.sched := rfl
@[simp] theorem goto_epoch (w : WState) (n : BitVec 6) (s : State) : (goto w n s).epoch = s.epoch := rfl

/-! ### raise -/

@[simp] theorem raise_params (e : ErrorClass) (s : State) : (raise e s).params = s.params := rfl
@[simp] theorem raise_wstate (e : ErrorClass) (s : State) : (raise e s).wstate = s.wstate := rfl
@[simp] theorem raise_nb (e : ErrorClass) (s : State) : (raise e s).nb = s.nb := rfl
@[simp] theorem raise_slot (e : ErrorClass) (s : State) : (raise e s).slot = s.slot := rfl
@[simp] theorem raise_fb (e : ErrorClass) (s : State) : (raise e s).fb = s.fb := rfl
@[simp] theorem raise_ram (e : ErrorClass) (s : State) : (raise e s).ram = s.ram := rfl
@[simp] theorem raise_head (e : ErrorClass) (s : State) : (raise e s).head = s.head := rfl
@[simp] theorem raise_count (e : ErrorClass) (s : State) : (raise e s).count = s.count := rfl
@[simp] theorem raise_pushes (e : ErrorClass) (s : State) : (raise e s).pushes = s.pushes := rfl
@[simp] theorem raise_framesOk (e : ErrorClass) (s : State) : (raise e s).framesOk = s.framesOk := rfl
@[simp] theorem raise_framesCrcBad (e : ErrorClass) (s : State) : (raise e s).framesCrcBad = s.framesCrcBad := rfl
@[simp] theorem raise_framesPartial (e : ErrorClass) (s : State) : (raise e s).framesPartial = s.framesPartial := rfl
@[simp] theorem raise_bytesDiscarded (e : ErrorClass) (s : State) : (raise e s).bytesDiscarded = s.bytesDiscarded := rfl
@[simp] theorem raise_timeouts (e : ErrorClass) (s : State) : (raise e s).timeouts = s.timeouts := rfl
@[simp] theorem raise_samplesZero (e : ErrorClass) (s : State) : (raise e s).samplesZero = s.samplesZero := rfl
@[simp] theorem raise_lastError (e : ErrorClass) (s : State) : (raise e s).lastError = e := rfl
@[simp] theorem raise_metaValid (e : ErrorClass) (s : State) : (raise e s).metaValid = s.metaValid := rfl
@[simp] theorem raise_metaVerlen (e : ErrorClass) (s : State) : (raise e s).metaVerlen = s.metaVerlen := rfl
@[simp] theorem raise_metaSpeed (e : ErrorClass) (s : State) : (raise e s).metaSpeed = s.metaSpeed := rfl
@[simp] theorem raise_metaStart (e : ErrorClass) (s : State) : (raise e s).metaStart = s.metaStart := rfl
@[simp] theorem raise_metaEnd (e : ErrorClass) (s : State) : (raise e s).metaEnd = s.metaEnd := rfl
@[simp] theorem raise_metaTimestamp (e : ErrorClass) (s : State) : (raise e s).metaTimestamp = s.metaTimestamp := rfl
@[simp] theorem raise_metaCrc (e : ErrorClass) (s : State) : (raise e s).metaCrc = s.metaCrc := rfl
@[simp] theorem raise_ports (e : ErrorClass) (s : State) : (raise e s).ports = s.ports := rfl
@[simp] theorem raise_srcQ (e : ErrorClass) (s : State) : (raise e s).srcQ = s.srcQ := rfl
@[simp] theorem raise_sched (e : ErrorClass) (s : State) : (raise e s).sched = s.sched := rfl
@[simp] theorem raise_epoch (e : ErrorClass) (s : State) : (raise e s).epoch = s.epoch := rfl

/-! ### fbStore -/

@[simp] theorem fbStore_params (j : Nat) (b : Byte) (s : State) : (fbStore j b s).params = s.params := rfl
@[simp] theorem fbStore_wstate (j : Nat) (b : Byte) (s : State) : (fbStore j b s).wstate = s.wstate := rfl
@[simp] theorem fbStore_nb (j : Nat) (b : Byte) (s : State) : (fbStore j b s).nb = s.nb := rfl
@[simp] theorem fbStore_slot (j : Nat) (b : Byte) (s : State) : (fbStore j b s).slot = s.slot := rfl
@[simp] theorem fbStore_fb (j : Nat) (b : Byte) (s : State) : (fbStore j b s).fb = Memory.write s.fb j b := rfl
@[simp] theorem fbStore_ram (j : Nat) (b : Byte) (s : State) : (fbStore j b s).ram = s.ram := rfl
@[simp] theorem fbStore_head (j : Nat) (b : Byte) (s : State) : (fbStore j b s).head = s.head := rfl
@[simp] theorem fbStore_count (j : Nat) (b : Byte) (s : State) : (fbStore j b s).count = s.count := rfl
@[simp] theorem fbStore_pushes (j : Nat) (b : Byte) (s : State) : (fbStore j b s).pushes = s.pushes := rfl
@[simp] theorem fbStore_framesOk (j : Nat) (b : Byte) (s : State) : (fbStore j b s).framesOk = s.framesOk := rfl
@[simp] theorem fbStore_framesCrcBad (j : Nat) (b : Byte) (s : State) : (fbStore j b s).framesCrcBad = s.framesCrcBad := rfl
@[simp] theorem fbStore_framesPartial (j : Nat) (b : Byte) (s : State) : (fbStore j b s).framesPartial = s.framesPartial := rfl
@[simp] theorem fbStore_bytesDiscarded (j : Nat) (b : Byte) (s : State) : (fbStore j b s).bytesDiscarded = s.bytesDiscarded := rfl
@[simp] theorem fbStore_timeouts (j : Nat) (b : Byte) (s : State) : (fbStore j b s).timeouts = s.timeouts := rfl
@[simp] theorem fbStore_samplesZero (j : Nat) (b : Byte) (s : State) : (fbStore j b s).samplesZero = s.samplesZero := rfl
@[simp] theorem fbStore_lastError (j : Nat) (b : Byte) (s : State) : (fbStore j b s).lastError = s.lastError := rfl
@[simp] theorem fbStore_metaValid (j : Nat) (b : Byte) (s : State) : (fbStore j b s).metaValid = s.metaValid := rfl
@[simp] theorem fbStore_metaVerlen (j : Nat) (b : Byte) (s : State) : (fbStore j b s).metaVerlen = s.metaVerlen := rfl
@[simp] theorem fbStore_metaSpeed (j : Nat) (b : Byte) (s : State) : (fbStore j b s).metaSpeed = s.metaSpeed := rfl
@[simp] theorem fbStore_metaStart (j : Nat) (b : Byte) (s : State) : (fbStore j b s).metaStart = s.metaStart := rfl
@[simp] theorem fbStore_metaEnd (j : Nat) (b : Byte) (s : State) : (fbStore j b s).metaEnd = s.metaEnd := rfl
@[simp] theorem fbStore_metaTimestamp (j : Nat) (b : Byte) (s : State) : (fbStore j b s).metaTimestamp = s.metaTimestamp := rfl
@[simp] theorem fbStore_metaCrc (j : Nat) (b : Byte) (s : State) : (fbStore j b s).metaCrc = s.metaCrc := rfl
@[simp] theorem fbStore_ports (j : Nat) (b : Byte) (s : State) : (fbStore j b s).ports = s.ports := rfl
@[simp] theorem fbStore_srcQ (j : Nat) (b : Byte) (s : State) : (fbStore j b s).srcQ = s.srcQ := rfl
@[simp] theorem fbStore_sched (j : Nat) (b : Byte) (s : State) : (fbStore j b s).sched = s.sched := rfl
@[simp] theorem fbStore_epoch (j : Nat) (b : Byte) (s : State) : (fbStore j b s).epoch = s.epoch := rfl

/-! ### onPort -/

@[simp] theorem onPort_params (p : Nat) (f : Port → Port) (s : State) : (onPort p f s).params = s.params := rfl
@[simp] theorem onPort_wstate (p : Nat) (f : Port → Port) (s : State) : (onPort p f s).wstate = s.wstate := rfl
@[simp] theorem onPort_nb (p : Nat) (f : Port → Port) (s : State) : (onPort p f s).nb = s.nb := rfl
@[simp] theorem onPort_slot (p : Nat) (f : Port → Port) (s : State) : (onPort p f s).slot = s.slot := rfl
@[simp] theorem onPort_fb (p : Nat) (f : Port → Port) (s : State) : (onPort p f s).fb = s.fb := rfl
@[simp] theorem onPort_ram (p : Nat) (f : Port → Port) (s : State) : (onPort p f s).ram = s.ram := rfl
@[simp] theorem onPort_head (p : Nat) (f : Port → Port) (s : State) : (onPort p f s).head = s.head := rfl
@[simp] theorem onPort_count (p : Nat) (f : Port → Port) (s : State) : (onPort p f s).count = s.count := rfl
@[simp] theorem onPort_pushes (p : Nat) (f : Port → Port) (s : State) : (onPort p f s).pushes = s.pushes := rfl
@[simp] theorem onPort_framesOk (p : Nat) (f : Port → Port) (s : State) : (onPort p f s).framesOk = s.framesOk := rfl
@[simp] theorem onPort_framesCrcBad (p : Nat) (f : Port → Port) (s : State) : (onPort p f s).framesCrcBad = s.framesCrcBad := rfl
@[simp] theorem onPort_framesPartial (p : Nat) (f : Port → Port) (s : State) : (onPort p f s).framesPartial = s.framesPartial := rfl
@[simp] theorem onPort_bytesDiscarded (p : Nat) (f : Port → Port) (s : State) : (onPort p f s).bytesDiscarded = s.bytesDiscarded := rfl
@[simp] theorem onPort_timeouts (p : Nat) (f : Port → Port) (s : State) : (onPort p f s).timeouts = s.timeouts := rfl
@[simp] theorem onPort_samplesZero (p : Nat) (f : Port → Port) (s : State) : (onPort p f s).samplesZero = s.samplesZero := rfl
@[simp] theorem onPort_lastError (p : Nat) (f : Port → Port) (s : State) : (onPort p f s).lastError = s.lastError := rfl
@[simp] theorem onPort_metaValid (p : Nat) (f : Port → Port) (s : State) : (onPort p f s).metaValid = s.metaValid := rfl
@[simp] theorem onPort_metaVerlen (p : Nat) (f : Port → Port) (s : State) : (onPort p f s).metaVerlen = s.metaVerlen := rfl
@[simp] theorem onPort_metaSpeed (p : Nat) (f : Port → Port) (s : State) : (onPort p f s).metaSpeed = s.metaSpeed := rfl
@[simp] theorem onPort_metaStart (p : Nat) (f : Port → Port) (s : State) : (onPort p f s).metaStart = s.metaStart := rfl
@[simp] theorem onPort_metaEnd (p : Nat) (f : Port → Port) (s : State) : (onPort p f s).metaEnd = s.metaEnd := rfl
@[simp] theorem onPort_metaTimestamp (p : Nat) (f : Port → Port) (s : State) : (onPort p f s).metaTimestamp = s.metaTimestamp := rfl
@[simp] theorem onPort_metaCrc (p : Nat) (f : Port → Port) (s : State) : (onPort p f s).metaCrc = s.metaCrc := rfl
@[simp] theorem onPort_ports (p : Nat) (f : Port → Port) (s : State) : (onPort p f s).ports = s.ports.modify p f := rfl
@[simp] theorem onPort_srcQ (p : Nat) (f : Port → Port) (s : State) : (onPort p f s).srcQ = s.srcQ := rfl
@[simp] theorem onPort_sched (p : Nat) (f : Port → Port) (s : State) : (onPort p f s).sched = s.sched := rfl
@[simp] theorem onPort_epoch (p : Nat) (f : Port → Port) (s : State) : (onPort p f s).epoch = s.epoch := rfl

/-! ### afterTurn -/

@[simp] theorem afterTurn_params (s : State) : (afterTurn s).params = s.params := rfl
@[simp] theorem afterTurn_wstate (s : State) : (afterTurn s).wstate = s.wstate := rfl
@[simp] theorem afterTurn_nb (s : State) : (afterTurn s).nb = s.nb := rfl
@[simp] theorem afterTurn_slot (s : State) : (afterTurn s).slot = s.slot := rfl
@[simp] theorem afterTurn_fb (s : State) : (afterTurn s).fb = s.fb := rfl
@[simp] theorem afterTurn_ram (s : State) : (afterTurn s).ram = s.ram := rfl
@[simp] theorem afterTurn_head (s : State) : (afterTurn s).head = s.head := rfl
@[simp] theorem afterTurn_count (s : State) : (afterTurn s).count = s.count := rfl
@[simp] theorem afterTurn_pushes (s : State) : (afterTurn s).pushes = s.pushes := rfl
@[simp] theorem afterTurn_framesOk (s : State) : (afterTurn s).framesOk = s.framesOk := rfl
@[simp] theorem afterTurn_framesCrcBad (s : State) : (afterTurn s).framesCrcBad = s.framesCrcBad := rfl
@[simp] theorem afterTurn_framesPartial (s : State) : (afterTurn s).framesPartial = s.framesPartial := rfl
@[simp] theorem afterTurn_bytesDiscarded (s : State) : (afterTurn s).bytesDiscarded = s.bytesDiscarded := rfl
@[simp] theorem afterTurn_timeouts (s : State) : (afterTurn s).timeouts = s.timeouts := rfl
@[simp] theorem afterTurn_samplesZero (s : State) : (afterTurn s).samplesZero = s.samplesZero := rfl
@[simp] theorem afterTurn_lastError (s : State) : (afterTurn s).lastError = s.lastError := rfl
@[simp] theorem afterTurn_metaValid (s : State) : (afterTurn s).metaValid = s.metaValid := rfl
@[simp] theorem afterTurn_metaVerlen (s : State) : (afterTurn s).metaVerlen = s.metaVerlen := rfl
@[simp] theorem afterTurn_metaSpeed (s : State) : (afterTurn s).metaSpeed = s.metaSpeed := rfl
@[simp] theorem afterTurn_metaStart (s : State) : (afterTurn s).metaStart = s.metaStart := rfl
@[simp] theorem afterTurn_metaEnd (s : State) : (afterTurn s).metaEnd = s.metaEnd := rfl
@[simp] theorem afterTurn_metaTimestamp (s : State) : (afterTurn s).metaTimestamp = s.metaTimestamp := rfl
@[simp] theorem afterTurn_metaCrc (s : State) : (afterTurn s).metaCrc = s.metaCrc := rfl
@[simp] theorem afterTurn_ports (s : State) : (afterTurn s).ports = s.ports := rfl
@[simp] theorem afterTurn_srcQ (s : State) : (afterTurn s).srcQ = s.srcQ := rfl
@[simp] theorem afterTurn_sched (s : State) : (afterTurn s).sched = s.sched.tail := rfl
@[simp] theorem afterTurn_epoch (s : State) : (afterTurn s).epoch = s.epoch := rfl

/-! ### Registers whose width the build fixes -/

@[simp] theorem Reg.ofNat_width (w n : Nat) : (Reg.ofNat w n).width = w := rfl

@[simp] theorem Reg.ofNat_toNat (w n : Nat) : (Reg.ofNat w n).toNat = n % 2 ^ w := by
  simp [Reg.ofNat, Reg.toNat]

theorem Reg.toNat_lt (r : Reg) : r.toNat < 2 ^ r.width := r.val.isLt

/-- Two registers are equal where their widths and their numbers are. -/
theorem Reg.ext_toNat {r q : Reg} (hw : r.width = q.width) (hn : r.toNat = q.toNat) : r = q := by
  obtain ⟨w, x⟩ := r
  obtain ⟨v, y⟩ := q
  obtain rfl : w = v := hw
  simp only [Reg.toNat] at hn
  rw [BitVec.eq_of_toNat_eq hn]

/-- The width is the spec's: ceil(log2 C), at least 1 (R18). -/
theorem headBits_eq (p : Params) : p.headBits = max 1 (Nat.clog 2 p.capacity) := by
  unfold Params.headBits
  by_cases h0 : p.capacity - 1 = 0
  · have hc : Nat.clog 2 p.capacity ≤ 0 := (Nat.clog_le_iff_le_pow (by decide)).2 (by omega)
    rw [h0, Nat.le_zero.1 hc]
    decide
  · have h : ∀ y, Nat.log2 (p.capacity - 1) + 1 ≤ y ↔ Nat.clog 2 p.capacity ≤ y := fun y => by
      rw [Nat.clog_le_iff_le_pow (by decide), Nat.succ_le_iff, Nat.log2_lt h0]
      have := Nat.two_pow_pos y
      omega
    have h1 := Nat.le_antisymm ((h _).2 (Nat.le_refl _)) ((h _).1 (Nat.le_refl _))
    omega

/-- An index below C fits HEAD. -/
theorem capacity_le_headBits (p : Params) : p.capacity ≤ 2 ^ p.headBits := by
  have := Nat.lt_log2_self (n := p.capacity - 1)
  unfold Params.headBits
  omega

theorem headBits_le (p : Params) (h : p.capacity ≤ 2 ^ 24) : p.headBits ≤ 24 := by
  unfold Params.headBits
  by_cases h0 : p.capacity - 1 = 0
  · rw [h0]; decide
  · have := (Nat.log2_lt h0).2 (show p.capacity - 1 < 2 ^ 24 by omega)
    omega

/-! ### The reset state -/

@[simp] theorem resetWith_params (p : Params) : (State.resetWith p).params = p := rfl
@[simp] theorem resetWith_wstate (p : Params) : (State.resetWith p).wstate = .hunt := rfl
@[simp] theorem resetWith_nb (p : Params) : (State.resetWith p).nb = 0 := rfl
@[simp] theorem resetWith_slot (p : Params) : (State.resetWith p).slot = 0 := rfl
@[simp] theorem resetWith_fb (p : Params) : (State.resetWith p).fb = [] := rfl
@[simp] theorem resetWith_ram (p : Params) : (State.resetWith p).ram = [] := rfl
@[simp] theorem resetWith_head (p : Params) : (State.resetWith p).head = Reg.ofNat p.headBits 0 := rfl
@[simp] theorem resetWith_count (p : Params) : (State.resetWith p).count = 0 := rfl
@[simp] theorem resetWith_pushes (p : Params) : (State.resetWith p).pushes = 0 := rfl
@[simp] theorem resetWith_framesOk (p : Params) : (State.resetWith p).framesOk = 0 := rfl
@[simp] theorem resetWith_framesCrcBad (p : Params) : (State.resetWith p).framesCrcBad = 0 := rfl
@[simp] theorem resetWith_framesPartial (p : Params) : (State.resetWith p).framesPartial = 0 := rfl
@[simp] theorem resetWith_bytesDiscarded (p : Params) : (State.resetWith p).bytesDiscarded = 0 := rfl
@[simp] theorem resetWith_timeouts (p : Params) : (State.resetWith p).timeouts = 0 := rfl
@[simp] theorem resetWith_samplesZero (p : Params) : (State.resetWith p).samplesZero = 0 := rfl
@[simp] theorem resetWith_lastError (p : Params) : (State.resetWith p).lastError = .none := rfl
@[simp] theorem resetWith_metaValid (p : Params) : (State.resetWith p).metaValid = 0 := rfl
@[simp] theorem resetWith_metaVerlen (p : Params) : (State.resetWith p).metaVerlen = 0 := rfl
@[simp] theorem resetWith_metaSpeed (p : Params) : (State.resetWith p).metaSpeed = 0 := rfl
@[simp] theorem resetWith_metaStart (p : Params) : (State.resetWith p).metaStart = 0 := rfl
@[simp] theorem resetWith_metaEnd (p : Params) : (State.resetWith p).metaEnd = 0 := rfl
@[simp] theorem resetWith_metaTimestamp (p : Params) : (State.resetWith p).metaTimestamp = 0 := rfl
@[simp] theorem resetWith_metaCrc (p : Params) : (State.resetWith p).metaCrc = 0 := rfl
@[simp] theorem resetWith_ports (p : Params) : (State.resetWith p).ports = List.replicate p.ports (Port.reset p) := rfl
@[simp] theorem resetWith_srcQ (p : Params) : (State.resetWith p).srcQ = [] := rfl
@[simp] theorem resetWith_sched (p : Params) : (State.resetWith p).sched = [] := rfl
@[simp] theorem resetWith_epoch (p : Params) : (State.resetWith p).epoch = 0 := rfl

end Sys2Proof.Machine
end

