-- ==== Sys2Proof/Laws/Memory.lean ====
section
/-! SUPPORT. The laws of sparse memory: a read after a write, and that a write keeps the canonical form; then the same
for the frame buffer and the ring memory. -/

namespace Sys2Proof.Machine

theorem Memory.read_write_same {α : Type} (m : List (Nat × α)) (a : Nat) (v : α) :
    Memory.read (Memory.write m a v) a = some v := by
  induction m with
  | nil => simp [Memory.write, Memory.read]
  | cons c m ih =>
    obtain ⟨b, w⟩ := c
    unfold Memory.write
    split
    · simp [Memory.read]
    · split
      · simp [Memory.read]
      · simp_all [Memory.read]

theorem Memory.read_write_other {α : Type} (m : List (Nat × α)) {a b : Nat} (v : α) (h : b ≠ a) :
    Memory.read (Memory.write m a v) b = Memory.read m b := by
  induction m with
  | nil => simp [Memory.write, Memory.read, h]
  | cons c m ih =>
    obtain ⟨x, w⟩ := c
    unfold Memory.write
    split
    · simp [Memory.read, h]
    · split
      · subst_vars
        simp [Memory.read, h]
      · simp [Memory.read, ih]

theorem Memory.read_write {α : Type} (m : List (Nat × α)) (a b : Nat) (v : α) :
    Memory.read (Memory.write m a v) b = if b = a then some v else Memory.read m b := by
  split
  · subst_vars
    exact Memory.read_write_same m _ v
  · exact Memory.read_write_other m v ‹_›

theorem Memory.mem_write {α : Type} {m : List (Nat × α)} {a : Nat} {v : α} {c : Nat × α}
    (h : c ∈ Memory.write m a v) : c = (a, v) ∨ c ∈ m := by
  induction m with
  | nil => simpa [Memory.write] using h
  | cons d m ih =>
    obtain ⟨x, w⟩ := d
    unfold Memory.write at h
    split at h
    · simpa using h
    · split at h
      · simp only [List.mem_cons] at h ⊢
        tauto
      · simp only [List.mem_cons] at h ⊢
        tauto

/-- A write inside the size keeps the canonical form. -/
theorem Memory.write_wf {α : Type} {size a : Nat} {m : List (Nat × α)} (v : α) (ha : a < size)
    (h : Memory.wf size m) : Memory.wf size (Memory.write m a v) := by
  refine ⟨?_, fun c hc => ?_⟩
  · induction m with
    | nil => simp [Memory.write]
    | cons d m ih =>
      obtain ⟨x, w⟩ := d
      obtain ⟨hp, hs⟩ := h
      rw [List.pairwise_cons] at hp
      unfold Memory.write
      split
      · rename_i hlt
        refine List.pairwise_cons.2 ⟨fun c hc => ?_, List.pairwise_cons.2 hp⟩
        rcases List.mem_cons.1 hc with rfl | hc
        · exact hlt
        · exact Nat.lt_trans hlt (hp.1 c hc)
      · split
        · subst_vars
          exact List.pairwise_cons.2 hp
        · refine List.pairwise_cons.2 ⟨fun c hc => ?_, ih ⟨hp.2, fun c hc => hs c (List.mem_cons_of_mem _ hc)⟩⟩
          rcases Memory.mem_write hc with rfl | hc
          · simp only
            omega
          · exact hp.1 c hc
  · rcases Memory.mem_write hc with rfl | hc
    · exact ha
    · exact h.2 c hc

@[simp] theorem Memory.wf_nil {α : Type} (size : Nat) : Memory.wf size ([] : List (Nat × α)) := by
  simp [Memory.wf]

/-! ## Frame buffer and ring memory -/

theorem fbRead_fbStore (s : State) (j k : Nat) (b : Byte) :
    fbRead (fbStore j b s) k = if k = j then b else fbRead s k := by
  unfold fbRead
  rw [fbStore_fb, Memory.read_write, fbStore_epoch]
  split <;> rfl

/-- The frame buffer's bytes depend on the buffer and the epoch only. -/
theorem fbRead_congr {s t : State} (hf : t.fb = s.fb) (he : t.epoch = s.epoch) : fbRead t = fbRead s := by
  funext j
  simp [fbRead, hf, he]

theorem fbRead_goto (w : WState) (n : BitVec 6) (s : State) : fbRead (goto w n s) = fbRead s := rfl

/-- A ring entry depends on the ring memory only. -/
theorem ramRead_congr {s t : State} (h : t.ram = s.ram) : ramRead t = ramRead s := by
  funext j
  simp [ramRead, h]

/-- What `MemWrite` does: inside the ring it replaces one entry; outside it stops. -/
theorem memWrite_cases {idx : Nat} {v : PointWord} {s t : State} (h : memWrite idx v s = .ok t) :
    idx < s.params.capacity ∧ t = { s with ram := Memory.write s.ram idx v } := by
  unfold memWrite at h
  split at h
  · exact ⟨‹_›, by cases h; rfl⟩
  · cases h

theorem ramRead_write (s : State) (idx k : Nat) (v : PointWord) :
    ramRead { s with ram := Memory.write s.ram idx v } k = if k = idx then v else ramRead s k := by
  unfold ramRead
  simp only [Memory.read_write]
  split <;> rfl

end Sys2Proof.Machine
end

