-- ==== Sys2Proof/Laws/Ports.lean ====
section
/-! SUPPORT. What the port operations do to each port. -/

namespace Sys2Proof.Machine

theorem onPort_ports_getElem? (p n : Nat) (f : Port → Port) (s : State) :
    (onPort p f s).ports[n]? = (fun q => if p = n then f q else q) <$> s.ports[n]? := by
  simp [onPort, List.getElem?_modify]

theorem onPort_ports_same {p : Nat} {f : Port → Port} {s : State} {q : Port} (h : s.ports[p]? = some q) :
    (onPort p f s).ports[p]? = some (f q) := by
  simp [onPort, h]

theorem onPort_ports_other {p n : Nat} (f : Port → Port) (s : State) (h : n ≠ p) :
    (onPort p f s).ports[n]? = s.ports[n]? := by
  have h' : ¬ p = n := fun e => h e.symm
  simp [onPort, h']

@[simp] theorem onPort_ports_length (p : Nat) (f : Port → Port) (s : State) :
    (onPort p f s).ports.length = s.ports.length := by
  simp [onPort]

/-- The only field a port operation can change is `ports`. -/
theorem onPort_frame (p : Nat) (f : Port → Port) (s : State) :
    onPort p f s = { s with ports := (onPort p f s).ports } := rfl

/-- The only field a response can change is `ports`. -/
theorem respond_frame (p : Nat) (r : Rsp) (s : State) :
    respond p r s = { s with ports := (respond p r s).ports } := rfl

theorem respond_ports_same {p : Nat} {s : State} {q : Port} (r : Rsp) (h : s.ports[p]? = some q) :
    (respond p r s).ports[p]? = some { q with rsp := some r } :=
  onPort_ports_same h

theorem respond_ports_other {p n : Nat} (r : Rsp) (s : State) (h : n ≠ p) :
    (respond p r s).ports[n]? = s.ports[n]? :=
  onPort_ports_other _ s h

theorem portAt_of_getElem? {s : State} {p : Nat} {q : Port} (h : s.ports[p]? = some q) : portAt s p = q := by
  simp [portAt, List.getD, h]

/-- A port changed by `f` is `f` of the port, where the build has it. -/
theorem portAt_onPort {s : State} {p : Nat} (f : Port → Port) (h : p < s.ports.length) :
    portAt (onPort p f s) p = f (portAt s p) := by
  have hq := List.getElem?_eq_getElem h
  rw [portAt_of_getElem? hq, portAt_of_getElem? (onPort_ports_same hq)]

/-- A port operation depends on what it makes of the port it changes, and on nothing else. -/
theorem onPort_congr {p : Nat} {f g : Port → Port} {s : State} (h : f (portAt s p) = g (portAt s p)) :
    onPort p f s = onPort p g s := by
  have : s.ports.modify p f = s.ports.modify p g := by
    apply List.ext_getElem?
    intro n
    simp only [List.getElem?_modify]
    by_cases hn : p = n
    · subst hn
      cases hq : s.ports[p]? with
      | none => rfl
      | some q => simpa [portAt_of_getElem? hq] using h
    · simp [hn]
  simp [onPort, this]

/-- A later change of a port whose fields the earlier one does not read composes with it. -/
theorem onPort_onPort (p : Nat) (f g : Port → Port) (s : State) :
    onPort p g (onPort p f s) = onPort p (g ∘ f) s := by
  have : (s.ports.modify p f).modify p g = s.ports.modify p (g ∘ f) := by
    apply List.ext_getElem?
    intro n
    simp only [List.getElem?_modify]
    cases s.ports[n]? <;> by_cases h : p = n <;> simp [h]
  simp [onPort, this]

end Sys2Proof.Machine
end

