-- ==== Sys2Proof/Laws/Bits.lean ====
section
/-! SUPPORT. Concatenation and bit fields undo each other, in general and for the fields of the port words and of the
16-bit wire fields. -/

namespace Sys2Proof.Bits

theorem high_append {m n : Nat} (x : BitVec m) (y : BitVec n) : (x ++ y).extractLsb' n m = x := by
  ext i hi
  simp [BitVec.getLsbD_append, hi]

theorem low_append {m n : Nat} (x : BitVec m) (y : BitVec n) : (x ++ y).extractLsb' 0 n = y := by
  ext i hi
  simp [BitVec.getLsbD_append, hi]

theorem append_fields {m n : Nat} (w : BitVec (m + n)) : w.extractLsb' n m ++ w.extractLsb' 0 n = w := by
  ext i hi
  simp only [BitVec.getElem_append, BitVec.getElem_extractLsb', Nat.zero_add]
  split
  · exact BitVec.getLsbD_eq_getElem hi
  · rw [show n + (i - n) = i by omega]
    exact BitVec.getLsbD_eq_getElem hi

/-- A concatenation as a number. -/
theorem append_toNat {m n : Nat} (x : BitVec m) (y : BitVec n) : (x ++ y).toNat = 2 ^ n * x.toNat + y.toNat := by
  rw [BitVec.toNat_append, Nat.shiftLeft_eq, Nat.mul_comm, Nat.two_pow_add_eq_or_of_lt y.isLt]

/-- A field of a field. -/
theorem field_field {w : Nat} (x : BitVec w) (a b c d : Nat) (h : c + d ≤ b) :
    (x.extractLsb' a b).extractLsb' c d = x.extractLsb' (a + c) d := by
  ext i hi
  simp [show c + i < b by omega, Nat.add_assoc]

end Sys2Proof.Bits

namespace Sys2Proof

open Bits

theorem srcKind_append (k : BitVec 2) (b : Byte) : srcKind (k ++ b) = k := high_append k b

theorem srcData_append (k : BitVec 2) (b : Byte) : srcData (k ++ b) = b := low_append k b

theorem srcWord_fields (w : SrcWord) : srcKind w ++ srcData w = w := append_fields (m := 2) (n := 8) w

theorem le16_bytes (h : Half) : le16 (loByte h) (hiByte h) = h := append_fields (m := 8) (n := 8) h

theorem loByte_le16 (a b : Byte) : loByte (le16 a b) = a := low_append b a

theorem hiByte_le16 (a b : Byte) : hiByte (le16 a b) = b := high_append b a

/-- `LE16` as arithmetic (R8). -/
theorem le16_toNat (lo hi : Byte) : (le16 lo hi).toNat = lo.toNat + 256 * hi.toNat := by
  have h : (le16 lo hi).toNat = 2 ^ 8 * hi.toNat + lo.toNat := append_toNat hi lo
  omega

/-! ## Command words -/

theorem cmdOp_append (op : BitVec 4) (x : BitVec 28) : cmdOp (op ++ x) = op := high_append op x

theorem cmdLow_append (op : BitVec 4) (x : BitVec 28) : (op ++ x : CmdWord).extractLsb' 0 28 = x := low_append op x

theorem cmdWord_fields (w : CmdWord) : cmdOp w ++ w.extractLsb' 0 28 = w := append_fields (m := 4) (n := 28) w

end Sys2Proof
end

