-- ==== Sys2Proof/Laws/Frames.lean ====
section
/-! SUPPORT. A frame and its 47 bytes determine each other (30_encoding.md R50-R52). -/

namespace Sys2Proof

@[simp] theorem Frame.bytes_length (m : Byte) (f : Frame) : (f.bytes m).length = 47 := by
  simp [Frame.bytes, frameLen]

theorem Frame.bytes_getElem? (m : Byte) (f : Frame) {j : Nat} (h : j < 47) :
    (f.bytes m)[j]? = some (f.byteAt m j) := by
  simp [Frame.bytes, frameLen, List.getElem?_range h]

theorem byteFn_bytes (m : Byte) (f : Frame) {j : Nat} (h : j < 47) : byteFn (f.bytes m) j = f.byteAt m j := by
  simp [byteFn, List.getD, Frame.bytes_getElem? m f h]

theorem Frame.slot_eq (f : Frame) {i : Nat} (h : i < 12) : f.slot i = f.slots[i] := by
  simp [Frame.slot, List.getD, h]

/-! ## The bytes of each field -/

theorem Frame.byteAt_distLow (m : Byte) (f : Frame) {i : Nat} (h : i < 12) :
    f.byteAt m (6 + 3 * i) = loByte (f.slot i).dist := by
  have h1 : (6 + 3 * i - 6) % 3 = 0 := by omega
  have h2 : (6 + 3 * i - 6) / 3 = i := by omega
  unfold Frame.byteAt
  rw [if_neg (by omega), if_neg (by omega), if_neg (by omega), if_neg (by omega), if_neg (by omega),
    if_neg (by omega), if_pos (by omega), if_pos h1, h2]

theorem Frame.byteAt_distHigh (m : Byte) (f : Frame) {i : Nat} (h : i < 12) :
    f.byteAt m (7 + 3 * i) = hiByte (f.slot i).dist := by
  have h1 : (7 + 3 * i - 6) % 3 = 1 := by omega
  have h2 : (7 + 3 * i - 6) / 3 = i := by omega
  unfold Frame.byteAt
  rw [if_neg (by omega), if_neg (by omega), if_neg (by omega), if_neg (by omega), if_neg (by omega),
    if_neg (by omega), if_pos (by omega), if_neg (by omega), if_pos h1, h2]

theorem Frame.byteAt_intensity (m : Byte) (f : Frame) {i : Nat} (h : i < 12) :
    f.byteAt m (8 + 3 * i) = (f.slot i).intensity := by
  have h2 : (8 + 3 * i - 6) / 3 = i := by omega
  unfold Frame.byteAt
  rw [if_neg (by omega), if_neg (by omega), if_neg (by omega), if_neg (by omega), if_neg (by omega),
    if_neg (by omega), if_pos (by omega), if_neg (by omega), if_neg (by omega), h2]

/-- The fields read at their offsets from any bytes that agree with the frame's on 0..46 are the frame's. -/
theorem frameOf_eq {m : Byte} {f : Frame} {b : Nat → Byte} (h : ∀ j < 47, b j = f.byteAt m j) : frameOf b = f := by
  have hslots : (Vector.ofFn fun i : Fin 12 => (⟨distOf b i.val, intensityOf b i.val⟩ : Slot)) = f.slots := by
    ext i hi
    simp [distOf, intensityOf, h (6 + 3 * i) (by omega), h (7 + 3 * i) (by omega), h (8 + 3 * i) (by omega),
      Frame.byteAt_distLow m f hi, Frame.byteAt_distHigh m f hi, Frame.byteAt_intensity m f hi, le16_bytes,
      Frame.slot_eq f hi]
  simp only [frameOf, hslots]
  simp [verlenOf, speedOf, startRawOf, endRawOf, tstampOf, crcByteOf, h, Frame.byteAt, le16_bytes]

theorem frameOf_bytes (m : Byte) (f : Frame) : frameOf (byteFn (f.bytes m)) = f :=
  frameOf_eq fun _ hj => byteFn_bytes m f hj

/-- The bytes of the frame read from `b` are `b`'s first 47, behind marker `b 0`. -/
theorem byteAt_frameOf (b : Nat → Byte) {j : Nat} (h : j < 47) : (frameOf b).byteAt (b 0) j = b j := by
  have hs : ∀ i, (hi : i < 12) → (frameOf b).slot i = ⟨distOf b i, intensityOf b i⟩ := fun i hi => by
    simp [Frame.slot_eq _ hi, frameOf]
  by_cases hm : 6 ≤ j ∧ j < 42
  · obtain ⟨i, k, hi, hk, rfl⟩ : ∃ i k, i < 12 ∧ k < 3 ∧ j = 6 + k + 3 * i :=
      ⟨(j - 6) / 3, (j - 6) % 3, by omega, by omega, by omega⟩
    obtain rfl | rfl | rfl : k = 0 ∨ k = 1 ∨ k = 2 := by omega
    · rw [Frame.byteAt_distLow _ _ hi, hs i hi]
      exact loByte_le16 _ _
    · rw [Frame.byteAt_distHigh _ _ hi, hs i hi]
      exact hiByte_le16 _ _
    · rw [Frame.byteAt_intensity _ _ hi, hs i hi]
      rfl
  · have : j = 0 ∨ j = 1 ∨ j = 2 ∨ j = 3 ∨ j = 4 ∨ j = 5 ∨ j = 42 ∨ j = 43 ∨ j = 44 ∨ j = 45 ∨ j = 46 := by omega
    rcases this with rfl | rfl | rfl | rfl | rfl | rfl | rfl | rfl | rfl | rfl | rfl <;>
      simp [Frame.byteAt, frameOf, verlenOf, speedOf, startRawOf, endRawOf, tstampOf, crcByteOf, loByte_le16,
        hiByte_le16]

theorem bytes_frameOf {m : Byte} {bs : List Byte} (hl : bs.length = 47) (hm : bs.getD 0 0#8 = m) :
    (frameOf (byteFn bs)).bytes m = bs := by
  apply List.ext_getElem? fun j => ?_
  by_cases hj : j < 47
  · rw [Frame.bytes_getElem? _ _ hj, ← hm, show bs.getD 0 0#8 = byteFn bs 0 from rfl, byteAt_frameOf _ hj]
    simp [byteFn, List.getD, List.getElem?_eq_getElem (hl ▸ hj : j < bs.length)]
  · rw [List.getElem?_eq_none (by simp; omega), List.getElem?_eq_none (by omega)]

end Sys2Proof
end

