-- ==== Sys2Proof/Laws/PerInstr.lean ====
section
/-! SUPPORT. The family `DecodesBack`: for each constructor of `Instr`, its word decodes to it in every context its row
is enabled in. -/

namespace Sys2Proof.Laws

open Bits

/-- The instruction's word decodes to it wherever the opcode table's state column allows it. -/
def DecodesBack.Statement (i : Instr) : Prop :=
  ∀ (p : Params) (ws : WState) (nb : BitVec 6), i.wf p = true → i.enabledIn ws nb = true →
    decode ⟨p, ws, nb⟩ (encode p i) = .ok i

/-! ## Fields of the three-part command words -/

theorem cmdOp_append3 (op : BitVec 4) {m n : Nat} (x : BitVec m) (y : BitVec n) (h : m + n = 28) :
    (op ++ x ++ y).extractLsb' 28 4 = op := by
  have h1 := field_field (op ++ x ++ y) n (4 + m) m 4 (by omega)
  rw [high_append, high_append, show n + m = 28 by omega] at h1
  exact h1.symm

theorem cmdMid_append3 {l m n : Nat} (op : BitVec l) (x : BitVec m) (y : BitVec n) :
    (op ++ x ++ y).extractLsb' n m = x := by
  have h1 := field_field (op ++ x ++ y) n (l + m) 0 m (by omega)
  rw [high_append, low_append] at h1
  exact h1.symm

theorem cmdTop_append3 {l m n : Nat} (op : BitVec l) (x : BitVec m) (y : BitVec n) :
    (op ++ x ++ y).extractLsb' (n + m) l = op := by
  have h1 := field_field (op ++ x ++ y) n (l + m) m l (by omega)
  rw [high_append, high_append] at h1
  exact h1.symm

/-- The top bit of a command word is the top bit of its OP. -/
theorem cmdTopBit (w : CmdWord) : w.extractLsb' 31 1 = (cmdOp w).extractLsb' 3 1 :=
  (field_field w 28 4 3 1 (by omega)).symm

theorem rsvd47_op (a : BitVec 2) (g : BitVec 28) : cmdOp (1#2 ++ a ++ g) = (1#2 ++ a : BitVec 4) :=
  high_append (1#2 ++ a) g

theorem rsvd8F_op (a : BitVec 3) (g : BitVec 28) : cmdOp (1#1 ++ a ++ g) = (1#1 ++ a : BitVec 4) :=
  high_append (1#1 ++ a) g

/-! ## Source events -/

theorem DecodesBack.huntMarker : Statement .huntMarker := by
  intro p ws nb _ he
  obtain rfl : ws = .hunt := by simpa [Instr.enabledIn] using he
  simp [encode, decode, decodeSrc, decodeHunt, srcKind_append, srcData_append]

theorem DecodesBack.huntSkip (b : Byte) : Statement (.huntSkip b) := by
  intro p ws nb hw he
  obtain rfl : ws = .hunt := by simpa [Instr.enabledIn] using he
  have hb : b ≠ p.marker := by simpa [Instr.wf] using hw
  simp [encode, decode, decodeSrc, decodeHunt, srcKind_append, srcData_append, hb]

theorem DecodesBack.huntTimeout (g : Byte) : Statement (.huntTimeout g) := by
  intro p ws nb _ he
  obtain rfl : ws = .hunt := by simpa [Instr.enabledIn] using he
  simp [encode, decode, decodeSrc, decodeHunt, srcKind_append, srcData_append]

theorem DecodesBack.collectByte (b : Byte) : Statement (.collectByte b) := by
  intro p ws nb _ he
  obtain ⟨rfl, hn⟩ : ws = .collect ∧ nb.toNat < 46 := by simpa [Instr.enabledIn] using he
  simp [encode, decode, decodeSrc, decodeCollect, srcKind_append, srcData_append, hn]

theorem DecodesBack.collectLast (b : Byte) : Statement (.collectLast b) := by
  intro p ws nb _ he
  obtain ⟨rfl, hn⟩ : ws = .collect ∧ nb.toNat = 46 := by simpa [Instr.enabledIn] using he
  simp [encode, decode, decodeSrc, decodeCollect, srcKind_append, srcData_append, hn]

theorem DecodesBack.collectTimeout (g : Byte) : Statement (.collectTimeout g) := by
  intro p ws nb _ he
  obtain rfl : ws = .collect := by simpa [Instr.enabledIn] using he
  simp [encode, decode, decodeSrc, decodeCollect, srcKind_append, srcData_append]

theorem DecodesBack.closed (g : Byte) : Statement (.closed g) := by
  intro p ws nb _ he
  obtain rfl | rfl : ws = .hunt ∨ ws = .collect := by simpa [Instr.enabledIn] using he
  all_goals
    simp [encode, decode, decodeSrc, decodeHunt, decodeCollect, srcKind_append, srcData_append]

theorem DecodesBack.srcRsvd (g : Byte) : Statement (.srcRsvd g) := by
  intro p ws nb _ he
  obtain rfl | rfl : ws = .hunt ∨ ws = .collect := by simpa [Instr.enabledIn] using he
  all_goals
    simp [encode, decode, decodeSrc, decodeHunt, decodeCollect, srcKind_append, srcData_append]

theorem DecodesBack.srcNotAccepted (w : SrcWord) : Statement (.srcNotAccepted w) := by
  intro p ws nb _ he
  obtain rfl | rfl | rfl : ws = .decode ∨ ws = .push ∨ ws = .closed := by simpa [Instr.enabledIn] using he
  all_goals rfl

theorem DecodesBack.wireFrame (f : Frame) : Statement (.wireFrame f) := by
  intro p ws nb _ _
  have h0 : (f.bytes p.marker).getD 0 0#8 = p.marker := byteFn_bytes p.marker f (j := 0) (by omega)
  simp only [encode, decode, decodeFrame, Frame.bytes_length, h0, frameOf_bytes]
  rfl

/-! ## Internal steps and RESET -/

theorem DecodesBack.decode : Statement .decode := by
  intro p ws nb _ he
  obtain rfl : ws = .decode := by simpa [Instr.enabledIn] using he
  rfl

theorem DecodesBack.push : Statement .push := by
  intro p ws nb _ he
  obtain rfl : ws = .push := by simpa [Instr.enabledIn] using he
  rfl

theorem DecodesBack.reset : Statement .reset := fun _ _ _ _ _ => rfl

/-! ## Consumer commands -/

theorem DecodesBack.snap (q : Nat) (g : BitVec 28) : Statement (.snap q g) := by
  intro p ws nb hw _
  have hq : q < p.ports := by simpa [Instr.wf] using hw
  simp [encode, Sys2Proof.decode, hq, decodeCmd, cmdOp_append, cmdLow_append]

theorem DecodesBack.read (q : Nat) (g : BitVec 4) (k : BitVec 24) : Statement (.read q g k) := by
  intro p ws nb hw _
  have hq : q < p.ports := by simpa [Instr.wf] using hw
  have h1 : cmdOp (2#4 ++ g ++ k) = 2#4 := cmdOp_append3 2#4 g k rfl
  have h2 : (2#4 ++ g ++ k : CmdWord).extractLsb' 24 4 = g := cmdMid_append3 2#4 g k
  have h3 : (2#4 ++ g ++ k : CmdWord).extractLsb' 0 24 = k := low_append (2#4 ++ g) k
  simp [encode, Sys2Proof.decode, hq, decodeCmd, h1, h2, h3]

theorem DecodesBack.stat (q : Nat) (g : BitVec 20) (sel : Byte) : Statement (.stat q g sel) := by
  intro p ws nb hw _
  have hq : q < p.ports := by simpa [Instr.wf] using hw
  have h1 : cmdOp (3#4 ++ g ++ sel) = 3#4 := cmdOp_append3 3#4 g sel rfl
  have h2 : (3#4 ++ g ++ sel : CmdWord).extractLsb' 8 20 = g := cmdMid_append3 3#4 g sel
  have h3 : (3#4 ++ g ++ sel : CmdWord).extractLsb' 0 8 = sel := low_append (3#4 ++ g) sel
  simp [encode, Sys2Proof.decode, hq, decodeCmd, h1, h2, h3]

theorem DecodesBack.cmdRsvd0 (q : Nat) (g : BitVec 28) : Statement (.cmdRsvd0 q g) := by
  intro p ws nb hw _
  have hq : q < p.ports := by simpa [Instr.wf] using hw
  simp [encode, Sys2Proof.decode, hq, decodeCmd, cmdOp_append, cmdLow_append]

theorem DecodesBack.cmdRsvd47 (q : Nat) (a : BitVec 2) (g : BitVec 28) : Statement (.cmdRsvd47 q a g) := by
  intro p ws nb hw _
  have hq : q < p.ports := by simpa [Instr.wf] using hw
  have hop : ∀ a : BitVec 2, (1#2 ++ a : BitVec 4) ≠ 1#4 ∧ (1#2 ++ a : BitVec 4) ≠ 2#4 ∧ (1#2 ++ a : BitVec 4) ≠ 3#4 ∧
      (1#2 ++ a : BitVec 4) ≠ 0#4 ∧ (1#2 ++ a : BitVec 4).extractLsb' 3 1 = 0#1 := by decide
  obtain ⟨n1, n2, n3, n0, nt⟩ := hop a
  have h2 : (1#2 ++ a ++ g : CmdWord).extractLsb' 28 2 = a := cmdMid_append3 1#2 a g
  have h3 : (1#2 ++ a ++ g : CmdWord).extractLsb' 0 28 = g := low_append (1#2 ++ a) g
  simp only [encode, Sys2Proof.decode, hq, decodeCmd, cmdTopBit, rsvd47_op, if_neg n1, if_neg n2, if_neg n3,
    if_neg n0, if_pos nt, h2, h3, if_true]

theorem DecodesBack.cmdRsvd8F (q : Nat) (a : BitVec 3) (g : BitVec 28) : Statement (.cmdRsvd8F q a g) := by
  intro p ws nb hw _
  have hq : q < p.ports := by simpa [Instr.wf] using hw
  have hop : ∀ a : BitVec 3, (1#1 ++ a : BitVec 4) ≠ 1#4 ∧ (1#1 ++ a : BitVec 4) ≠ 2#4 ∧ (1#1 ++ a : BitVec 4) ≠ 3#4 ∧
      (1#1 ++ a : BitVec 4) ≠ 0#4 ∧ (1#1 ++ a : BitVec 4).extractLsb' 3 1 ≠ 0#1 := by decide
  obtain ⟨n1, n2, n3, n0, nt⟩ := hop a
  have h2 : (1#1 ++ a ++ g : CmdWord).extractLsb' 28 3 = a := cmdMid_append3 1#1 a g
  have h3 : (1#1 ++ a ++ g : CmdWord).extractLsb' 0 28 = g := low_append (1#1 ++ a) g
  simp only [encode, Sys2Proof.decode, hq, decodeCmd, cmdTopBit, rsvd8F_op, if_neg n1, if_neg n2, if_neg n3,
    if_neg n0, if_neg nt, h2, h3, if_true]

end Sys2Proof.Laws
end

