-- ==== Sys2Proof/Laws/Ring.lean ====
section
/-! SUPPORT. What `ring_write` does (43_ringbuffer.md R97), and how the ring's content is indexed. -/

namespace Sys2Proof.Machine

/-- The state after a ring write inside the ring. -/
def afterRingWrite (pw : PointWord) (s : State) : State :=
  { s with
    ram := Memory.write s.ram s.head.toNat pw
    head := Reg.ofNat s.params.headBits ((s.head.toNat + 1) % s.params.capacity)
    count := BitVec.ofNat 25 (min (s.count.toNat + 1) s.params.capacity)
    pushes := s.pushes + 1
    ports := s.ports.map (bumpSince s.params.capacity) }

theorem ringWrite_ok {s : State} (pw : PointWord) (h : s.head.toNat < s.params.capacity) :
    ringWrite pw s = .ok (afterRingWrite pw s) := by
  simp [ringWrite, memWrite, h, afterRingWrite]

theorem ringWrite_error {s : State} (pw : PointWord) (h : s.params.capacity ≤ s.head.toNat) :
    ringWrite pw s = .error (.ramIndex s.head.toNat) := by
  simp [ringWrite, memWrite, Nat.not_lt.2 h]

/-- A ring write that completes was inside the ring. -/
theorem ringWrite_cases {s t : State} {pw : PointWord} (h : ringWrite pw s = .ok t) :
    s.head.toNat < s.params.capacity ∧ t = afterRingWrite pw s := by
  by_cases hh : s.head.toNat < s.params.capacity
  · rw [ringWrite_ok pw hh] at h
    exact ⟨hh, (Except.ok.inj h).symm⟩
  · rw [ringWrite_error pw (Nat.not_lt.1 hh)] at h
    cases h

/-! ## The counts after a ring write, as numbers -/

theorem afterRingWrite_head {s : State} (pw : PointWord) (h1 : 1 ≤ s.params.capacity) :
    (afterRingWrite pw s).head.toNat = (s.head.toNat + 1) % s.params.capacity := by
  simp only [afterRingWrite, Reg.ofNat_toNat]
  exact Nat.mod_eq_of_lt (Nat.lt_of_lt_of_le (Nat.mod_lt _ h1) (capacity_le_headBits _))

theorem afterRingWrite_count {s : State} (pw : PointWord) (h2 : s.params.capacity ≤ 2 ^ 24) :
    (afterRingWrite pw s).count.toNat = min (s.count.toNat + 1) s.params.capacity := by
  simp only [afterRingWrite, BitVec.toNat_ofNat]
  exact Nat.mod_eq_of_lt (by omega)

theorem bumpSince_since {c : Nat} (q : Port) (h2 : c ≤ 2 ^ 24) :
    (bumpSince c q).since.toNat = min (q.since.toNat + 1) c := by
  simp only [bumpSince, BitVec.toNat_ofNat]
  exact Nat.mod_eq_of_lt (by omega)

theorem ramRead_afterRingWrite (pw : PointWord) (s : State) (k : Nat) :
    ramRead (afterRingWrite pw s) k = if k = s.head.toNat then pw else ramRead s k :=
  ramRead_write s s.head.toNat k pw

/-! ## The slot after -/

/-- `nextSlot` moves the sequencer and nothing else. -/
theorem nextSlot_frame (s : State) :
    nextSlot s = { s with wstate := (nextSlot s).wstate, slot := (nextSlot s).slot, nb := (nextSlot s).nb } := by
  unfold nextSlot
  split <;> rfl

theorem nextSlot_last {s : State} (h : s.slot.toNat = 11) :
    (nextSlot s).wstate = .hunt ∧ (nextSlot s).slot = 0 ∧ (nextSlot s).nb = 0 := by
  simp [nextSlot, h]

theorem nextSlot_inner {s : State} (h : s.slot.toNat < 11) :
    (nextSlot s).wstate = s.wstate ∧ (nextSlot s).slot.toNat = s.slot.toNat + 1 ∧ (nextSlot s).nb = s.nb := by
  have h' : s.slot.toNat ≠ 11 := Nat.ne_of_lt h
  simp only [nextSlot, if_neg h']
  exact ⟨trivial, by bv_omega, trivial⟩

@[simp] theorem nextSlot_params (s : State) : (nextSlot s).params = s.params := by rw [nextSlot_frame]
@[simp] theorem nextSlot_fb (s : State) : (nextSlot s).fb = s.fb := by rw [nextSlot_frame]
@[simp] theorem nextSlot_ram (s : State) : (nextSlot s).ram = s.ram := by rw [nextSlot_frame]
@[simp] theorem nextSlot_head (s : State) : (nextSlot s).head = s.head := by rw [nextSlot_frame]
@[simp] theorem nextSlot_count (s : State) : (nextSlot s).count = s.count := by rw [nextSlot_frame]
@[simp] theorem nextSlot_pushes (s : State) : (nextSlot s).pushes = s.pushes := by rw [nextSlot_frame]
@[simp] theorem nextSlot_framesOk (s : State) : (nextSlot s).framesOk = s.framesOk := by rw [nextSlot_frame]
@[simp] theorem nextSlot_framesCrcBad (s : State) : (nextSlot s).framesCrcBad = s.framesCrcBad := by rw [nextSlot_frame]
@[simp] theorem nextSlot_framesPartial (s : State) : (nextSlot s).framesPartial = s.framesPartial := by rw [nextSlot_frame]
@[simp] theorem nextSlot_bytesDiscarded (s : State) : (nextSlot s).bytesDiscarded = s.bytesDiscarded := by rw [nextSlot_frame]
@[simp] theorem nextSlot_timeouts (s : State) : (nextSlot s).timeouts = s.timeouts := by rw [nextSlot_frame]
@[simp] theorem nextSlot_samplesZero (s : State) : (nextSlot s).samplesZero = s.samplesZero := by rw [nextSlot_frame]
@[simp] theorem nextSlot_lastError (s : State) : (nextSlot s).lastError = s.lastError := by rw [nextSlot_frame]
@[simp] theorem nextSlot_metaValid (s : State) : (nextSlot s).metaValid = s.metaValid := by rw [nextSlot_frame]
@[simp] theorem nextSlot_metaVerlen (s : State) : (nextSlot s).metaVerlen = s.metaVerlen := by rw [nextSlot_frame]
@[simp] theorem nextSlot_metaSpeed (s : State) : (nextSlot s).metaSpeed = s.metaSpeed := by rw [nextSlot_frame]
@[simp] theorem nextSlot_metaStart (s : State) : (nextSlot s).metaStart = s.metaStart := by rw [nextSlot_frame]
@[simp] theorem nextSlot_metaEnd (s : State) : (nextSlot s).metaEnd = s.metaEnd := by rw [nextSlot_frame]
@[simp] theorem nextSlot_metaTimestamp (s : State) : (nextSlot s).metaTimestamp = s.metaTimestamp := by rw [nextSlot_frame]
@[simp] theorem nextSlot_metaCrc (s : State) : (nextSlot s).metaCrc = s.metaCrc := by rw [nextSlot_frame]
@[simp] theorem nextSlot_ports (s : State) : (nextSlot s).ports = s.ports := by rw [nextSlot_frame]
@[simp] theorem nextSlot_srcQ (s : State) : (nextSlot s).srcQ = s.srcQ := by rw [nextSlot_frame]
@[simp] theorem nextSlot_sched (s : State) : (nextSlot s).sched = s.sched := by rw [nextSlot_frame]
@[simp] theorem nextSlot_epoch (s : State) : (nextSlot s).epoch = s.epoch := by rw [nextSlot_frame]

/-! ## Content -/

@[simp] theorem content_length (s : State) : (content s).length = s.count.toNat := by
  simp [content]

theorem content_getElem? {s : State} {j : Nat} (h : j < s.count.toNat) :
    (content s)[j]? = some (ramRead s
      ((s.head.toNat + s.params.capacity - s.count.toNat + j) % s.params.capacity)) := by
  simp [content, List.getElem?_range h]

/-- The content depends on the ring's own state only. -/
theorem content_congr {s t : State} (hp : t.params = s.params) (hr : t.ram = s.ram) (hh : t.head = s.head)
    (hc : t.count = s.count) : content t = content s := by
  simp [content, ramRead_congr hr, hp, hh, hc]

end Sys2Proof.Machine
end

