-- ==== Sys2Proof/Laws/Effects.lean ====
section
/-! SUPPORT. Everything an instruction that completes can do: one constructor of `Effect` for each case of each meaning.
`exec_effect` unfolds the meanings once; a later proof about what instructions do is a case split on `Effect`. -/

namespace Sys2Proof.Machine

/-- `Effect s i t`: instruction `i` takes state `s` to state `t`. -/
inductive Effect (s : State) : Instr → State → Prop
  /-- the row is not enabled, or it is the event that is not accepted -/
  | unchanged (i : Instr) : Effect s i s
  | huntMarker : s.wstate = .hunt → Effect s .huntMarker (goto .collect 1 (fbStore 0 s.params.marker s))
  | huntSkip (b : Byte) : s.wstate = .hunt →
      Effect s (.huntSkip b) { s with bytesDiscarded := s.bytesDiscarded + 1 }
  | huntTimeout (g : Byte) : s.wstate = .hunt → Effect s (.huntTimeout g) (timeoutInHunt s)
  | collectByte (b : Byte) : s.wstate = .collect → s.nb.toNat < 46 →
      Effect s (.collectByte b) (goto .collect (s.nb + 1) (fbStore s.nb.toNat b s))
  | collectLast (b : Byte) : s.wstate = .collect → s.nb.toNat = 46 →
      Effect s (.collectLast b) (goto .decode 47 (fbStore 46 b s))
  | collectTimeout (g : Byte) : s.wstate = .collect → Effect s (.collectTimeout g) (timeoutInCollect s)
  | closed (g : Byte) : (s.wstate = .hunt ∨ s.wstate = .collect) → Effect s (.closed g) (transportClosed s)
  | rsvdInHunt (g : Byte) : s.wstate = .hunt → Effect s (.srcRsvd g) (timeoutInHunt s)
  | rsvdInCollect (g : Byte) : s.wstate = .collect → Effect s (.srcRsvd g) (timeoutInCollect s)
  | accept : s.wstate = .decode → candidateFormed s = true → checksumMatches s = true →
      Effect s .decode (acceptFrame s)
  | reject : s.wstate = .decode → (candidateFormed s = false ∨ checksumMatches s = false) →
      Effect s .decode (rejectFrame s)
  | pushZero : s.wstate = .push → s.slot.toNat ≤ 11 → distOf (fbRead s) s.slot.toNat = 0 →
      Effect s .push (nextSlot { s with samplesZero := s.samplesZero + 1 })
  | pushPoint : s.wstate = .push → s.slot.toNat ≤ 11 → distOf (fbRead s) s.slot.toNat ≠ 0 →
      s.head.toNat < s.params.capacity →
      Effect s .push (nextSlot (afterRingWrite (slotPoint s s.slot.toNat) s))
  | snap (p : Nat) (g : BitVec 28) :
      Effect s (.snap p g)
        (respond p (Rsp.good (s.count.setWidth 32) s.pushes 0) (onPort p (takeSnapshot s) s))
  | readValid (p : Nat) (g : BitVec 4) (k : BitVec 24) : k.toNat < (portAt s p).countL.toNat →
      isStale s.params.capacity (portAt s p) k.toNat = false →
      Effect s (.read p g k)
        (respond p (pointRsp (ramRead s (physIndex s.params.capacity (portAt s p) k.toNat))) s)
  | readInvalid (p : Nat) (g : BitVec 4) (k : BitVec 24) :
      ¬(k.toNat < (portAt s p).countL.toNat ∧ isStale s.params.capacity (portAt s p) k.toNat = false) →
      Effect s (.read p g k) (respond p Rsp.stale s)
  | stat (p : Nat) (g : BitVec 20) (sel : Byte) (v : Word) : statValue s p sel = some v →
      Effect s (.stat p g sel) (respond p (Rsp.good v 0 0) s)
  | statUndefined (p : Nat) (g : BitVec 20) (sel : Byte) : statValue s p sel = none →
      Effect s (.stat p g sel) (respond p Rsp.refusal s)
  | rsvd0 (p : Nat) (g : BitVec 28) : Effect s (.cmdRsvd0 p g) (respond p Rsp.refusal s)
  | rsvd47 (p : Nat) (a : BitVec 2) (g : BitVec 28) : Effect s (.cmdRsvd47 p a g) (respond p Rsp.refusal s)
  | rsvd8F (p : Nat) (a : BitVec 3) (g : BitVec 28) : Effect s (.cmdRsvd8F p a g) (respond p Rsp.refusal s)
  | reset : Effect s .reset { State.resetWith s.params with
      ram := s.ram
      ports := s.ports.map (resetLatch s.params)
      srcQ := s.srcQ
      sched := s.sched
      epoch := s.epoch + 1 }
  | wireFrame (f : Frame) :
      Effect s (.wireFrame f) { s with srcQ := (f.bytes s.params.marker).map dataEvent ++ s.srcQ }

/-- A meaning of the form "its effect in its own states, else nothing". -/
theorem guarded_effect {s t : State} {i : Instr} {c : Prop} [Decidable c] {u : State}
    (h : (if c then Host.Outcome.next u else .next s : Result) = .next t) (he : c → Effect s i u) :
    Effect s i t := by
  split at h
  · exact Host.Outcome.next.inj h ▸ he ‹c›
  · exact Host.Outcome.next.inj h ▸ .unchanged i

theorem execDecode_effect {s t : State} (h : execDecode s = .next t) : Effect s .decode t := by
  unfold execDecode at h
  split at h
  · split at h
    · split at h
      · exact Host.Outcome.next.inj h ▸ .accept ‹_› ‹_› ‹_›
      · exact Host.Outcome.next.inj h ▸ .reject ‹_› (.inr (Bool.eq_false_iff.2 ‹_›))
    · exact Host.Outcome.next.inj h ▸ .reject ‹_› (.inl (Bool.eq_false_iff.2 ‹_›))
  · exact Host.Outcome.next.inj h ▸ .unchanged _

theorem execPush_effect {s t : State} (h : execPush s = .next t) : Effect s .push t := by
  unfold execPush at h
  split at h
  · split at h
    · split at h
      · exact Host.Outcome.next.inj h ▸ .pushZero ‹_› ‹_› ‹_›
      · split at h
        · obtain ⟨hh, rfl⟩ := ringWrite_cases ‹_›
          exact Host.Outcome.next.inj h ▸ .pushPoint ‹_› ‹_› ‹_› hh
        · cases h
    · cases h
  · exact Host.Outcome.next.inj h ▸ .unchanged _

theorem execRead_effect {s t : State} {p : Nat} {g : BitVec 4} {k : BitVec 24} (h : execRead p g k s = .next t) :
    Effect s (.read p g k) t := by
  unfold execRead at h
  split at h
  · rename_i hv
    unfold memRead at h
    split at h
    · rename_i hm
      split at hm
      · cases hm
        exact Host.Outcome.next.inj h ▸ .readValid p g k hv.1 hv.2
      · cases hm
    · cases h
  · exact Host.Outcome.next.inj h ▸ .readInvalid p g k ‹_›

theorem execStat_effect {s t : State} {p : Nat} {g : BitVec 20} {sel : Byte} (h : execStat p g sel s = .next t) :
    Effect s (.stat p g sel) t := by
  unfold execStat at h
  split at h
  · exact Host.Outcome.next.inj h ▸ .stat p g sel _ ‹_›
  · exact Host.Outcome.next.inj h ▸ .statUndefined p g sel ‹_›

/-- Everything an instruction that completes can do. -/
theorem exec_effect {s t : State} {i : Instr} (h : exec i s = .next t) : Effect s i t := by
  cases i with
  | huntMarker => exact guarded_effect h .huntMarker
  | huntSkip b => exact guarded_effect h (.huntSkip b)
  | huntTimeout g => exact guarded_effect h (.huntTimeout g)
  | collectByte b => exact guarded_effect h fun c => .collectByte b c.1 c.2
  | collectLast b => exact guarded_effect h fun c => .collectLast b c.1 c.2
  | collectTimeout g => exact guarded_effect h (.collectTimeout g)
  | closed g => exact guarded_effect h (.closed g)
  | srcRsvd g =>
    simp only [exec, execSrcRsvd] at h
    split at h
    · exact Host.Outcome.next.inj h ▸ .rsvdInHunt g ‹_›
    · exact Host.Outcome.next.inj h ▸ .rsvdInCollect g ‹_›
    all_goals exact Host.Outcome.next.inj h ▸ .unchanged _
  | srcNotAccepted w => exact Host.Outcome.next.inj h ▸ .unchanged _
  | decode => exact execDecode_effect h
  | push => exact execPush_effect h
  | snap p g => exact Host.Outcome.next.inj h ▸ .snap p g
  | read p g k => exact execRead_effect h
  | stat p g sel => exact execStat_effect h
  | cmdRsvd0 p g => exact Host.Outcome.next.inj h ▸ .rsvd0 p g
  | cmdRsvd47 p a g => exact Host.Outcome.next.inj h ▸ .rsvd47 p a g
  | cmdRsvd8F p a g => exact Host.Outcome.next.inj h ▸ .rsvd8F p a g
  | reset => exact Host.Outcome.next.inj h ▸ .reset
  | wireFrame f => exact Host.Outcome.next.inj h ▸ .wireFrame f

/-- No instruction changes the commands a consumer has pending: only its turn takes one. -/
theorem Effect.keeps_cmds {s t : State} {i : Instr} (e : Effect s i t) {p : Nat} {q : Port} (h : s.ports[p]? = some q) :
    ∃ q', t.ports[p]? = some q' ∧ q'.cmds = q.cmds := by
  have one : ∀ (p' : Nat) (f : Port → Port) (u : State), (∀ q, (f q).cmds = q.cmds) →
      (∃ q', u.ports[p]? = some q' ∧ q'.cmds = q.cmds) →
      ∃ q', (onPort p' f u).ports[p]? = some q' ∧ q'.cmds = q.cmds := by
    rintro p' f u hf ⟨q', h1, h2⟩
    rw [onPort_ports_getElem?, h1]
    refine ⟨_, rfl, ?_⟩
    dsimp
    split
    · rw [hf, h2]
    · exact h2
  have all : ∀ (f : Port → Port), (∀ q, (f q).cmds = q.cmds) →
      ∃ q', (s.ports.map f)[p]? = some q' ∧ q'.cmds = q.cmds := fun f hf => ⟨f q, by simp [h], hf q⟩
  have self : ∃ q', s.ports[p]? = some q' ∧ q'.cmds = q.cmds := ⟨q, h, rfl⟩
  cases e with
  | pushZero => exact ⟨q, by simpa using h, rfl⟩
  | pushPoint => simpa [afterRingWrite] using all (bumpSince s.params.capacity) fun _ => rfl
  | reset => exact all (resetLatch s.params) fun _ => rfl
  | snap p' => exact one _ _ _ (fun _ => rfl) (one _ _ _ (fun _ => rfl) self)
  | readValid => exact one _ _ _ (fun _ => rfl) self
  | readInvalid => exact one _ _ _ (fun _ => rfl) self
  | stat => exact one _ _ _ (fun _ => rfl) self
  | statUndefined => exact one _ _ _ (fun _ => rfl) self
  | rsvd0 => exact one _ _ _ (fun _ => rfl) self
  | rsvd47 => exact one _ _ _ (fun _ => rfl) self
  | rsvd8F => exact one _ _ _ (fun _ => rfl) self
  | _ => exact self

/-! ## Stepping -/

/-- Everything `fetch` can do with a turn: nobody's step is enabled, or the offered word's instruction is taken. -/
theorem fetch_cases {s t : State} {o : Option Instr} (h : fetch s = (o, t)) :
    (o = none ∧ t = afterTurn s) ∨
    ∃ w i, offered s (turnOf s) = some w ∧ decode (ctxOf s) w = .ok i ∧ o = some i ∧
      t = consume (turnOf s) i (afterTurn s) := by
  unfold fetch at h
  split at h
  · cases h
    exact .inl ⟨rfl, rfl⟩
  · split at h
    · cases h
      exact .inl ⟨rfl, rfl⟩
    · cases h
      exact .inr ⟨_, _, ‹_›, ‹_›, rfl, rfl⟩

/-- What `consume` can change: the source's events, or one port's commands. -/
theorem consume_cases (t : Turn) (i : Instr) (s : State) :
    consume t i s = s ∨ consume t i s = { s with srcQ := s.srcQ.tail } ∨
      ∃ p, consume t i s = onPort p (fun q => { q with cmds := q.cmds.tail }) s := by
  unfold consume
  split
  · exact .inl rfl
  · exact .inr (.inl rfl)
  · exact .inr (.inr ⟨_, rfl⟩)
  · exact .inl rfl
  · exact .inl rfl

end Sys2Proof.Machine
end

