-- ==== Sys2Proof/Laws/Invariant.lean ====
section
/-! SUPPORT. Which changes of state the invariant does not notice: the counters, the error class, the metadata and the
environment's fields; and changes of a port that leave its latch as it is or take a snapshot. -/

namespace Sys2Proof.Safety

open Sys2Proof.Machine

/-- The invariant reads these fields only. -/
theorem Inv.congr {s t : State} (h : Inv s) (hp : t.params = s.params) (hw : t.wstate = s.wstate) (hn : t.nb = s.nb)
    (hs : t.slot = s.slot) (hf : t.fb = s.fb) (hr : t.ram = s.ram) (hh : t.head = s.head) (hc : t.count = s.count)
    (hq : t.ports = s.ports) (he : t.epoch = s.epoch) : Inv t where
  params := hp ▸ h.params
  ports := by rw [hq, hp]; exact h.ports
  fbForm := hf ▸ h.fbForm
  ramForm := by rw [hr, hp]; exact h.ramForm
  width := by rw [hh, hp]; exact h.width
  count_le := by rw [hc, hp]; exact h.count_le
  head_lt := by rw [hh, hp]; exact h.head_lt
  head_eq := by rw [hh, hc, hp]; exact h.head_eq
  latches := by
    intro q hm
    have := h.latches q (hq ▸ hm)
    exact ⟨hc ▸ this.count_le, hp ▸ this.width, hp ▸ this.head_lt, hp ▸ this.since_le, hp ▸ this.head_eq⟩
  sequencer := by
    have := h.sequencer
    simp only [SequencerOk, hw, hn, hs] at this ⊢
    exact this
  marker := by
    have := h.marker
    simp only [heldBytes, hw, hn] at this ⊢
    rw [fbRead_congr hf he, hp]
    exact this
  held := by
    have := h.held
    simp only [heldBytes, hw, hn] at this ⊢
    rw [hf]
    exact this
  stored := by rw [hr, hp, hc]; exact h.stored

/-- A change of one port to one whose latch is in order keeps the invariant. -/
theorem Inv.onPort {s : State} (h : Inv s) (p : Nat) {f : Port → Port} (hf : ∀ q, LatchOk s q → LatchOk s (f q)) :
    Inv (Machine.onPort p f s) where
  params := h.params
  ports := by simpa using h.ports
  fbForm := h.fbForm
  ramForm := h.ramForm
  width := h.width
  count_le := h.count_le
  head_lt := h.head_lt
  head_eq := h.head_eq
  latches := by
    intro q hm
    obtain ⟨n, hn⟩ := List.mem_iff_getElem?.1 hm
    rw [onPort_ports_getElem?] at hn
    cases hs : s.ports[n]? with
    | none => simp [hs] at hn
    | some q' =>
      have hl := h.latches q' (List.mem_of_getElem? hs)
      simp only [hs, Option.map_eq_map, Option.map_some, Option.some.injEq] at hn
      subst hn
      split
      · exact ⟨(hf q' hl).count_le, (hf q' hl).width, (hf q' hl).head_lt, (hf q' hl).since_le, (hf q' hl).head_eq⟩
      · exact ⟨hl.count_le, hl.width, hl.head_lt, hl.since_le, hl.head_eq⟩
  sequencer := h.sequencer
  marker := h.marker
  held := h.held
  stored := h.stored

theorem Inv.respond {s : State} (h : Inv s) (p : Nat) (r : Rsp) : Inv (Machine.respond p r s) :=
  h.onPort p fun _ hq => ⟨hq.count_le, hq.width, hq.head_lt, hq.since_le, hq.head_eq⟩

/-- What a turn takes from its agent's pending words, the invariant does not notice. -/
theorem Inv.consume {s : State} (h : Inv s) (t : Turn) (i : Instr) : Inv (Machine.consume t i (afterTurn s)) := by
  have ha : Inv (afterTurn s) := h.congr rfl rfl rfl rfl rfl rfl rfl rfl rfl rfl
  rcases consume_cases t i (afterTurn s) with e | e | ⟨p, e⟩
  · rw [e]
    exact ha
  · rw [e]
    exact ha.congr rfl rfl rfl rfl rfl rfl rfl rfl rfl rfl
  · rw [e]
    exact ha.onPort p fun _ hq => ⟨hq.count_le, hq.width, hq.head_lt, hq.since_le, hq.head_eq⟩

end Sys2Proof.Safety
end

