-- ==== Sys2Proof/Laws/Projector.lean ====
section
/-! SUPPORT. How far the projector's exact fractions are from the real cosine and sine (42_projector.md R89, R90): the
Taylor polynomials, π's approximation, the quarters, and the coordinate before rounding. -/

namespace Sys2Proof.Machine

/-- A fraction as a real number. -/
noncomputable def Ratio.val (q : Ratio) : ℝ := (q.1 : ℝ) / (q.2 : ℝ)

/-! ## The Taylor polynomials -/

/-- The polynomial of degree 31 of the exponential at `x i`: its real part is the cosine's, its imaginary part the sine's. -/
theorem taylor_parts (x : ℝ) :
    (∑ m ∈ Finset.range 32, ((x : ℂ) * Complex.I) ^ m / (m.factorial : ℂ)) =
      ((∑ k ∈ Finset.range 16, (-1) ^ k * x ^ (2 * k) / ((2 * k).factorial : ℝ) : ℝ) : ℂ) +
      ((∑ k ∈ Finset.range 16, (-1) ^ k * x ^ (2 * k + 1) / ((2 * k + 1).factorial : ℝ) : ℝ) : ℂ) * Complex.I := by
  have hpair : ∀ f : ℕ → ℂ, ∀ n : ℕ, ∑ m ∈ Finset.range (2 * n), f m =
      ∑ k ∈ Finset.range n, f (2 * k) + ∑ k ∈ Finset.range n, f (2 * k + 1) := by
    intro f n
    induction n with
    | zero => simp
    | succ n ih =>
      rw [show 2 * (n + 1) = 2 * n + 1 + 1 by ring, Finset.sum_range_succ, Finset.sum_range_succ, ih,
        Finset.sum_range_succ, Finset.sum_range_succ]
      ring
  have hI : ∀ k : ℕ, Complex.I ^ (2 * k) = (-1) ^ k := fun k => by rw [pow_mul, Complex.I_sq]
  rw [show 32 = 2 * 16 by norm_num, hpair]
  push_cast
  rw [Finset.sum_mul]
  congr 1
  · exact Finset.sum_congr rfl fun k _ => by rw [mul_pow, hI]; ring
  · exact Finset.sum_congr rfl fun k _ => by rw [mul_pow, pow_succ Complex.I, hI]; ring

/-- Both polynomials are within `2 |x|^32 / 32!` of their functions. -/
theorem taylor_error (x : ℝ) (hx : |x| ≤ 2) :
    |Real.cos x - ∑ k ∈ Finset.range 16, (-1) ^ k * x ^ (2 * k) / ((2 * k).factorial : ℝ)| ≤ 1 / 10 ^ 25 ∧
    |Real.sin x - ∑ k ∈ Finset.range 16, (-1) ^ k * x ^ (2 * k + 1) / ((2 * k + 1).factorial : ℝ)| ≤ 1 / 10 ^ 25 := by
  have hn : ‖(x : ℂ) * Complex.I‖ = |x| := by simp
  have hb := Complex.exp_bound' (x := (x : ℂ) * Complex.I) (n := 32) (by rw [hn]; push_cast; linarith)
  rw [taylor_parts, hn, Complex.exp_mul_I] at hb
  have hsmall : |x| ^ 32 / ((32).factorial : ℝ) * 2 ≤ 1 / 10 ^ 25 := by
    have h1 : |x| ^ 32 ≤ 2 ^ 32 := pow_le_pow_left₀ (abs_nonneg x) hx 32
    have h2 : ((32).factorial : ℝ) = 263130836933693530167218012160000000 := by norm_num [Nat.factorial]
    rw [h2, div_mul_eq_mul_div, div_le_div_iff₀ (by norm_num) (by norm_num)]
    nlinarith
  have hparts : ∀ a b : ℝ, Complex.cos x + Complex.sin x * Complex.I - ((a : ℂ) + (b : ℂ) * Complex.I) =
      ((Real.cos x - a : ℝ) : ℂ) + ((Real.sin x - b : ℝ) : ℂ) * Complex.I := by
    intro a b
    push_cast
    ring
  rw [hparts] at hb
  constructor
  · refine le_trans (le_of_eq ?_) (le_trans (Complex.abs_re_le_norm _) (le_trans hb hsmall))
    simp only [Complex.add_re, Complex.mul_re, Complex.ofReal_re, Complex.ofReal_im, Complex.I_re, Complex.I_im,
      mul_zero, mul_one, sub_zero, add_zero]
  · refine le_trans (le_of_eq ?_) (le_trans (Complex.abs_im_le_norm _) (le_trans hb hsmall))
    simp only [Complex.add_im, Complex.mul_im, Complex.ofReal_re, Complex.ofReal_im, Complex.I_re, Complex.I_im,
      mul_zero, mul_one, zero_add, add_zero]

/-! ## The nested form -/

theorem thetaDen_pos : 0 < thetaDen := by decide

theorem nested_den_pos (u : Nat) : ∀ as : List Nat, (∀ a ∈ as, 0 < a) → 0 < (nested u as).2
  | [], _ => Nat.one_pos
  | a :: as, h => by
    have h1 := nested_den_pos u as fun b hb => h b (List.mem_cons_of_mem _ hb)
    have h2 := h a List.mem_cons_self
    exact Nat.mul_pos (Nat.mul_pos h1 h2) (Nat.pow_pos thetaDen_pos)

theorem nested_val_cons (u a : Nat) (as : List Nat) (ha : 0 < a) (h : ∀ b ∈ as, 0 < b) :
    (nested u (a :: as)).val = 1 - ((u : ℝ) / thetaDen) ^ 2 / a * (nested u as).val := by
  have h1 : ((nested u as).2 : ℝ) ≠ 0 := Nat.cast_ne_zero.2 (nested_den_pos u as h).ne'
  have h2 : (a : ℝ) ≠ 0 := Nat.cast_ne_zero.2 ha.ne'
  have h3 : (thetaDen : ℝ) ≠ 0 := Nat.cast_ne_zero.2 thetaDen_pos.ne'
  simp only [Ratio.val, nested]
  push_cast
  field_simp

theorem nested_val_nil (u : Nat) : (nested u []).val = 1 := by
  simp [Ratio.val, nested]

/-- The nested forms are the Taylor polynomials at `u / thetaDen`. -/
theorem cos_nested (u : Nat) : (nested u cosDivisors).val =
    ∑ k ∈ Finset.range 16, (-1) ^ k * ((u : ℝ) / thetaDen) ^ (2 * k) / ((2 * k).factorial : ℝ) := by
  have hd : cosDivisors = [2, 12, 30, 56, 90, 132, 182, 240, 306, 380, 462, 552, 650, 756, 870] := by decide
  have step := fun (a : Nat) (as : List Nat) (ha : 0 < a) (h : ∀ b ∈ as, 0 < b) => nested_val_cons u a as ha h
  rw [hd]
  rw [step _ _ (by decide) (by decide), step _ _ (by decide) (by decide), step _ _ (by decide) (by decide),
    step _ _ (by decide) (by decide), step _ _ (by decide) (by decide), step _ _ (by decide) (by decide),
    step _ _ (by decide) (by decide), step _ _ (by decide) (by decide), step _ _ (by decide) (by decide),
    step _ _ (by decide) (by decide), step _ _ (by decide) (by decide), step _ _ (by decide) (by decide),
    step _ _ (by decide) (by decide), step _ _ (by decide) (by decide), step _ _ (by decide) (by decide),
    nested_val_nil]
  simp only [Finset.sum_range_succ, Finset.sum_range_zero, Nat.factorial]
  push_cast
  ring

theorem sin_nested (u : Nat) : (u : ℝ) / thetaDen * (nested u sinDivisors).val =
    ∑ k ∈ Finset.range 16, (-1) ^ k * ((u : ℝ) / thetaDen) ^ (2 * k + 1) / ((2 * k + 1).factorial : ℝ) := by
  have hd : sinDivisors = [6, 20, 42, 72, 110, 156, 210, 272, 342, 420, 506, 600, 702, 812, 930] := by decide
  have step := fun (a : Nat) (as : List Nat) (ha : 0 < a) (h : ∀ b ∈ as, 0 < b) => nested_val_cons u a as ha h
  rw [hd]
  rw [step _ _ (by decide) (by decide), step _ _ (by decide) (by decide), step _ _ (by decide) (by decide),
    step _ _ (by decide) (by decide), step _ _ (by decide) (by decide), step _ _ (by decide) (by decide),
    step _ _ (by decide) (by decide), step _ _ (by decide) (by decide), step _ _ (by decide) (by decide),
    step _ _ (by decide) (by decide), step _ _ (by decide) (by decide), step _ _ (by decide) (by decide),
    step _ _ (by decide) (by decide), step _ _ (by decide) (by decide), step _ _ (by decide) (by decide),
    nested_val_nil]
  simp only [Finset.sum_range_succ, Finset.sum_range_zero, Nat.factorial]
  push_cast
  ring

theorem sinQuarter_val (r : Nat) : (sinQuarter r).val =
    ((r * piScaled : Nat) : ℝ) / thetaDen * (nested (r * piScaled) sinDivisors).val := by
  simp only [sinQuarter, Ratio.val]
  push_cast
  ring

/-! ## One quarter -/

/-- The angle used in place of `r π / 198000`. -/
theorem angle_error {r : Nat} (hr : r ≤ 99000) :
    |((r * piScaled : Nat) : ℝ) / thetaDen - r * Real.pi / 198000| ≤ 1 / 10 ^ 20 ∧
      |((r * piScaled : Nat) : ℝ) / thetaDen| ≤ 2 := by
  have h1 := Real.pi_gt_d20
  have h2 := Real.pi_lt_d20
  have hr' : (r : ℝ) ≤ 99000 := by exact_mod_cast hr
  have hr0 : (0 : ℝ) ≤ r := Nat.cast_nonneg r
  have hp : ((r * piScaled : Nat) : ℝ) / thetaDen = r / 198000 * ((piScaled : ℝ) / 2 ^ 96) := by
    simp only [thetaDen]
    push_cast
    ring
  have hs1 : (3.14159265358979323846 : ℝ) < (piScaled : ℝ) / 2 ^ 96 := by norm_num [piScaled]
  have hs2 : (piScaled : ℝ) / 2 ^ 96 < 3.14159265358979323847 := by norm_num [piScaled]
  have hq0 : 0 ≤ (r : ℝ) / 198000 := by positivity
  have hq1 : (r : ℝ) / 198000 ≤ 1 / 2 := by linarith
  constructor
  · rw [hp, show (r : ℝ) / 198000 * ((piScaled : ℝ) / 2 ^ 96) - r * Real.pi / 198000 =
      r / 198000 * ((piScaled : ℝ) / 2 ^ 96 - Real.pi) by ring, abs_mul, abs_of_nonneg hq0]
    have : |(piScaled : ℝ) / 2 ^ 96 - Real.pi| ≤ 1 / 10 ^ 20 := by
      rw [abs_le]
      constructor <;> norm_num at * <;> linarith
    nlinarith [abs_nonneg ((piScaled : ℝ) / 2 ^ 96 - Real.pi)]
  · rw [hp, abs_of_nonneg (mul_nonneg hq0 (by linarith))]
    nlinarith

/-- Cosine and sine of an angle in the first quarter are within 2·10^-20. -/
theorem quarter_error {r : Nat} (hr : r ≤ 99000) :
    |(cosQuarter r).val - Real.cos (r * Real.pi / 198000)| ≤ 2 / 10 ^ 20 ∧
    |(sinQuarter r).val - Real.sin (r * Real.pi / 198000)| ≤ 2 / 10 ^ 20 := by
  obtain ⟨ha, hx⟩ := angle_error hr
  obtain ⟨hc, hs⟩ := taylor_error _ hx
  have h3 := le_trans (Real.abs_cos_sub_cos_le (((r * piScaled : Nat) : ℝ) / thetaDen) (r * Real.pi / 198000)) ha
  have h4 := le_trans (Real.abs_sin_sub_sin_le (((r * piScaled : Nat) : ℝ) / thetaDen) (r * Real.pi / 198000)) ha
  rw [← cos_nested] at hc
  rw [← sin_nested, ← sinQuarter_val] at hs
  rw [show cosQuarter r = nested (r * piScaled) cosDivisors from rfl]
  rw [abs_le] at hc hs h3 h4
  constructor <;> rw [abs_le] <;> constructor <;> norm_num at * <;> linarith

theorem negRatio_val (q : Ratio) : (negRatio q).val = -q.val := by
  simp [negRatio, Ratio.val, neg_div]

/-! ## The whole turn -/

/-- Cosine or sine, by axis. -/
noncomputable def idealTrig (axis : Axis) (a : Nat) : ℝ :=
  match axis with
  | .x => Real.cos (a * Real.pi / 198000)
  | .y => Real.sin (a * Real.pi / 198000)

theorem trig_error (axis : Axis) {a : Nat} (ha : a < 396000) :
    |(trig axis a).val - idealTrig axis a| ≤ 2 / 10 ^ 20 := by
  obtain ⟨r, j, hr, hj, rfl⟩ : ∃ r j, r < 99000 ∧ j < 4 ∧ a = r + 99000 * j :=
    ⟨a % 99000, a / 99000, by omega, by omega, by omega⟩
  obtain ⟨hc, hs⟩ := quarter_error (Nat.le_of_lt hr)
  have h1 : (r + 99000 * j) % quarterCodes = r := by simp only [quarterCodes]; omega
  have h2 : (r + 99000 * j) / quarterCodes % 4 = j := by simp only [quarterCodes]; omega
  rw [trig, h1, h2]
  generalize cosQuarter r = C at *
  generalize sinQuarter r = S at *
  have hθ : ((r + 99000 * j : Nat) : ℝ) * Real.pi / 198000 = r * Real.pi / 198000 + j * (Real.pi / 2) := by
    push_cast
    ring
  have hneg : ∀ u v : ℝ, |-u - -v| = |u - v| := fun u v => by rw [neg_sub_neg, abs_sub_comm]
  have hpi : ∀ θ : ℝ, Real.cos (θ + 3 * (Real.pi / 2)) = Real.sin θ ∧ Real.sin (θ + 3 * (Real.pi / 2)) = -Real.cos θ := by
    intro θ
    rw [show θ + 3 * (Real.pi / 2) = θ + Real.pi / 2 + Real.pi by ring]
    exact ⟨by rw [Real.cos_add_pi, Real.cos_add_pi_div_two, neg_neg], by rw [Real.sin_add_pi, Real.sin_add_pi_div_two]⟩
  have htwo : ∀ θ : ℝ, Real.cos (θ + 2 * (Real.pi / 2)) = -Real.cos θ ∧ Real.sin (θ + 2 * (Real.pi / 2)) = -Real.sin θ := by
    intro θ
    rw [show θ + 2 * (Real.pi / 2) = θ + Real.pi by ring]
    exact ⟨Real.cos_add_pi _, Real.sin_add_pi _⟩
  simp only [idealTrig, quarterTrig, hθ]
  obtain rfl | rfl | rfl | rfl : j = 0 ∨ j = 1 ∨ j = 2 ∨ j = 3 := by omega
  all_goals cases axis
  all_goals simp only [Nat.cast_zero, Nat.cast_one, Nat.cast_ofNat, zero_mul, add_zero, one_mul, negRatio_val,
    Real.cos_add_pi_div_two, Real.sin_add_pi_div_two, hpi, htwo, hneg]
  all_goals assumption

/-! ## The coordinate -/

theorem cosQuarter_den_pos (r : Nat) : 0 < (cosQuarter r).2 :=
  nested_den_pos (r * piScaled) cosDivisors (by decide)

theorem sinQuarter_den_pos (r : Nat) : 0 < (sinQuarter r).2 := by
  have h : 0 < (nested (r * piScaled) sinDivisors).2 := nested_den_pos (r * piScaled) sinDivisors (by decide)
  simp only [sinQuarter]
  exact Nat.mul_pos thetaDen_pos h

theorem trig_den_pos (axis : Axis) (a : Nat) : 0 < (trig axis a).2 := by
  have hc := cosQuarter_den_pos (a % quarterCodes)
  have hs := sinQuarter_den_pos (a % quarterCodes)
  rw [trig]
  generalize cosQuarter (a % quarterCodes) = C at *
  generalize sinQuarter (a % quarterCodes) = S at *
  unfold quarterTrig
  split <;> first | exact hc | exact hs

theorem coordinate_den_pos (axis : Axis) (d a : Nat) : 0 < (coordinate axis d a).2 := trig_den_pos axis a

theorem coordinate_val (axis : Axis) (d a : Nat) : (coordinate axis d a).val = 256 * d * (trig axis a).val := by
  simp only [coordinate, Ratio.val, fracBits]
  push_cast
  ring

/-- A coordinate before rounding is within 2^-41 of the ideal one (R90). -/
theorem coordinate_error (axis : Axis) {d a : Nat} (hd : d ≤ 65535) (ha : a < 396000) :
    |(coordinate axis d a).val - 256 * d * idealTrig axis a| ≤ 1 / 2 ^ 41 := by
  have h := trig_error axis ha
  have hd' : (d : ℝ) ≤ 65535 := by exact_mod_cast hd
  have hd0 : (0 : ℝ) ≤ 256 * d := by positivity
  rw [coordinate_val, ← mul_sub, abs_mul, abs_of_nonneg hd0]
  calc 256 * (d : ℝ) * |(trig axis a).val - idealTrig axis a|
      ≤ 256 * 65535 * (2 / 10 ^ 20) := mul_le_mul (by linarith) h (abs_nonneg _) (by norm_num)
    _ ≤ 1 / 2 ^ 41 := by norm_num

/-! ## Rounding -/

/-- Rounding moves a fraction by at most a half. -/
theorem nearest_error {q : Ratio} (h : 0 < q.2) : |(nearest q : ℝ) - q.val| ≤ 1 / 2 := by
  have hq : (0 : ℤ) < 2 * (q.2 : ℤ) := by omega
  have h1 := Int.ediv_mul_le (2 * q.1 + q.2) (ne_of_gt hq)
  have h2 := Int.lt_ediv_add_one_mul_self (2 * q.1 + q.2) hq
  have hpos : (0 : ℝ) < q.2 := Nat.cast_pos.2 h
  have h1' : (nearest q : ℝ) * (2 * (q.2 : ℝ)) ≤ 2 * (q.1 : ℝ) + q.2 := by exact_mod_cast h1
  have h2' : 2 * (q.1 : ℝ) + q.2 < ((nearest q : ℝ) + 1) * (2 * (q.2 : ℝ)) := by exact_mod_cast h2
  have hv : q.val * q.2 = q.1 := div_mul_cancel₀ _ hpos.ne'
  rw [abs_le]
  constructor <;> nlinarith

theorem isWhole_iff {q : Ratio} (h : 0 < q.2) : isWhole q = true ↔ |q.val - nearest q| ≤ 1 / 2 ^ 40 := by
  have hpos : (0 : ℝ) < q.2 := Nat.cast_pos.2 h
  have hv : q.val - nearest q = ((q.1 - nearest q * q.2 : ℤ) : ℝ) / q.2 := by
    simp only [Ratio.val]
    push_cast
    field_simp
  rw [hv, abs_div, abs_of_pos hpos, div_le_div_iff₀ hpos (by norm_num), one_mul, isWhole, decide_eq_true_iff]
  rw [← Nat.cast_le (α := ℝ)]
  push_cast
  rw [Nat.cast_natAbs]
  push_cast
  norm_num

end Sys2Proof.Machine
end

