-- ==== Sys2Proof/Laws/Schedule.lean ====
section
/-! SUPPORT. A step whose turn the schedule names, runs put together, and what a command answers from: the state shared by
all ports and its own port's latch (00_scope.md R11, 43_ringbuffer.md R100). -/

namespace Sys2Proof.Machine

/-! ## Runs -/

theorem core_run_zero (s : State) : Sys2Proof.core.run 0 s = .next s := rfl

/-- A run whose first step is known. -/
theorem core_run_succ {s t : State} (n : Nat) (h : step s = .next t) :
    Sys2Proof.core.run (n + 1) s = Sys2Proof.core.run n t := by
  have : Sys2Proof.core.step s = .next t := h
  simp only [Host.Core.run, this]

/-! ## A step whose turn is named -/

theorem turnOf_cons {s : State} {τ : Turn} {ts : List Turn} (h : s.sched = τ :: ts) : turnOf s = τ := by
  simp [turnOf, h]

theorem afterTurn_cons {s : State} {τ : Turn} {ts : List Turn} (h : s.sched = τ :: ts) :
    afterTurn s = { s with sched := ts } := by
  simp [afterTurn, h]

/-- A turn whose agent has nothing to present passes. -/
theorem step_waits {s : State} (h : offered s (turnOf s) = none) : step s = .next (afterTurn s) := by
  simp [step, fetch, h]

/-- A turn whose word stands for no enabled step passes. -/
theorem step_rejects {s : State} {w : PortWord} {e : Reject} (h : offered s (turnOf s) = some w)
    (hd : decode (ctxOf s) w = .error e) : step s = .next (afterTurn s) := by
  simp [step, fetch, h, hd]

/-- A turn whose word decodes runs that instruction. -/
theorem step_runs {s : State} {w : PortWord} {i : Instr} (h : offered s (turnOf s) = some w)
    (hd : decode (ctxOf s) w = .ok i) : step s = exec i (consume (turnOf s) i (afterTurn s)) := by
  simp [step, fetch, h, hd]

/-! ## Commands -/

/-- What a command does to its own port, whose state is `q`, in state `s`. -/
def answerCmd (s : State) (w : CmdWord) (q : Port) : Port :=
  match decodeCmd 0 w with
  | .snap _ _ => { takeSnapshot s q with rsp := some (Rsp.good (s.count.setWidth 32) s.pushes 0) }
  | .read _ _ k => { q with
      rsp := some (if k.toNat < q.countL.toNat ∧ isStale s.params.capacity q k.toNat = false
        then pointRsp (ramRead s (physIndex s.params.capacity q k.toNat)) else Rsp.stale) }
  | .stat _ _ sel => { q with
      rsp := some (match statValue { s with ports := [q] } 0 sel with
        | some v => Rsp.good v 0 0
        | none => Rsp.refusal) }
  | _ => { q with rsp := some Rsp.refusal }

/-- A command changes its own port as `answerCmd` says, and nothing else. -/
theorem exec_command {s : State} (p : Nat) (w : CmdWord) :
    exec (decodeCmd p w) s = .next (onPort p (fun _ => answerCmd s w (portAt s p)) s) := by
  have hstat : ∀ sel, statValue { s with ports := [portAt s p] } 0 sel = statValue s p sel := fun sel => rfl
  unfold decodeCmd answerCmd decodeCmd
  by_cases h1 : cmdOp w = 1#4
  · simp only [if_pos h1, exec, execSnap, respond, onPort_onPort]
    exact congrArg _ (onPort_congr rfl)
  simp only [if_neg h1]
  by_cases h2 : cmdOp w = 2#4
  · simp only [if_pos h2, exec, execRead]
    by_cases hv : (w.extractLsb' 0 24).toNat < (portAt s p).countL.toNat ∧
        isStale s.params.capacity (portAt s p) (w.extractLsb' 0 24).toNat = false
    · have hm : memRead s (physIndex s.params.capacity (portAt s p) (w.extractLsb' 0 24).toNat) = .ok _ :=
        if_pos (Nat.mod_lt _ (by have := hv.2; simp only [isStale, decide_eq_false_iff_not] at this; omega))
      simp only [if_pos hv, hm, respond]
      exact congrArg _ (onPort_congr rfl)
    · simp only [if_neg hv, respond]
      exact congrArg _ (onPort_congr rfl)
  simp only [if_neg h2]
  by_cases h3 : cmdOp w = 3#4
  · simp only [if_pos h3, exec, execStat, hstat]
    cases statValue s p (w.extractLsb' 0 8) <;> exact congrArg Host.Outcome.next (onPort_congr rfl)
  simp only [if_neg h3]
  by_cases h0 : cmdOp w = 0#4
  · simp only [if_pos h0, exec, execCmdRsvd0]
    exact congrArg _ (onPort_congr rfl)
  simp only [if_neg h0]
  split
  · simp only [exec, execCmdRsvd47]
    exact congrArg _ (onPort_congr rfl)
  · simp only [exec, execCmdRsvd8F]
    exact congrArg _ (onPort_congr rfl)

/-- An answer does not depend on the ports, the schedule, the source or the frame buffer. -/
theorem answerCmd_congr {s t : State} (w : CmdWord) (q : Port)
    (h : t = { s with ports := t.ports, sched := t.sched }) : answerCmd t w q = answerCmd s w q := by
  rw [h]
  rfl

/-- An answer keeps the commands pending, and does not depend on them. -/
theorem answerCmd_cmds (s : State) (w : CmdWord) (q : Port) (cs : List CmdWord) :
    answerCmd s w { q with cmds := cs } = { answerCmd s w q with cmds := cs } := by
  unfold answerCmd
  split
  · rfl
  · rfl
  · rfl
  · rfl

@[simp] theorem answerCmd_keeps_cmds (s : State) (w : CmdWord) (q : Port) : (answerCmd s w q).cmds = q.cmds := by
  unfold answerCmd
  split <;> rfl

/-- Port `p` after consumer `p`'s turn: its next command, if it has one, taken and answered. -/
def servePort (s : State) (q : Port) : Port :=
  match q.cmds with
  | [] => q
  | w :: ws => { answerCmd s w q with cmds := ws }

/-- A consumer's turn, for a port the build has. -/
theorem step_consumer {s : State} {p : Nat} {ts : List Turn} (h : s.sched = .consumer p :: ts)
    (hp : p < s.params.ports) (hl : p < s.ports.length) :
    step s = .next (onPort p (servePort s) { s with sched := ts }) := by
  have ht := turnOf_cons h
  have hps : portAt { s with sched := ts } p = portAt s p := rfl
  cases hcmd : (portAt s p).cmds with
  | nil =>
    have ho : offered s (turnOf s) = none := by simp [ht, offered, hcmd]
    rw [step_waits ho, afterTurn_cons h]
    rw [onPort_congr (g := id) (by simp [servePort, hps, hcmd])]
    simp [onPort]
  | cons w ws =>
    have ho : offered s (turnOf s) = some (.cmd p w) := by simp [ht, offered, hcmd]
    have hd : decode (ctxOf s) (.cmd p w) = .ok (decodeCmd p w) := by simp [decode, ctxOf, hp]
    rw [step_runs ho hd, ht, afterTurn_cons h]
    have hcons : consume (.consumer p) (decodeCmd p w) { s with sched := ts } =
        onPort p (fun q => { q with cmds := q.cmds.tail }) { s with sched := ts } := by
      simp [consume]
    rw [hcons, exec_command p w, onPort_onPort]
    refine congrArg _ (onPort_congr ?_)
    have hpt : portAt (onPort p (fun q => { q with cmds := q.cmds.tail }) { s with sched := ts }) p =
        { portAt s p with cmds := ws } := by
      rw [portAt_onPort _ (by exact hl)]
      rw [hps, hcmd]
      rfl
    simp only [Function.comp, hpt, hps, servePort, hcmd]
    rw [answerCmd_cmds, answerCmd_congr (s := s) w _ rfl]

/-- Whatever port a consumer's turn names, the step answers a next state in which at most the ports differ. -/
theorem step_consumer_frame {s : State} {p : Nat} {ts : List Turn} (h : s.sched = .consumer p :: ts) :
    ∃ t, step s = .next t ∧ t = { s with ports := t.ports, sched := ts } := by
  have ht := turnOf_cons h
  cases hcmd : (portAt s p).cmds with
  | nil =>
    refine ⟨_, step_waits (by simp [ht, offered, hcmd]), ?_⟩
    rw [afterTurn_cons h]
  | cons w ws =>
    have ho : offered s (turnOf s) = some (.cmd p w) := by simp [ht, offered, hcmd]
    by_cases hp : p < s.params.ports
    · refine ⟨_, (step_runs ho (by simp [decode, ctxOf, hp])).trans (exec_command p w), ?_⟩
      rw [ht, afterTurn_cons h]
      simp [consume, onPort]
    · refine ⟨_, step_rejects ho (e := .noSuchPort) (by simp [decode, ctxOf, hp]), ?_⟩
      rw [afterTurn_cons h]

/-- A turn of the host that does not assert RESET passes. -/
theorem step_host_low {s : State} {line : BitVec 1} {ts : List Turn} (h : s.sched = .host line :: ts)
    (hl : line ≠ 1#1) : step s = .next { s with sched := ts } := by
  have ht := turnOf_cons h
  rw [step_rejects (w := .host line) (e := .resetNotAsserted) (by simp [ht, offered]) (by simp [decode, hl]),
    afterTurn_cons h]

/-- RESET asserted. -/
theorem step_host_high {s : State} {ts : List Turn} (h : s.sched = .host 1#1 :: ts) :
    step s = exec .reset { s with sched := ts } := by
  have ht := turnOf_cons h
  rw [step_runs (w := .host 1#1) (i := .reset) (by simp [ht, offered]) (by simp [decode]), ht, afterTurn_cons h]
  rfl

/-- The writer's turn, where an internal step is due. -/
theorem step_writer {s : State} {i : Instr} {ts : List Turn} (h : s.sched = .writer :: ts)
    (hi : decode (ctxOf s) .internal = .ok i) : step s = exec i { s with sched := ts } := by
  have ht := turnOf_cons h
  rw [step_runs (w := .internal) (i := i) (by simp [ht, offered]) hi, ht, afterTurn_cons h]
  rfl

/-- A source turn where no event is requested: nothing is taken, and the turn passes. -/
theorem step_source_unserved {s : State} {ts : List Turn} (h : s.sched = .source :: ts) (hr : requests s = false) :
    step s = .next { s with sched := ts } := by
  have ht := turnOf_cons h
  have hd : ∀ w, decode (ctxOf s) (.src w) = .ok (.srcNotAccepted w) := by
    intro w
    simp only [decode, decodeSrc, ctxOf]
    cases hw : s.wstate <;> simp [requests, hw] at hr ⊢
  rw [← afterTurn_cons h]
  have hrun : ∀ w, offered s (turnOf s) = some (.src w) → step s = .next (afterTurn s) := by
    intro w ho
    rw [step_runs ho (hd w), ht]
    rfl
  cases hq : s.srcQ with
  | nil => exact step_waits (by simp [ht, offered, hq])
  | cons x xs =>
    cases x with
    | word w => exact hrun w (by simp [ht, offered, hq])
    | frame f => exact hrun (0#2 ++ s.params.marker) (by simp [ht, offered, hq, hr])

/-! ## Runs of consumers' turns -/

/-- The turns of consumers `a` to `a + n − 1`, in ascending order, from a state that differs from `t` in the ports before
`a` at most: each of these ports is served once, on the shared state of `t`, and no other changes. -/
theorem run_consumers (t : State) (ts : List Turn) : ∀ (n a : Nat) (s : State),
    s = { t with ports := s.ports, sched := s.sched } → s.sched = (List.range' a n).map .consumer ++ ts →
    a + n ≤ t.params.ports → s.ports.length = t.params.ports → (∀ p, a ≤ p → s.ports[p]? = t.ports[p]?) →
    ∃ u, Sys2Proof.core.run n s = .next u ∧ u = { t with ports := u.ports, sched := ts } ∧
      (∀ p, p < a → u.ports[p]? = s.ports[p]?) ∧
      ∀ p, a ≤ p → p < a + n → u.ports[p]? = (t.ports[p]?).map (servePort t) := by
  intro n
  induction n with
  | zero =>
    intro a s hs hsch _ _ _
    have hts : s.sched = ts := by simpa using hsch
    exact ⟨s, rfl, hts ▸ hs, fun p _ => rfl, fun p h1 h2 => by omega⟩
  | succ n ih =>
    intro a s hs hsch han hlen hpo
    rw [List.range'_succ] at hsch
    have hpar : s.params = t.params := by rw [hs]
    have h1 := step_consumer (p := a) hsch (by rw [hpar]; omega) (by omega)
    have hserve : servePort s = servePort t := by
      funext q
      simp only [servePort]
      cases q.cmds with
      | nil => rfl
      | cons w ws =>
        simp only
        rw [answerCmd_congr w q hs]
    obtain ⟨u, k1, k2, k3, k4⟩ := ih (a + 1)
      (onPort a (servePort s) { s with sched := (List.range' (a + 1) n).map .consumer ++ ts })
      (by rw [hs]; rfl) rfl (by omega) (by simpa using hlen)
      (fun p hp => by rw [onPort_ports_other _ _ (by omega)]; exact hpo p (by omega))
    refine ⟨u, by rw [core_run_succ _ h1]; exact k1, k2, fun p hp => ?_, fun p hp1 hp2 => ?_⟩
    · rw [k3 p (by omega), onPort_ports_other _ _ (by omega)]
    · by_cases h : p = a
      · subst h
        rw [k3 p (by omega), onPort_ports_getElem?]
        simp only [if_true, hserve, hpo p (Nat.le_refl p)]
        rfl
      · exact k4 p (by omega) (by omega)

end Sys2Proof.Machine
end

