-- ==== Sys2Proof/Tests/Slice0.lean ====
section
/-! SUPPORT. Tests of one step each, with expected values from the spec's own vectors (95_test_vectors.md), and for each
statement with hypotheses a witness that meets them. -/

namespace Sys2Proof.Tests

open Machine Safety

/-! ## Small states -/

/-- The outcome is a next state that passes `f`. -/
def next (r : Result) (f : State → Bool) : Bool :=
  match r with
  | .next t => f t
  | .fault _ => false
  | .refused _ => false

/-- The outcome is this fault. -/
def faults (r : Result) (e : Fault) : Bool :=
  match r with
  | .next _ => false
  | .fault e' => decide (e' = e)
  | .refused _ => false

/-- The last response on port `p`. -/
def rspAt (s : State) (p : Nat) : Option Rsp := (portAt s p).rsp

/-- A frame buffer that holds these bytes. -/
def held (bs : List Byte) : List Host.Cell := bs.zipIdx.map fun c => (c.2, c.1)

/-- `n` slots of the same three bytes. -/
def slotBytes (n : Nat) (lo hi intensity : Byte) : List Byte := (List.replicate n [lo, hi, intensity]).flatten

/-- V-EX1. -/
def ex1 : List Byte :=
  [0x54, 0x00, 0xE8, 0x03, 0x00, 0x00] ++ slotBytes 12 0xE8 0x03 0x64 ++ [0x3E, 0x03, 0x00, 0x00, 0x06]

/-- The first 46 bytes of V-EX1 with another checksum byte (V-DEC-2). -/
def ex1Bad : List Byte := ex1.take 46 ++ [0x07]

/-- `start=0 end=0 meas=(7000,70)+11x(0,0)`: one point, then slots with distance 0. Its checksum byte is left 0. -/
def onePoint : List Byte :=
  [0x54, 0x00, 0x00, 0x00, 0x00, 0x00] ++ [0x58, 0x1B, 0x46] ++ slotBytes 11 0 0 0 ++ [0, 0, 0, 0, 0]

/-- COLLECT with the first `n` bytes of V-EX1. -/
def collecting (n : Nat) : State :=
  { State.reset with wstate := .collect, nb := BitVec.ofNat 6 n, fb := held (ex1.take n) }

/-- DECODE due, with these bytes. -/
def decoding (bs : List Byte) : State := { State.reset with wstate := .decode, nb := 47, fb := held bs }

/-- PUSH due for slot `i` of these bytes. -/
def pushing (bs : List Byte) (i : Nat) : State :=
  { State.reset with wstate := .push, slot := BitVec.ofNat 4 i, fb := held bs }

/-- The writer stopped. -/
def stopped : State := { State.reset with wstate := .closed, lastError := .transportClosed }

/-- A build with a ring of 4 points and two ports. -/
def tiny : Params := { Params.ld19 with capacity := 4, ports := 2 }

/-- A point at angle 0: X = 256 d, Y = 0. -/
def flat (d : Nat) (i : Byte) : PointWord := i ++ 0#32 ++ BitVec.ofNat 32 (256 * d)

/-- V-STALE-1: a full ring of 4, and port 0's snapshot of it. -/
def full : State :=
  { State.resetWith tiny with
    ram := [(0, flat 100 1), (1, flat 200 2), (2, flat 300 3), (3, flat 400 4)]
    count := 4
    pushes := 4
    ports := [{ Port.reset tiny with countL := 4, pushesL := 4 }, Port.reset tiny] }

/-- `full`, with slot 0 of `onePoint` due. -/
def fullPushing : State := { full with wstate := .push, fb := held onePoint }

/-- V-STALE-2: a ring of 4 that holds two points, and port 0's snapshot of it. -/
def halfFull : State :=
  { State.resetWith tiny with
    ram := [(0, flat 100 1), (1, flat 200 2)]
    head := Reg.ofNat 2 2
    count := 2
    pushes := 2
    ports := [{ Port.reset tiny with headL := Reg.ofNat 2 2, countL := 2, pushesL := 2 }, Port.reset tiny] }

/-! ## Well-formedness -/

theorem test_wf_refuses_the_marker_as_a_skipped_byte :
    (Instr.huntSkip 0x54).wf Params.ld19 = false ∧ (Instr.huntSkip 0xD4).wf Params.ld19 = true := by decide

theorem test_wf_refuses_a_port_the_build_lacks :
    (Instr.snap 1 0).wf Params.ld19 = false ∧ (Instr.read 1 0 0).wf Params.ld19 = false ∧
    (Instr.stat 1 0 0).wf Params.ld19 = false ∧ (Instr.cmdRsvd0 1 0).wf Params.ld19 = false ∧
    (Instr.cmdRsvd47 1 0 0).wf Params.ld19 = false ∧ (Instr.cmdRsvd8F 1 0 0).wf Params.ld19 = false ∧
    (Instr.snap 1 0).wf tiny = true := by decide

theorem test_decode_refuses_a_port_the_build_lacks :
    (decode ⟨Params.ld19, .hunt, 0⟩ (.cmd 1 0x10000000#32)).toOption = none ∧
    (decode ⟨Params.ld19, .hunt, 0⟩ (.host 0#1)).toOption = none ∧
    (decode ⟨Params.ld19, .hunt, 0⟩ .internal).toOption = none ∧
    (decode ⟨Params.ld19, .hunt, 0⟩ (.frame [0x54])).toOption = none := by decide

/-! ## Decoding: words written out from the encodings of R48, R49, R56, R57 -/

theorem test_decode_source_words_in_hunt :
    decodeTableWord 16 0b00_01010100 = some .huntMarker ∧
    decodeTableWord 16 0b00_11010100 = some (.huntSkip 0xD4) ∧
    decodeTableWord 16 0b01_11111111 = some (.huntTimeout 0xFF) ∧
    decodeTableWord 16 0b10_00000000 = some (.closed 0) ∧
    decodeTableWord 16 0b11_00000001 = some (.srcRsvd 1) := by decide

theorem test_decode_source_words_in_collect :
    (decode ⟨Params.ld19, .collect, 45⟩ (.src 0b00_01010100#10)).toOption = some (.collectByte 0x54) ∧
    (decode ⟨Params.ld19, .collect, 46⟩ (.src 0b00_00000110#10)).toOption = some (.collectLast 0x06) ∧
    (decode ⟨Params.ld19, .collect, 1⟩ (.src 0b01_00000000#10)).toOption = some (.collectTimeout 0) ∧
    (decode ⟨Params.ld19, .collect, 46⟩ (.src 0b10_00000000#10)).toOption = some (.closed 0) ∧
    (decode ⟨Params.ld19, .collect, 1⟩ (.src 0b11_00000000#10)).toOption = some (.srcRsvd 0) ∧
    (decode ⟨Params.ld19, .closed, 0⟩ (.src 0b00_01010100#10)).toOption = some (.srcNotAccepted 0x054) := by decide

theorem test_decode_commands :
    decodeTableWord 32 0b0001_0000000000000000000000000000 = some (.snap 0 0) ∧
    decodeTableWord 32 0b0010_1111_000000000000000000000001 = some (.read 0 0xF 1) ∧
    decodeTableWord 32 0b0011_00000000000011111111_00001000 = some (.stat 0 0xFF 8) ∧
    decodeTableWord 32 0b0000_0000000000000000000000000001 = some (.cmdRsvd0 0 1) ∧
    decodeTableWord 32 0b01_10_0000000000000000000000001100 = some (.cmdRsvd47 0 2 0xC) ∧
    decodeTableWord 32 0b1_110_0000000000000000000000000001 = some (.cmdRsvd8F 0 6 1) := by decide

theorem test_decode_reset_and_internal_steps :
    decodeTableWord 8 1 = some .reset ∧ decodeTableWord 8 0 = some .decode ∧
    (decode ⟨Params.ld19, .push, 0⟩ .internal).toOption = some .push := by decide

/-- Slot 1's distance bytes stand at offsets 9 and 10, its intensity at 11 (R52). -/
theorem test_decode_wire_frame :
    (decode ⟨Params.ld19, .hunt, 0⟩ (.frame ex1)).toOption =
      some (.wireFrame ⟨0, 1000, 0, Vector.replicate 12 ⟨1000, 100⟩, 830, 0, 6⟩) ∧
    (decode ⟨Params.ld19, .hunt, 0⟩ (.frame ([0x54] ++ List.replicate 8 0 ++ [0x34, 0x12, 0x56] ++
      List.replicate 35 0))).toOption.map (fun i => match i with | .wireFrame f => some f.slots[1] | _ => none) =
      some (some ⟨0x1234, 0x56⟩) := by decide

/-! ## Frame synchronizer (V-SYNC) -/

theorem test_hunt_marker : next (exec .huntMarker State.reset) fun t =>
    t.wstate == .collect && t.nb == 1 && t.fb == [(0, 0x54)] := by decide

theorem test_hunt_skip : next (exec (.huntSkip 0xAA) State.reset) fun t =>
    t.wstate == .hunt && t.bytesDiscarded == 1 && t.lastError == .none := by decide

theorem test_hunt_timeout : next (exec (.huntTimeout 0xFF) State.reset) fun t =>
    t.wstate == .hunt && t.timeouts == 1 && t.lastError == .transportTimeout && t.framesPartial == 0 := by decide

theorem test_reserved_kind_in_hunt : next (exec (.srcRsvd 0) State.reset) fun t =>
    t.wstate == .hunt && t.timeouts == 1 && t.lastError == .transportTimeout := by decide

theorem test_closed_in_hunt : next (exec (.closed 0) State.reset) fun t =>
    t.wstate == .closed && t.lastError == .transportClosed := by decide

/-- V-SYNC-6: a marker byte inside a candidate is a byte like any other. -/
theorem test_collect_byte : next (exec (.collectByte 0x54) (collecting 1)) fun t =>
    t.wstate == .collect && t.nb == 2 && t.fb == [(0, 0x54), (1, 0x54)] := by decide

theorem test_collect_timeout : next (exec (.collectTimeout 0) (collecting 20)) fun t =>
    t.wstate == .hunt && t.nb == 0 && t.timeouts == 1 && t.framesPartial == 1 &&
      t.lastError == .frameMisaligned := by decide

theorem test_reserved_kind_in_collect : next (exec (.srcRsvd 0) (collecting 1)) fun t =>
    t.wstate == .hunt && t.nb == 0 && t.timeouts == 1 && t.framesPartial == 1 &&
      t.lastError == .frameMisaligned := by decide

/-- V-SYNC-10: a candidate dropped at the end of the stream is not counted. -/
theorem test_closed_in_collect : next (exec (.closed 0) (collecting 46)) fun t =>
    t.wstate == .closed && t.nb == 0 && t.lastError == .transportClosed && t.framesPartial == 0 := by decide

theorem test_collect_last : next (exec (.collectLast 0x06) (collecting 46)) fun t =>
    t.wstate == .decode && t.nb == 47 && Memory.read t.fb 46 == some 0x06 := by decide

/-- V-SYNC-12: the word stays with the source. -/
theorem test_event_in_closed : next (step { stopped with srcQ := [.word 0x054], sched := [.source] }) fun t =>
    t.wstate == .closed && t.srcQ == [.word 0x054] && t.bytesDiscarded == 0 := by decide

theorem test_wire_frame_queues_its_bytes :
    next (exec (.wireFrame (frameOf (byteFn ex1))) State.reset) fun t =>
      t.srcQ.length == 47 && t.srcQ[0]? == some (.word 0x054) && t.srcQ[2]? == some (.word 0x0E8) &&
        t.srcQ[43]? == some (.word 0x003) && t.srcQ[46]? == some (.word 0x006) := by decide

/-- `src FRAME` of V-EX1's fields: with nothing given it is V-EX1, and with `marker=0x00` its first byte is 00 and its
checksum, of the 46 bytes from there, 1E (computed by R77 outside Lean). -/
theorem test_frame_lines :
    frameLines Params.ld19 none none (frameOf (byteFn ex1)) = bytesLines ex1 ∧
    frameLines Params.ld19 (some 0x00) none (frameOf (byteFn ex1)) =
      bytesLines (0x00 :: (ex1.drop 1).take 45 ++ [0x1E]) := by decide +kernel

/-! ## Packet decoder (V-CRC, V-DEC, V-ANG) -/

theorem test_crc : crc8 Params.ld19 (ex1.take 46) = 0x06 ∧ crc8 Params.ld19 [0x54, 0x00] = 0x4C ∧
    crc8 Params.ld19 [0xFF] = 0xA8 ∧ crc8 { Params.ld19 with crcInit := 0xFF } [0x54] = 0x46 := by decide +kernel

theorem test_decode_accepts : next (exec .decode (decoding ex1)) fun t =>
    t.wstate == .push && t.slot == 0 && t.framesOk == 1 && t.metaValid == 1 && t.metaSpeed == 1000 &&
      t.metaEnd == 830 && t.metaCrc == 0x06 && t.framesCrcBad == 0 := by decide +kernel

theorem test_decode_rejects : next (exec .decode (decoding ex1Bad)) fun t =>
    t.wstate == .hunt && t.framesOk == 0 && t.framesCrcBad == 1 && t.lastError == .checksumMismatch &&
      t.metaValid == 0 && t.pushes == 0 := by decide +kernel

/-- V-ANG-9, and V-ANG-6's kind of raw value: 65535 mod 36000 = 29535. -/
theorem test_angle_codes : angleCode 35999 0 0 = 395989 ∧ angleCode 35999 0 1 = 395990 ∧
    angleCode 35999 0 11 = 0 ∧ angleCode 0 830 11 = 9130 ∧ angleCode 65535 0 0 = 11 * 29535 := by decide

/-! ## Projector (95_test_vectors.md section 6) -/

theorem test_projection : project .reference .x 1000 9130 = 253319 ∧ project .reference .y 1000 9130 = 36955 ∧
    project .reference .x 65535 148500 = -11863102 ∧ project .reference .y 1000 395999 = -4 := by decide

theorem test_point_word : pointWord .reference 300 165000 7 = 0x07_00009600_FFFEFC31 := by decide

/-! ## Ring (V-RING) -/

/-- V-RING: slot 0 of a one-point frame, into a full ring of 4, overwrites the oldest entry. -/
theorem test_push_into_a_full_ring : next (exec .push fullPushing) fun t =>
    Memory.read t.ram 0 == some (flat 7000 70) && t.head == Reg.ofNat 2 1 && t.count == 4 && t.pushes == 5 &&
      t.ports.map (·.since) == [1, 1] && t.slot == 1 && t.wstate == .push := by decide

/-- Slot 11 of V-EX1 stands at the end angle, 8.30 degrees: the point of (1000, 9130) in section 6's table. -/
theorem test_push_at_the_end_angle : next (exec .push (pushing ex1 11)) fun t =>
    Memory.read t.ram 0 == some 0x64_0000905B_0003DD87 && t.head == Reg.ofNat 13 1 && t.wstate == .hunt := by decide

theorem test_push_of_distance_zero_ends_the_frame : next (exec .push (pushing onePoint 11)) fun t =>
    t.wstate == .hunt && t.slot == 0 && t.samplesZero == 1 && t.pushes == 0 && t.ram == [] := by decide

/-! ## Commands (V-CMD, V-STAT, V-STALE, V-HAZ-4) -/

theorem test_snap : next (exec (.snap 1 0xABCD) full) fun t =>
    rspAt t 1 == some ⟨true, true, 4, 4, 0⟩ && (portAt t 1).countL == 4 && rspAt t 0 == none := by decide

theorem test_read_valid : next (exec (.read 0 0xF 1) halfFull) fun t =>
    rspAt t 0 == some ⟨true, true, 51200, 0, 2⟩ := by decide

/-- V-STALE-1, SINCE = 1: entry 0 is stale, and entry 4 is out of range. -/
theorem test_read_stale_and_out_of_range :
    next (exec (.read 0 0 0) (onPort 0 (fun q => { q with since := 1 }) full)) (fun t =>
      rspAt t 0 == some ⟨true, false, 0, 0, 0⟩) ∧
    next (exec (.read 0 0 4) full) (fun t => rspAt t 0 == some ⟨true, false, 0, 0, 0⟩) := by decide

theorem test_stat : next (exec (.stat 0 0xFF 0x08) { State.reset with wstate := .push, slot := 5 }) fun t =>
    rspAt t 0 == some ⟨true, true, 0x00050003, 0, 0⟩ := by decide

theorem test_stat_undefined : next (exec (.stat 0 0 0x05) State.reset) fun t =>
    rspAt t 0 == some ⟨false, false, 0, 0, 0⟩ := by decide

theorem test_reserved_commands :
    next (exec (.cmdRsvd0 0 0) State.reset) (fun t => rspAt t 0 == some ⟨false, false, 0, 0, 0⟩) ∧
    next (exec (.cmdRsvd47 0 0 0xC) State.reset) (fun t => rspAt t 0 == some ⟨false, false, 0, 0, 0⟩) ∧
    next (exec (.cmdRsvd8F 0 7 0xFFFFFFF) State.reset) (fun t => rspAt t 0 == some ⟨false, false, 0, 0, 0⟩) := by
  decide

/-! ## Reset (V-RST) -/

/-- V-RST-1's kind: RESET in PUSH, with points in the ring. -/
theorem test_reset : next (exec .reset fullPushing) fun t =>
    t.wstate == .hunt && t.count == 0 && t.pushes == 0 && t.head == Reg.ofNat 2 0 && t.fb == [] && t.ram == full.ram &&
      t.ports.map (·.countL) == [0, 0] := by decide

theorem test_reset_leaves_closed : next (step { stopped with sched := [.host 1#1] }) fun t =>
    t.wstate == .hunt && t.lastError == .none := by decide

/-! ## Table words (log entry 4): placed, and run by the next step -/

theorem test_table_words_run :
    next (step (State.reset.withFetchWord 16 0x054)) (fun t => t.wstate == .collect && t.srcQ == []) ∧
    next (step (State.reset.withFetchWord 32 0x30000000)) (fun t => rspAt t 0 == some ⟨true, true, 0x1388, 0, 0⟩) ∧
    next (step (State.reset.withFetchWord 8 1)) (fun t => t.epoch == 1) ∧
    next (step (State.reset.withFetchWord 376 0x54)) (fun t => t.srcQ.length == 47) := by decide

/-! ## Invariant: concrete states that meet it -/

theorem inv_full : Inv full where
  params := by decide
  ports := by decide
  fbForm := by decide
  ramForm := by decide
  width := by decide
  count_le := by decide
  head_lt := by decide
  head_eq := by decide
  latches := by
    intro q hq
    simp only [full, List.mem_cons, List.not_mem_nil, or_false] at hq
    rcases hq with rfl | rfl <;> exact ⟨by decide, by decide, by decide, by decide, by decide⟩
  sequencer := ⟨by decide, by decide⟩
  marker := by decide
  held := by decide
  stored := by decide

theorem inv_fullPushing : Inv fullPushing :=
  { inv_full with
    latches := fun q hq => ⟨(inv_full.latches q hq).count_le, (inv_full.latches q hq).width,
      (inv_full.latches q hq).head_lt, (inv_full.latches q hq).since_le, (inv_full.latches q hq).head_eq⟩
    fbForm := by decide
    sequencer := ⟨by decide, by decide⟩
    marker := by decide
    held := by decide }

theorem inv_decoding : Inv (decoding ex1) where
  params := by decide
  ports := by decide
  fbForm := by decide
  ramForm := by decide
  width := by decide
  count_le := by decide
  head_lt := by decide
  head_eq := by decide
  latches := by
    intro q hq
    obtain rfl : q = Port.reset Params.ld19 := by simpa [decoding, State.reset] using (List.mem_replicate.1 hq).2
    exact ⟨by decide, by decide, by decide, by decide, by decide⟩
  sequencer := ⟨by decide, by decide⟩
  marker := by decide
  held := by decide
  stored := by
    intro i _ h
    exact absurd h (by simp [decoding, State.reset, Params.ld19])

/-! ## Witnesses: for each statement with hypotheses, states and operands that meet all of them -/

/-- A source word offered, or not: `s` with this turn and these events. -/
def offering (s : State) (w : SrcWord) : State := { s with srcQ := [.word w], sched := [.source] }

/-- `full`, with `n` pushes since port 0's snapshot. -/
def fullSince (n : BitVec 25) : State := onPort 0 (fun q => { q with since := n }) full

/-- Each row, in a writer state that enables it. -/
theorem witness_DecodingAnEncodedInstructionGivesItBack :
    (∀ i ∈ [Instr.huntMarker, .huntSkip 0xFF, .huntTimeout 0xFF, .closed 0xFF, .srcRsvd 0xFF, .snap 0 0xFFFFFFF,
        .read 0 0xF 0xFFFFFF, .stat 0 0xFFFFF 0xFF, .cmdRsvd0 0 0, .cmdRsvd47 0 3 0, .cmdRsvd8F 0 7 0, .reset,
        .wireFrame (frameOf (byteFn ex1))],
      i.wf Params.ld19 = true ∧ i.enabledIn .hunt 0 = true) ∧
    (∀ i ∈ [Instr.collectByte 0x54, .collectTimeout 0, .closed 0, .srcRsvd 0],
      i.wf Params.ld19 = true ∧ i.enabledIn .collect 45 = true) ∧
    (Instr.collectLast 0).enabledIn .collect 46 = true ∧ Instr.decode.enabledIn .decode 47 = true ∧
    Instr.push.enabledIn .push 0 = true ∧ (Instr.srcNotAccepted 0x3FF).enabledIn .closed 0 = true := by decide

theorem witness_EncodingADecodedWordGivesItBack :
    decode ⟨Params.ld19, .collect, 46⟩ (.src 0x0FF#10) = .ok (.collectLast 0xFF) := by rfl

theorem witness_StepRunsTheDecodedInstruction :
    offered (offering State.reset 0x054) (turnOf (offering State.reset 0x054)) = some (.src 0x054) ∧
    decode (ctxOf (offering State.reset 0x054)) (.src 0x054) = .ok .huntMarker := ⟨rfl, rfl⟩

/-- A source with nothing to offer, and a writer with no internal step. -/
theorem witness_StepWaitsWhereNoStepIsEnabled :
    offered { State.reset with sched := [.source] } .source = none ∧
    offered State.reset (turnOf State.reset) = some .internal ∧
    decode (ctxOf State.reset) .internal = .error .noInternalStep := ⟨rfl, rfl, rfl⟩

theorem witness_TableWordRunsNext :
    State.reset.params.marker = Params.ld19.marker ∧ 0 < State.reset.params.ports ∧ 0 < State.reset.ports.length ∧
    decodeTableWord 32 0x20000000 = some (.read 0 0 0) := by decide

theorem witness_OneEventIsTakenWhenRequested :
    (offering (collecting 46) 0x006).sched = [.source] ∧ (collecting 46).nb.toNat ≤ 46 ∧
    next (step (offering (collecting 46) 0x006)) (fun t => t.srcQ == []) ∧
    next (step (offering stopped 0x006)) (fun t => t.srcQ == [.word 0x006]) := by decide

theorem witness_HuntMarkerStartsACandidate : State.reset.wstate = .hunt := rfl

theorem witness_HuntSkipCountsTheByte : State.reset.wstate = .hunt := rfl

theorem witness_ClosedStopsTheWriter : State.reset.wstate = .hunt ∧ (collecting 46).wstate = .collect := ⟨rfl, rfl⟩

theorem witness_HuntTimeoutCounts : State.reset.wstate = .hunt := rfl

theorem witness_CollectByteAppends : (collecting 45).wstate = .collect ∧ (collecting 45).nb.toNat < 46 := by decide

theorem witness_CollectLastCompletes : (collecting 46).wstate = .collect ∧ (collecting 46).nb.toNat = 46 := by decide

theorem witness_CollectTimeoutDropsTheCandidate : (collecting 1).wstate = .collect := rfl

theorem witness_ReservedKindActsAsTimeout : State.reset.wstate = .hunt ∧ (collecting 1).wstate = .collect := ⟨rfl, rfl⟩

theorem witness_UnservedEventStaysWithTheSource :
    (offering (decoding ex1) 0x054).wstate = .decode ∧ (offering fullPushing 0x054).wstate = .push ∧
    (offering stopped 0x054).wstate = .closed ∧ (offering stopped 0x054).sched = [.source] ∧
    (offering stopped 0x054).srcQ = [.word 0x054] := by decide

theorem witness_DecodeAcceptsAMatchingFrame :
    (decoding ex1).wstate = .decode ∧ (decoding ex1).nb = 47 ∧ fbRead (decoding ex1) 0 = Params.ld19.marker ∧
    crc8 Params.ld19 (fbPrefix (decoding ex1) 46) = fbRead (decoding ex1) 46 := by decide +kernel

theorem witness_DecodeRejectsAMismatch :
    (decoding ex1Bad).wstate = .decode ∧ (decoding ex1Bad).nb = 47 ∧ fbRead (decoding ex1Bad) 0 = Params.ld19.marker ∧
    crc8 Params.ld19 (fbPrefix (decoding ex1Bad) 46) ≠ fbRead (decoding ex1Bad) 46 := by decide +kernel

/-- 46 bytes, a wrong first byte; and for the second clause a state that meets the invariant. -/
theorem witness_DefensiveCheckActsAsAMismatch :
    ({ decoding ex1 with nb := 46 } : State).nb ≠ 47 ∧ fbRead (decoding (0 :: ex1.tail)) 0 ≠ Params.ld19.marker ∧
    Inv (decoding ex1) := ⟨by decide, by decide, inv_decoding⟩

/-- A change of the marker, of the last byte the checksum covers, and of the checksum. -/
theorem witness_OneChangedByteIsAlwaysRejected :
    (decoding ex1).params.crcPoly.getLsbD 0 = true ∧
    ∀ j ∈ [0, 1, 45, 46], j < 47 ∧ (0xAA : Byte) ≠ fbRead (decoding ex1) j := by decide

/-- The last slot: 11 times 8.30 degrees in centidegrees (R83's example). -/
theorem witness_SlotAnglesSpanStartToEnd : (11 : Nat) ≤ 11 ∧ slotAngle (decoding ex1) 11 = 9130 := by decide

theorem witness_ProjectionIsFaithful : 1 ≤ (65535 : Nat) ∧ (65535 : Nat) ≤ 65535 ∧ (395999 : Nat) < 396000 := by decide

theorem witness_ReferenceProjectionIsWithinHalfAUnit : 1 ≤ (1 : Nat) ∧ (1 : Nat) ≤ 65535 ∧ (1 : Nat) < 396000 := by
  decide

theorem witness_ExactAnglesAreExact : 1 ≤ (65535 : Nat) ∧ (65535 : Nat) ≤ 65535 := by decide

theorem witness_PointWordHoldsThePoint : 1 ≤ (65535 : Nat) ∧ (65535 : Nat) ≤ 65535 ∧ (148500 : Nat) < 396000 := by decide

/-- Slot 0 into a full ring, and slot 11 of a frame. -/
theorem witness_PushWritesThePoint :
    (fullPushing.wstate = .push ∧ fullPushing.slot.toNat ≤ 11 ∧ distOf (fbRead fullPushing) fullPushing.slot.toNat ≠ 0 ∧
      fullPushing.head.toNat < fullPushing.params.capacity ∧ fullPushing.params.capacity ≤ 2 ^ 24) ∧
    ((pushing ex1 11).wstate = .push ∧ (pushing ex1 11).slot.toNat = 11 ∧ distOf (fbRead (pushing ex1 11)) 11 ≠ 0 ∧
      (pushing ex1 11).head.toNat < (pushing ex1 11).params.capacity) := by decide

theorem witness_PushSkipsZeroDistance :
    (∀ i ∈ [1, 10, 11], (pushing onePoint i).slot.toNat ≤ 11 ∧
      distOf (fbRead (pushing onePoint i)) (pushing onePoint i).slot.toNat = 0) ∧
    (pushing onePoint 11).wstate = .push := by decide

theorem witness_EveryPointHasADistanceAndAnAngle :
    next (exec .push fullPushing) (fun t => t.ram != fullPushing.ram) := by decide

theorem witness_AccessesOutsideRingOrFrameStop :
    ((pushing ex1 12).wstate = .push ∧ 11 < (pushing ex1 12).slot.toNat) ∧
    (({ fullPushing with head := Reg.ofNat 3 4 } : State).params.capacity ≤ (Reg.ofNat 3 4).toNat ∧
      faults (exec .push { fullPushing with head := Reg.ofNat 3 4 }) (.ramIndex 4)) := by decide

/-- A full ring, and one that is not. -/
theorem witness_RingWriteEvictsOnlyTheOldest :
    Inv full ∧ full.count.toNat = full.params.capacity ∧ halfFull.count.toNat < halfFull.params.capacity :=
  ⟨inv_full, by decide, by decide⟩

theorem witness_RingHoldsTheNewestPushes :
    Params.ld19.legal ∧ tiny.legal ∧ ({ tiny with capacity := 1 } : Params).legal ∧
    ({ tiny with capacity := 2 ^ 24 } : Params).legal := by decide

theorem witness_SnapLatchesTheRing : full.ports[1]? = some (Port.reset tiny) := rfl

/-- The newest entry, at the last SINCE at which it is valid (V-STALE-1). -/
theorem witness_ReadReturnsAValidEntry :
    ∃ q, (fullSince 3).ports[0]? = some q ∧ (3#24).toNat < q.countL.toNat ∧
      q.countL.toNat ≤ (fullSince 3).params.capacity ∧
      q.since.toNat ≤ (fullSince 3).params.capacity - q.countL.toNat + (3#24).toNat :=
  ⟨_, rfl, by decide, by decide, by decide⟩

/-- The first index out of range, and the oldest entry at the first SINCE at which it is stale. -/
theorem witness_ReadOutOfRangeOrStaleIsInvalid :
    (∃ q, full.ports[0]? = some q ∧ q.countL.toNat ≤ full.params.capacity ∧ q.countL.toNat ≤ (4#24).toNat) ∧
    ∃ q, (fullSince 1).ports[0]? = some q ∧ q.countL.toNat ≤ (fullSince 1).params.capacity ∧
      q.since.toNat > (fullSince 1).params.capacity - q.countL.toNat + (0#24).toNat :=
  ⟨⟨_, rfl, by decide, by decide⟩, _, rfl, by decide, by decide⟩

theorem witness_StatAnswersEverySelector :
    full.ports[1]? = some (Port.reset tiny) ∧ full.params.legal ∧ full.params.ports < 2 ^ 32 ∧
    full.head.width = full.params.headBits ∧ (Port.reset tiny).headL.width = full.params.headBits := ⟨rfl, by decide⟩

theorem witness_StatRefusesUndefinedSelectors : full.ports[1]? = some (Port.reset tiny) ∧
    ∀ sel ∈ [(0x05 : Byte), 0x07, 0x0C, 0x0F, 0x17, 0x1F, 0x27, 0x2F, 0x34, 0xFF], sel.toNat ∉ [0x00, 0x01, 0x02, 0x03, 0x04,
      0x08, 0x09, 0x0A, 0x0B, 0x10, 0x11, 0x12, 0x13, 0x14, 0x15, 0x16, 0x20, 0x21, 0x22, 0x23, 0x24, 0x25, 0x26, 0x30,
      0x31, 0x32, 0x33] := ⟨rfl, by decide⟩

theorem witness_ReservedCommandsAreRefused : full.ports[1]? = some (Port.reset tiny) ∧
    Instr.cmdRsvd47 1 3 0 ∈ [Instr.cmdRsvd0 1 0, .cmdRsvd47 1 3 0, .cmdRsvd8F 1 7 0] := ⟨rfl, by decide⟩

theorem witness_ReadAndStatAreIdempotent :
    next (exec (.read 0 0 3) full) (fun t => t.ports.length == 2) ∧
    next (exec (.stat 0 0 0x33) full) (fun t => t.ports.length == 2) := by decide

theorem witness_CommandsReachOnlyTheirPort :
    ∀ i ∈ [Instr.snap 0 0, .read 0 0 0, .stat 0 0 0, .cmdRsvd0 0 0, .cmdRsvd47 0 0 0, .cmdRsvd8F 0 0 0],
      next (exec i full) (fun t => (rspAt t 0).isSome) := by decide

theorem witness_ReadAfterSnapReturnsTheContent : Inv full ∧ 0 < full.ports.length ∧
    next (exec (.snap 0 0) full) (fun t => (portAt t 0).countL == 4) ∧
    (content full)[3]? = some (flat 400 4) ∧ (content full)[0]? = some (flat 100 1) :=
  ⟨inv_full, by decide, by decide, by decide, by decide⟩

/-- A snapshot, one push, and a READ of the newest entry. -/
theorem witness_ValidReadsReturnTheSnapshot : Inv fullPushing ∧ 0 < fullPushing.ports.length ∧
    next (exec (.snap 0 0) fullPushing) (fun s1 => next (execAll [.push] s1) fun t =>
      next (exec (.read 0 0 3) t) fun u => rspAt u 0 == some (pointRsp (flat 400 4))) :=
  ⟨inv_fullPushing, by decide, by decide⟩

theorem witness_OnlyResetLeavesClosed :
    next (exec (.stat 0 0 0) stopped) (fun t => t.wstate == .closed) ∧ stopped.wstate = .closed := by decide

theorem witness_ParametersNeverChange : next (step State.reset) (fun t => decide (t.params = Params.ld19)) := by decide

theorem witness_ResetStateMeetsTheInvariant : Params.ld19.legal ∧ tiny.legal := by decide

theorem witness_StepKeepsTheInvariant : Inv fullPushing ∧ next (step fullPushing) (fun t => t.slot == 1) :=
  ⟨inv_fullPushing, by decide⟩

theorem witness_StepNeverStops : Inv (decoding ex1) := inv_decoding

/-- `full`'s memory, and one that differs from it in the stale entry 0 alone. -/
def ramBut0 : List (Nat × PointWord) := Memory.write full.ram 0 0

/-- The last byte of a frame held, and the newest entry of a full ring's snapshot at its last valid SINCE; DECODE with a
buffer that differs at offset 47 alone, and a READ with a ring that differs in a stale entry alone. -/
theorem witness_UnspecifiedContentsAreNeverRead :
    (Inv (decoding ex1) ∧ (decoding ex1).wstate = .decode ∧ next (exec .decode (decoding ex1)) (fun _ => true) ∧
      ∀ j < 47, Memory.read (Memory.write (decoding ex1).fb 47 0xFF) j = Memory.read (decoding ex1).fb j) ∧
    (Inv full ∧ next (exec (.snap 0 0) full) (fun _ => true) ∧
      ∃ q, full.ports[0]? = some q ∧ 3 < q.countL.toNat ∧ isStale full.params.capacity q 3 = false) ∧
    next (exec (.read 0 0 3) (fullSince 3)) (fun t => rspAt t 0 == some (pointRsp (flat 400 4))) ∧
    ∀ j < (portAt (fullSince 3) 0).countL.toNat, isStale tiny.capacity (portAt (fullSince 3) 0) j = false →
      Memory.read ramBut0 (physIndex tiny.capacity (portAt (fullSince 3) 0) j) =
        Memory.read (fullSince 3).ram (physIndex tiny.capacity (portAt (fullSince 3) 0) j) := by
  refine ⟨⟨inv_decoding, rfl, by decide +kernel, fun j hj => ?_⟩, ⟨inv_full, by decide, _, rfl, by decide, by decide⟩,
    by decide, by decide⟩
  rw [Memory.read_write, if_neg (by omega)]

theorem witness_OnlyErrorEventsWriteLastError :
    next (exec (.huntTimeout 0) State.reset) (fun t => t.lastError == .transportTimeout) ∧
    next (exec .decode (decoding (0 :: ex1.tail))) (fun t => t.lastError == .checksumMismatch) := by decide

theorem witness_OnlyAcceptWritesMetadata :
    next (exec .decode (decoding ex1)) (fun t => t.metaSpeed == 1000) ∧
    next (exec (.huntSkip 0) State.reset) (fun t => t.metaValid == 0) := by decide +kernel

theorem witness_OnlyPushWritesTheRing :
    next (exec .decode (decoding ex1)) (fun t => t.wstate == .push) ∧
    next (exec .push fullPushing) (fun t => t.pushes == 5) ∧
    next (exec (.snap 0 0) (fullSince 3)) (fun t => (portAt t 0).since == 0) := by decide +kernel

theorem witness_CountersMoveOnlyByTheirRules :
    next (exec (.collectTimeout 0) (collecting 1)) (fun t => t.framesPartial == 1) ∧
    next (exec .push (pushing onePoint 1)) (fun t => t.samplesZero == 1) := by decide

/-- An idle-final and a closed-final state. -/
theorem witness_NothingMovesWhenTheRunIsOver :
    RunOver State.reset ∧ ClosedFinal { stopped with srcQ := [.word 0x054] } := by
  refine ⟨⟨by decide, by decide, ?_, by decide⟩, ⟨by decide, by decide, ?_, by decide⟩, rfl⟩ <;>
  · intro q hq
    obtain rfl := (List.mem_replicate.1 hq).2
    rfl

/-- One cycle of `fullPushing`, RESET asserted or not: the push due overwrites entry 0 of port 0's snapshot, and port 0
has the command `w`. -/
def inCycle (reset : Bool) (w : CmdWord) : State :=
  onPort 0 (fun q => { q with cmds := [w] }) { fullPushing with sched := cycleTurns fullPushing reset }

/-- A READ of that entry and a SNAP, beside the push and in the RESET cycle. -/
theorem witness_PushBeforeReadInOneCycle :
    (∀ (reset : Bool) (w : CmdWord), Inv (inCycle reset w) ∧
      (inCycle reset w).sched = cycleTurns (inCycle reset w) reset ++ [] ∧ (inCycle reset w).wstate = .push ∧
      distOf (fbRead (inCycle reset w)) (inCycle reset w).slot.toNat ≠ 0 ∧
      ∃ q, (inCycle reset w).ports[0]? = some q ∧ q.cmds = [w] ∧ (0#24).toNat < q.countL.toNat ∧
        (inCycle reset w).params.capacity - q.countL.toNat + (0#24).toNat ≤ q.since.toNat) ∧
    decodeCmd 0 0x20000000 = .read 0 0 0 ∧ decodeCmd 0 0x10000000 = .snap 0 0 := by
  refine ⟨fun reset w => ⟨?_, ?_, rfl,
    show distOf (fbRead fullPushing) fullPushing.slot.toNat ≠ 0 by decide, _, rfl, rfl,
    show (0#24).toNat < (4#25).toNat by decide, show 4 - (4#25).toNat + (0#24).toNat ≤ (0#25).toNat by decide⟩,
    by decide, by decide⟩
  · have h : Inv { fullPushing with sched := cycleTurns fullPushing reset } :=
      inv_fullPushing.congr rfl rfl rfl rfl rfl rfl rfl rfl rfl rfl
    exact h.onPort 0 fun _ h => ⟨h.count_le, h.width, h.head_lt, h.since_le, h.head_eq⟩
  · cases reset <;> rfl

/-- The 48 source turns, with a consumer's and a writer's between them; and no schedule. -/
theorem witness_FrameIsCollectedWhole :
    State.reset.wstate = .hunt ∧ State.reset.sched = [] ∧
    ({ State.reset with srcQ := [.frame (frameOf (byteFn ex1))] } : State).srcQ = [.frame (frameOf (byteFn ex1))] ∧
    ((.consumer 0 :: .writer :: List.replicate 47 .source : List Turn).count .source = 47 ∧
      Turn.host 1#1 ∉ (.consumer 0 :: .writer :: List.replicate 47 .source : List Turn)) :=
  ⟨rfl, rfl, rfl, by decide⟩

/-- The 12 writer turns, with a consumer's, a source's and an idle host's between them; and no schedule. -/
theorem witness_AcceptedFrameIsPushedWhole :
    Inv fullPushing ∧ fullPushing.wstate = .push ∧ fullPushing.slot = 0 ∧ fullPushing.sched = [] ∧
    ((.consumer 0 :: .source :: .host 0 :: List.replicate 11 .writer : List Turn).count .writer = 11 ∧
      Turn.host 1#1 ∉ (.consumer 0 :: .source :: .host 0 :: List.replicate 11 .writer : List Turn)) :=
  ⟨inv_fullPushing, rfl, rfl, rfl, by decide⟩

end Sys2Proof.Tests
end

/-! PROOFS. The scope's statements (00_scope.md): where a frame's fields stand, what a step runs, and one clock cycle. -/

namespace Sys2Proof.Machine

open Safety

/-! ## What an instruction and a step keep -/

section Keeps

variable {s t : State} {i : Instr}

theorem Effect.keeps_params (e : Effect s i t) : t.params = s.params := by
  cases e with
  | pushZero => simp
  | pushPoint => simp [afterRingWrite]
  | _ => rfl

theorem Effect.keeps_sched (e : Effect s i t) : t.sched = s.sched := by
  cases e with
  | pushZero => simp
  | pushPoint => simp [afterRingWrite]
  | _ => rfl

theorem Effect.keeps_ports_length (e : Effect s i t) : t.ports.length = s.ports.length := by
  cases e with
  | pushPoint => simp [afterRingWrite]
  | _ => simp [respond, timeoutInHunt, timeoutInCollect, transportClosed, acceptFrame, rejectFrame]

/-- A step that completes passes the turn, or runs an instruction with the turn and the word taken. -/
theorem step_cases (h : step s = .next t) :
    t = afterTurn s ∨ ∃ i, exec i (consume (turnOf s) i (afterTurn s)) = .next t := by
  unfold step at h
  split at h
  next i u hf =>
    obtain ⟨hn, -⟩ | ⟨w, j, -, -, hj, rfl⟩ := fetch_cases hf
    · cases hn
    · cases hj
      exact .inr ⟨i, h⟩
  next u hf =>
    obtain ⟨-, rfl⟩ | ⟨w, j, -, -, hj, -⟩ := fetch_cases hf
    · exact .inl (Host.Outcome.next.inj h).symm
    · cases hj

theorem consume_params (τ : Turn) (i : Instr) (s : State) : (consume τ i s).params = s.params := by
  obtain h | h | ⟨p, h⟩ := consume_cases τ i s <;> simp [h]

theorem consume_sched (τ : Turn) (i : Instr) (s : State) : (consume τ i s).sched = s.sched := by
  obtain h | h | ⟨p, h⟩ := consume_cases τ i s <;> simp [h]

theorem consume_ports_length (τ : Turn) (i : Instr) (s : State) :
    (consume τ i s).ports.length = s.ports.length := by
  obtain h | h | ⟨p, h⟩ := consume_cases τ i s <;> simp [h]

/-- Only a consumer's turn takes anything from a port. -/
theorem consume_ports {τ : Turn} (hτ : ∀ p, τ ≠ .consumer p) (i : Instr) (s : State) :
    (consume τ i s).ports = s.ports := by
  cases τ with
  | consumer p => exact absurd rfl (hτ p)
  | source => cases i <;> rfl
  | _ => rfl

theorem step_keeps_params (h : step s = .next t) : t.params = s.params := by
  obtain rfl | ⟨i, hi⟩ := step_cases h
  · rfl
  · rw [(exec_effect hi).keeps_params, consume_params, afterTurn_params]

/-- Every step takes exactly its own turn from the schedule. -/
theorem step_sched (h : step s = .next t) : t.sched = s.sched.tail := by
  obtain rfl | ⟨i, hi⟩ := step_cases h
  · rfl
  · rw [(exec_effect hi).keeps_sched, consume_sched, afterTurn_sched]

theorem step_keeps_ports_length (h : step s = .next t) : t.ports.length = s.ports.length := by
  obtain rfl | ⟨i, hi⟩ := step_cases h
  · rfl
  · rw [(exec_effect hi).keeps_ports_length, consume_ports_length, afterTurn_ports]

/-- A step of another agent than the consumers keeps every port's pending commands. -/
theorem step_keeps_cmds (hτ : ∀ p, turnOf s ≠ .consumer p) (h : step s = .next t) {p : Nat} {q : Port}
    (hq : s.ports[p]? = some q) : ∃ q', t.ports[p]? = some q' ∧ q'.cmds = q.cmds := by
  obtain rfl | ⟨i, hi⟩ := step_cases h
  · exact ⟨q, hq, rfl⟩
  · exact (exec_effect hi).keeps_cmds (by rwa [consume_ports hτ, afterTurn_ports])

end Keeps

/-! ## Where the invariant holds, no instruction stops (R113, R134) -/

/-- The state after a PUSH inside the frame and the ring (R96). -/
def afterPush (s : State) : State :=
  nextSlot (if distOf (fbRead s) s.slot.toNat = 0 then { s with samplesZero := s.samplesZero + 1 }
    else afterRingWrite (slotPoint s s.slot.toNat) s)

section Completes

variable {s : State}

theorem afterPush_of_zero (hd : distOf (fbRead s) s.slot.toNat = 0) :
    afterPush s = nextSlot { s with samplesZero := s.samplesZero + 1 } := by
  rw [afterPush, if_pos hd]

theorem afterPush_of_point (hd : distOf (fbRead s) s.slot.toNat ≠ 0) :
    afterPush s = nextSlot (afterRingWrite (slotPoint s s.slot.toNat) s) := by
  rw [afterPush, if_neg hd]

theorem nextSlot_withSched (s : State) (us : List Turn) :
    nextSlot { s with sched := us } = { nextSlot s with sched := us } := by
  unfold nextSlot
  split <;> rfl

/-- PUSH does not read the schedule. -/
theorem afterPush_withSched (s : State) (us : List Turn) :
    afterPush { s with sched := us } = { afterPush s with sched := us } := by
  by_cases hd : distOf (fbRead s) s.slot.toNat = 0
  · rw [afterPush_of_zero hd]
    exact (afterPush_of_zero (s := { s with sched := us }) hd).trans
      (nextSlot_withSched { s with samplesZero := s.samplesZero + 1 } us)
  · rw [afterPush_of_point hd]
    exact (afterPush_of_point (s := { s with sched := us }) hd).trans
      (nextSlot_withSched (afterRingWrite (slotPoint s s.slot.toNat) s) us)

theorem afterPush_sched (s : State) : (afterPush s).sched = s.sched := by
  unfold afterPush
  split <;> simp [afterRingWrite]

theorem slot_le_of_push (h : Inv s) (hw : s.wstate = .push) : s.slot.toNat ≤ 11 := by
  have := h.sequencer
  simp only [SequencerOk, hw] at this
  exact this.2

theorem exec_push_of_inv (h : Inv s) (hw : s.wstate = .push) : exec .push s = .next (afterPush s) := by
  rw [exec, execPush, if_pos hw, if_pos (slot_le_of_push h hw), ringWrite_ok _ h.head_lt, afterPush]
  split <;> rfl

/-- A meaning of the form "its effect in its own states, else nothing" completes. -/
theorem guarded_completes {c : Prop} [Decidable c] (t s : State) :
    ∃ u, (if c then Host.Outcome.next t else .next s : Result) = .next u := by
  split <;> exact ⟨_, rfl⟩

theorem execRead_completes (h : Inv s) (p : Nat) (g : BitVec 4) (k : BitVec 24) :
    ∃ t, execRead p g k s = .next t := by
  have hm : physIndex s.params.capacity (portAt s p) k.toNat < s.params.capacity := Nat.mod_lt _ h.params.1
  unfold execRead
  rw [memRead, if_pos hm]
  exact guarded_completes _ _

theorem execPush_completes (h : Inv s) : ∃ t, execPush s = .next t := by
  by_cases hw : s.wstate = .push
  · exact ⟨_, exec_push_of_inv h hw⟩
  · exact ⟨s, if_neg hw⟩

theorem exec_completes (h : Inv s) (i : Instr) : ∃ t, exec i s = .next t := by
  cases i with
  | huntMarker => exact guarded_completes _ _
  | huntSkip => exact guarded_completes _ _
  | huntTimeout => exact guarded_completes _ _
  | collectByte => exact guarded_completes _ _
  | collectLast => exact guarded_completes _ _
  | collectTimeout => exact guarded_completes _ _
  | closed => exact guarded_completes _ _
  | srcRsvd g =>
    simp only [exec, execSrcRsvd]
    split <;> exact ⟨_, rfl⟩
  | decode =>
    simp only [exec, execDecode]
    split_ifs <;> exact ⟨_, rfl⟩
  | push => exact execPush_completes h
  | read p g k => exact execRead_completes h p g k
  | stat p g sel =>
    simp only [exec, execStat]
    split <;> exact ⟨_, rfl⟩
  | _ => exact ⟨_, rfl⟩

theorem step_completes (h : Inv s) : ∃ t, step s = .next t := by
  unfold step
  split
  next i u hf =>
    obtain ⟨hn, -⟩ | ⟨w, j, -, -, -, rfl⟩ := fetch_cases hf
    · cases hn
    · exact exec_completes (h.consume (turnOf s) j) i
  next => exact ⟨_, rfl⟩

end Completes

/-! ## The turns of one cycle -/

section Cycle

variable {s : State} {reset : Bool} {ts : List Turn}

/-- A cycle is one turn of the host, the source or the writer, and then every consumer's. -/
theorem cycleTurns_cons (s : State) (reset : Bool) :
    ∃ τ, (∀ p, τ ≠ .consumer p) ∧ cycleTurns s reset = τ :: (List.range s.params.ports).map .consumer := by
  unfold cycleTurns
  split_ifs
  · exact ⟨.host 1#1, nofun, rfl⟩
  · exact ⟨.source, nofun, rfl⟩
  · exact ⟨.writer, nofun, rfl⟩

theorem cycleTurns_reset (s : State) :
    cycleTurns s true = .host 1#1 :: (List.range s.params.ports).map .consumer := rfl

theorem cycleTurns_push (hw : s.wstate = .push) :
    cycleTurns s false = .writer :: (List.range s.params.ports).map .consumer := by
  simp [cycleTurns, requests, hw]

/-- One cycle: the first turn's step leaves `t` with every port's commands as they were, and each port is then served
once, on `t`. -/
theorem run_cycle (h : Inv s) (hs : s.sched = cycleTurns s reset ++ ts) :
    ∃ t u, step s = .next t ∧ Sys2Proof.core.run (1 + s.params.ports) s = .next u ∧
      u = { t with ports := u.ports, sched := ts } ∧
      ∀ (p : Nat) (q : Port), s.ports[p]? = some q →
        ∃ q', t.ports[p]? = some q' ∧ q'.cmds = q.cmds ∧ u.ports[p]? = some (servePort t q') := by
  obtain ⟨τ, hτ, hc⟩ := cycleTurns_cons s reset
  rw [hc, List.cons_append] at hs
  obtain ⟨t, ht⟩ := step_completes h
  have hpar : t.params = s.params := step_keeps_params ht
  have hlen : t.ports.length = t.params.ports := by rw [step_keeps_ports_length ht, h.ports, hpar]
  have hsched : t.sched = (List.range' 0 s.params.ports).map .consumer ++ ts := by
    rw [step_sched ht, hs, ← List.range_eq_range']
    rfl
  obtain ⟨u, hrun, hu, -, hserved⟩ :=
    run_consumers t ts s.params.ports 0 t rfl hsched (by rw [hpar]; omega) hlen fun _ _ => rfl
  refine ⟨t, u, ht, by rw [Nat.add_comm, core_run_succ _ ht, hrun], hu, fun p q hq => ?_⟩
  have hp : p < s.params.ports := h.ports ▸ (List.getElem?_eq_some_iff.1 hq).1
  obtain ⟨q', hq', hcmds⟩ := step_keeps_cmds (by rwa [turnOf_cons hs]) ht hq
  exact ⟨q', hq', hcmds, by rw [hserved p (Nat.zero_le p) (by omega), hq', Option.map_some]⟩

theorem servePort_cons {t : State} {q : Port} {w : CmdWord} {ws : List CmdWord} (h : q.cmds = w :: ws) :
    servePort t q = { answerCmd t w q with cmds := ws } := by
  simp [servePort, h]

/-! ## The writer's part of a cycle -/

/-- RESET does not read the schedule, and keeps it. -/
theorem exec_reset_withSched {t : State} {us : List Turn} (h : exec .reset { s with sched := us } = .next t) :
    exec .reset s = .next { t with sched := s.sched } := by
  obtain rfl := Host.Outcome.next.inj h
  rfl

/-- What RESET leaves of the fields a SNAP answers from, and of the source's events (R34, R122). -/
theorem exec_reset_fields {t : State} {us : List Turn} (h : exec .reset s = .next { t with sched := us }) :
    t.count = 0 ∧ t.pushes = 0 ∧ t.srcQ = s.srcQ := by
  have ht := Host.Outcome.next.inj h
  exact ⟨(congrArg State.count ht).symm, (congrArg State.pushes ht).symm, (congrArg State.srcQ ht).symm⟩

/-- The first step of a RESET cycle is RESET. -/
theorem cycle_reset_step {t : State} (hs : s.sched = cycleTurns s true ++ ts) (ht : step s = .next t) :
    exec .reset s = .next { t with sched := s.sched } := by
  rw [cycleTurns_reset, List.cons_append] at hs
  exact exec_reset_withSched (step_host_high hs ▸ ht)

/-- The first step of a cycle in PUSH is PUSH. -/
theorem cycle_push_step {t : State} (h : Inv s) (hw : s.wstate = .push) (hs : s.sched = cycleTurns s false ++ ts)
    (ht : step s = .next t) : { t with sched := s.sched } = afterPush s := by
  rw [cycleTurns_push hw, List.cons_append] at hs
  have hpush : ∀ us, exec .push { s with sched := us } = .next (afterPush { s with sched := us }) := fun us =>
    exec_push_of_inv (h.congr rfl rfl rfl rfl rfl rfl rfl rfl rfl rfl) hw
  rw [step_writer (i := .push) hs (by simp [decode, decodeInternal, ctxOf, hw])] at ht
  obtain rfl := Host.Outcome.next.inj ((hpush _).symm.trans ht)
  rw [afterPush_withSched, ← afterPush_sched s]

/-- The ring and the ports after the first step of a cycle in PUSH, where the slot holds a point (R97). -/
theorem cycle_push_point {t : State} (h : Inv s) (hw : s.wstate = .push)
    (hd : distOf (fbRead s) s.slot.toNat ≠ 0) (hs : s.sched = cycleTurns s false ++ ts) (ht : step s = .next t) :
    t.params = s.params ∧ t.head.toNat = (s.head.toNat + 1) % s.params.capacity ∧
      t.count.toNat = min (s.count.toNat + 1) s.params.capacity ∧ t.pushes = s.pushes + 1 ∧
      t.ports = s.ports.map (bumpSince s.params.capacity) := by
  obtain ⟨hc1, hc2, -⟩ := h.params
  have hafter := (cycle_push_step h hw hs ht).trans (afterPush_of_point hd)
  have hhead := congrArg State.head hafter
  have hcount := congrArg State.count hafter
  have hpushes := congrArg State.pushes hafter
  have hports := congrArg State.ports hafter
  simp only [nextSlot_head, nextSlot_count, nextSlot_pushes, nextSlot_ports] at hhead hcount hpushes hports
  refine ⟨step_keeps_params ht, ?_, ?_, hpushes, hports⟩
  · rw [hhead, afterRingWrite_head _ hc1]
  · rw [hcount, afterRingWrite_count _ hc2]

end Cycle

/-! ## A command's answer -/

section Answers

variable {t : State} {p : Nat} {w : CmdWord}

theorem answerCmd_snap {g : BitVec 28} (hp : p < t.ports.length) (hd : decodeCmd p w = .snap p g) :
    answerCmd t w (portAt t p) = { takeSnapshot t (portAt t p) with
      rsp := some (Rsp.good (t.count.setWidth 32) t.pushes 0) } := by
  have h := exec_command (s := t) p w
  rw [hd, exec, execSnap, respond, onPort_onPort] at h
  have hport := congrArg (portAt · p) (Host.Outcome.next.inj h)
  simp only [portAt_onPort _ hp] at hport
  exact hport.symm

theorem answerCmd_read_stale {g : BitVec 4} {k : BitVec 24} (hp : p < t.ports.length)
    (hd : decodeCmd p w = .read p g k) (hk : isStale t.params.capacity (portAt t p) k.toNat = true) :
    answerCmd t w (portAt t p) = { portAt t p with rsp := some Rsp.stale } := by
  have h := exec_command (s := t) p w
  rw [hd, exec, execRead, if_neg (by simp [hk]), respond] at h
  have hport := congrArg (portAt · p) (Host.Outcome.next.inj h)
  simp only [portAt_onPort _ hp] at hport
  exact hport.symm

end Answers

/-- The entry a push overwrites is stale after it: with SINCE at C − COUNT_L + K or more, entry K of the snapshot is gone
(R104, R127). -/
theorem isStale_bumpSince {c k : Nat} {q : Port} (hc : c ≤ 2 ^ 24) (hle : q.countL.toNat ≤ c)
    (hk : k < q.countL.toNat) (hs : c - q.countL.toNat + k ≤ q.since.toNat) : isStale c (bumpSince c q) k = true := by
  have hsince := bumpSince_since q hc
  have hcount : (bumpSince c q).countL = q.countL := rfl
  simp only [isStale, decide_eq_true_eq, hcount]
  omega

end Sys2Proof.Machine

namespace Sys2Proof.Proofs

open Machine Safety

/-- Settles O4: the fields read back from a frame's bytes are the frame's, and each is read at its offset. -/
theorem frameFieldsStandAtTheirOffsets : Obligations.FrameFieldsStandAtTheirOffsets := by
  intro m f
  have hf : frameOf (byteFn (f.bytes m)) = f := frameOf_bytes m f
  have h0 : byteFn (f.bytes m) 0 = m := byteFn_bytes m f (by omega)
  refine ⟨Frame.bytes_length m f, ?_⟩
  simp only [← le16_toNat, h0]
  refine ⟨trivial, ?_, ?_, ?_, fun i hi => ?_, ?_, ?_, ?_⟩
  · exact congrArg (fun f => f.verlen.toNat) hf
  · exact congrArg (fun f => f.speed.toNat) hf
  · exact congrArg (fun f => f.startAngle.toNat) hf
  · have hslot : (⟨distOf (byteFn (f.bytes m)) i, intensityOf (byteFn (f.bytes m)) i⟩ : Slot) = f.slots[i] := by
      have := congrArg (fun f => f.slots[i]) hf
      simpa [frameOf] using this
    rw [← hslot]
    exact ⟨rfl, rfl⟩
  · exact congrArg (fun f => f.endAngle.toNat) hf
  · exact congrArg (fun f => f.timestamp.toNat) hf
  · exact congrArg (fun f => f.crc.toNat) hf

/-- Settles O6: the step law of a turn whose word decodes. -/
theorem stepRunsTheDecodedInstruction : Obligations.StepRunsTheDecodedInstruction :=
  fun _ _ _ ho hd => step_runs ho hd

/-- Settles O7: a turn with nothing offered, or with a word the decoder rejects, passes. -/
theorem stepWaitsWhereNoStepIsEnabled : Obligations.StepWaitsWhereNoStepIsEnabled := by
  rintro s (ho | ⟨w, e, ho, hd⟩)
  · exact step_waits ho
  · exact step_rejects ho hd

/-- Settles O58: the cycle's first step leaves `t`, on which each port is served once; what a SNAP or a READ answers
there follows from what RESET or PUSH made of the ring and the port. -/
theorem pushBeforeReadInOneCycle : Obligations.PushBeforeReadInOneCycle := by
  intro s reset ts hI hs
  obtain ⟨t, u, ht, hrun, hu, hserved⟩ := run_cycle hI hs
  have hpush : reset = false → s.wstate = .push → { t with sched := s.sched } = afterPush s := fun hr hw =>
    cycle_push_step hI hw (hr ▸ hs) ht
  have hreset : reset = true → exec .reset s = .next { t with sched := s.sched } := fun hr =>
    cycle_reset_step (hr ▸ hs) ht
  refine ⟨t, u, ht, hrun, hu, fun hr => ⟨hreset hr, (exec_reset_fields (hreset hr)).2.2⟩,
    fun hr hw => by rw [exec_push_of_inv hI hw, hpush hr hw], fun p q w ws hq hcmd => ?_⟩
  obtain ⟨q', hq', hcmds, hup⟩ := hserved p q hq
  have hp : p < t.ports.length := (List.getElem?_eq_some_iff.1 hq').1
  obtain rfl := portAt_of_getElem? hq'
  rw [servePort_cons (hcmds.trans hcmd)] at hup
  have hpu := portAt_of_getElem? hup
  refine ⟨⟨_, exec_command p w, by rw [portAt_onPort _ hp, hup]⟩, fun hr g hd => ?_, fun hr hw hdist => ?_⟩
  · obtain ⟨hcount, hpushes, -⟩ := exec_reset_fields (hreset hr)
    rw [hpu, answerCmd_snap hp hd, hcount, hpushes]
    rfl
  · obtain ⟨hparams, hhead, hcount, hpushes, hports⟩ := cycle_push_point hI hw hdist (hr ▸ hs) ht
    refine ⟨(congrArg State.pushes hu).trans hpushes, fun g hd => ?_, fun g k hd hk hsince => ?_⟩
    · have hword : t.count.setWidth 32 = BitVec.ofNat 32 (min (s.count.toNat + 1) s.params.capacity) := by
        rw [← hcount, BitVec.ofNat_toNat]
      rw [hpu, answerCmd_snap hp hd, hword, hpushes]
      exact ⟨hhead, hcount, hpushes, rfl, rfl⟩
    · have hq' : portAt t p = bumpSince s.params.capacity q :=
        portAt_of_getElem? (by rw [hports, List.getElem?_map, hq, Option.map_some])
      have hle : q.countL.toNat ≤ s.params.capacity :=
        (hI.latches q (List.mem_of_getElem? hq)).count_le.trans hI.count_le
      have hstale := isStale_bumpSince hI.params.2.1 hle hk hsince
      rw [hpu, answerCmd_read_stale hp hd (by rw [hparams, hq', hstale])]
      rfl

end Sys2Proof.Proofs

/-! PROOFS. The invariant of 10_state.md R33: it holds at reset, and every step keeps it. -/

namespace Sys2Proof.Safety

open Machine

/-! ## The invariant in halves: the writer's sequencer and frame buffer, the ring and its latches -/

section Halves

variable {s t : State}

/-- A step of the writer that leaves the ring and the ports keeps the ring's half of the invariant, and owes the writer's
half. -/
theorem Inv.withWriter (h : Inv s) (hp : t.params = s.params) (hr : t.ram = s.ram) (hh : t.head = s.head)
    (hc : t.count = s.count) (hq : t.ports = s.ports) (hfb : Memory.wf frameLen t.fb) (hseq : SequencerOk t)
    (hmarker : 0 < heldBytes t → fbRead t 0 = t.params.marker)
    (hheld : ∀ j < heldBytes t, (Memory.read t.fb j).isSome) : Inv t where
  params := hp ▸ h.params
  ports := by rw [hq, hp]; exact h.ports
  fbForm := hfb
  ramForm := by rw [hr, hp]; exact h.ramForm
  width := by rw [hh, hp]; exact h.width
  count_le := by rw [hc, hp]; exact h.count_le
  head_lt := by rw [hh, hp]; exact h.head_lt
  head_eq := by rw [hh, hc, hp]; exact h.head_eq
  latches := fun q hm => by
    obtain ⟨h1, h2, h3, h4, h5⟩ := h.latches q (hq ▸ hm)
    exact ⟨hc ▸ h1, hp ▸ h2, hp ▸ h3, hp ▸ h4, hp ▸ h5⟩
  sequencer := hseq
  marker := hmarker
  held := hheld
  stored := by rw [hr, hp, hc]; exact h.stored

/-- A step of the writer to HUNT or CLOSED, where no byte is held (R14, R15). -/
theorem Inv.dropFrame (h : Inv s) (hp : t.params = s.params) (hr : t.ram = s.ram) (hh : t.head = s.head)
    (hc : t.count = s.count) (hq : t.ports = s.ports) (hf : t.fb = s.fb)
    (hw : t.wstate = .hunt ∨ t.wstate = .closed) (hn : t.nb = 0) (hs : t.slot = 0) : Inv t := by
  have h0 : heldBytes t = 0 := by rcases hw with hw | hw <;> simp [heldBytes, hw]
  have hseq : SequencerOk t := by rcases hw with hw | hw <;> simp [SequencerOk, hw, hn, hs]
  exact h.withWriter hp hr hh hc hq (hf ▸ h.fbForm) hseq (fun hj => by omega) (fun j hj => by omega)

/-- A step of the writer that keeps FB and the bytes held. -/
theorem Inv.keepFrame (h : Inv s) (hp : t.params = s.params) (hr : t.ram = s.ram) (hh : t.head = s.head)
    (hc : t.count = s.count) (hq : t.ports = s.ports) (hf : t.fb = s.fb) (he : t.epoch = s.epoch)
    (hb : heldBytes t = heldBytes s) (hseq : SequencerOk t) : Inv t :=
  h.withWriter hp hr hh hc hq (hf ▸ h.fbForm) hseq (by rw [hb, fbRead_congr hf he, hp]; exact h.marker)
    (by rw [hb, hf]; exact h.held)

/-- A step of the writer that appends byte `b` to the bytes held; the first byte of a candidate is the marker (R15). -/
theorem Inv.appendByte (h : Inv s) {j : Nat} {b : Byte} {w : WState} {n : BitVec 6} (hj : heldBytes s = j)
    (hlt : j < frameLen) (hb : j = 0 → b = s.params.marker) (hheld : heldBytes (goto w n (fbStore j b s)) = j + 1)
    (hseq : SequencerOk (goto w n (fbStore j b s))) : Inv (goto w n (fbStore j b s)) := by
  refine h.withWriter rfl rfl rfl rfl rfl (Memory.write_wf b hlt h.fbForm) hseq (fun _ => ?_) fun k hk => ?_
  · rw [fbRead_goto, fbRead_fbStore]
    split
    · exact hb (Eq.symm ‹0 = j›)
    · exact h.marker (by omega)
  · rw [goto_fb, fbStore_fb, Memory.read_write]
    split
    · rfl
    · exact h.held k (by omega)

/-- A state just reset: nothing is held in the frame buffer, the ring or any latch. RAM may hold bits (R34, R122). -/
theorem Inv.ofReset (hlegal : t.params.legal) (hlen : t.ports.length = t.params.ports)
    (hram : Memory.wf t.params.capacity t.ram) (hfb : t.fb = []) (hw : t.wstate = .hunt) (hn : t.nb = 0)
    (hs : t.slot = 0) (hh : t.head = Reg.ofNat t.params.headBits 0) (hc : t.count = 0)
    (hq : ∀ q ∈ t.ports, q.headL = Reg.ofNat t.params.headBits 0 ∧ q.countL = 0 ∧ q.since = 0) : Inv t := by
  have h0 : heldBytes t = 0 := by simp [heldBytes, hw]
  have hpos : 0 < t.params.capacity := hlegal.1
  exact {
    params := hlegal
    ports := hlen
    fbForm := hfb ▸ Memory.wf_nil _
    ramForm := hram
    width := by simp [hh]
    count_le := by simp [hc]
    head_lt := by simpa [hh] using hpos
    head_eq := by simp [hh, hc]
    latches := fun q hm => by
      obtain ⟨h1, h2, h3⟩ := hq q hm
      exact ⟨by simp [h2], by simp [h1], by simpa [h1] using hpos, by simp [h3], by simp [h1, h2]⟩
    sequencer := by simp [SequencerOk, hw, hn, hs]
    marker := fun hj => by omega
    held := fun j hj => by omega
    stored := fun i hi hor => by
      have hc0 : t.count.toNat = 0 := by simp [hc]
      omega }

/-- A ring write keeps the invariant (R97): the counts stay in range, no latch shrinks, and the entry it counts is the one
it writes. -/
theorem Inv.ringWrite (h : Inv s) (pw : PointWord) : Inv (afterRingWrite pw s) := by
  obtain ⟨hc1, hc2, -⟩ := h.params
  have hcount := afterRingWrite_count (s := s) pw hc2
  have hhead := afterRingWrite_head (s := s) pw hc1
  have hle := h.count_le
  exact {
    params := h.params
    ports := by simpa [afterRingWrite] using h.ports
    fbForm := h.fbForm
    ramForm := Memory.write_wf pw h.head_lt h.ramForm
    width := rfl
    count_le := by rw [hcount]; exact Nat.min_le_right _ _
    head_lt := by rw [hhead]; exact Nat.mod_lt _ hc1
    head_eq := fun (hlt : _ < s.params.capacity) => by
      rw [hcount] at hlt
      rw [hhead, hcount, h.head_eq (by omega), Nat.mod_eq_of_lt (by omega), Nat.min_eq_left (by omega)]
    latches := fun q hm => by
      obtain ⟨q', hm', rfl⟩ := List.mem_map.1 hm
      have hl := h.latches q' hm'
      refine ⟨?_, hl.width, hl.head_lt, ?_, hl.head_eq⟩
      · have : q'.countL.toNat ≤ s.count.toNat := hl.count_le
        rw [hcount]
        show q'.countL.toNat ≤ _
        omega
      · rw [bumpSince_since q' hc2]
        exact Nat.min_le_right _ _
    sequencer := h.sequencer
    marker := h.marker
    held := h.held
    stored := fun i (hi : i < s.params.capacity) hor => by
      show (Memory.read (Memory.write s.ram s.head.toNat pw) i).isSome
      rw [Memory.read_write]
      split
      · rfl
      next hne =>
        have hor' : i < min (s.count.toNat + 1) s.params.capacity ∨
            min (s.count.toNat + 1) s.params.capacity = s.params.capacity := hcount ▸ hor
        refine h.stored i hi ?_
        by_cases hfull : s.count.toNat = s.params.capacity
        · exact .inr hfull
        · have := h.head_eq (by omega)
          exact .inl (by omega) }

/-- A snapshot of the ring is a latch in order (R101). -/
theorem Inv.latchOk_takeSnapshot (h : Inv s) (q : Port) : LatchOk s (takeSnapshot s q) :=
  ⟨Nat.le_refl _, h.width, h.head_lt, Nat.zero_le _, h.head_eq⟩

/-- The writer's step to the next slot, or from slot 11 to HUNT (R96, R98). -/
theorem Inv.nextSlot (h : Inv s) (hw : s.wstate = .push) : Inv (Machine.nextSlot s) := by
  have hseq := h.sequencer
  simp only [SequencerOk, hw] at hseq
  obtain ⟨hnb, hslot⟩ := hseq
  obtain hlast | hinner : s.slot.toNat = 11 ∨ s.slot.toNat < 11 := by omega
  · obtain ⟨h1, h2, h3⟩ := nextSlot_last hlast
    exact h.dropFrame (by simp) (by simp) (by simp) (by simp) (by simp) (by simp) (.inl h1) h3 h2
  · obtain ⟨h1, h2, h3⟩ := nextSlot_inner hinner
    refine h.keepFrame (by simp) (by simp) (by simp) (by simp) (by simp) (by simp) (by simp) ?_ ?_
    · simp [heldBytes, h1, hw]
    · simp only [SequencerOk, h1, hw, h3, h2]
      exact ⟨hnb, by omega⟩

end Halves

/-! ## Every instruction and every step keeps it -/

section Steps

variable {s t : State} {i : Instr}

/-- SLOT is 0 in every state but PUSH (R16). -/
theorem Inv.slot_eq_zero (h : Inv s) (hw : s.wstate ≠ .push) : s.slot = 0 := by
  have hseq := h.sequencer
  unfold SequencerOk at hseq
  split at hseq
  · exact hseq.2
  · exact hseq.2.2
  · exact hseq.2
  · exact absurd ‹_› hw
  · exact hseq.2

theorem Inv.timeoutInHunt (h : Inv s) : Inv (Machine.timeoutInHunt s) :=
  h.congr rfl rfl rfl rfl rfl rfl rfl rfl rfl rfl

theorem Inv.timeoutInCollect (h : Inv s) (hw : s.wstate = .collect) : Inv (Machine.timeoutInCollect s) :=
  h.dropFrame rfl rfl rfl rfl rfl rfl (.inl rfl) rfl (h.slot_eq_zero (by simp [hw]))

/-- Everything an instruction can do keeps the invariant. -/
theorem Inv.effect (h : Inv s) (e : Effect s i t) : Inv t := by
  have hseq := h.sequencer
  cases e with
  | unchanged => exact h
  | huntMarker hw =>
    exact h.appendByte (by simp [heldBytes, hw]) (by decide) (fun _ => rfl) rfl
      ⟨Nat.le_refl 1, Nat.le_add_left 1 45, h.slot_eq_zero (by simp [hw])⟩
  | huntSkip | wireFrame => exact h.congr rfl rfl rfl rfl rfl rfl rfl rfl rfl rfl
  | huntTimeout | rsvdInHunt => exact h.timeoutInHunt
  | collectByte b hw hn =>
    simp only [SequencerOk, hw] at hseq
    have hn' : (s.nb + 1).toNat = s.nb.toNat + 1 := by bv_omega
    exact h.appendByte (by simp [heldBytes, hw]) (by simp only [frameLen]; omega) (fun h0 => by omega) hn'
      ⟨by simp only [goto_nb]; omega, by simp only [goto_nb]; omega, hseq.2.2⟩
  | collectLast b hw hn =>
    exact h.appendByte (by simp [heldBytes, hw, hn]) (by decide) nofun rfl ⟨rfl, h.slot_eq_zero (by simp [hw])⟩
  | collectTimeout _ hw | rsvdInCollect _ hw => exact h.timeoutInCollect hw
  | closed => exact h.dropFrame rfl rfl rfl rfl rfl rfl (.inr rfl) rfl rfl
  | accept hw =>
    exact h.keepFrame rfl rfl rfl rfl rfl rfl rfl (by simp [heldBytes, hw, acceptFrame]) ⟨rfl, Nat.zero_le 11⟩
  | reject hw => exact h.dropFrame rfl rfl rfl rfl rfl rfl (.inl rfl) rfl (h.slot_eq_zero (by simp [hw]))
  | pushZero hw =>
    exact Inv.nextSlot (h.congr rfl rfl rfl rfl rfl rfl rfl rfl rfl rfl) hw
  | pushPoint hw => exact (h.ringWrite _).nextSlot hw
  | snap p => exact (h.onPort p fun q _ => h.latchOk_takeSnapshot q).respond p _
  | reset =>
    refine Inv.ofReset h.params (by simpa using h.ports) h.ramForm rfl rfl rfl rfl rfl rfl fun q hm => ?_
    obtain ⟨q', -, rfl⟩ := List.mem_map.1 hm
    exact ⟨rfl, rfl, rfl⟩
  | _ => exact h.respond _ _

theorem Inv.step (h : Inv s) (ht : Machine.step s = .next t) : Inv t := by
  obtain rfl | ⟨i, hi⟩ := step_cases ht
  · exact h.congr rfl rfl rfl rfl rfl rfl rfl rfl rfl rfl
  · exact (h.consume _ i).effect (exec_effect hi)

end Steps

end Sys2Proof.Safety

namespace Sys2Proof.Proofs

open Machine Safety

/-- Settles O50: a step is at most a turn taken and one instruction's effect, and each keeps the invariant. -/
theorem stepKeepsTheInvariant : Obligations.StepKeepsTheInvariant :=
  fun _ _ h ht => h.step ht

/-- Settles O49: the reset state is one just reset, with an empty RAM. -/
theorem resetStateMeetsTheInvariant : Obligations.ResetStateMeetsTheInvariant := by
  intro p hp
  refine Inv.ofReset hp (by simp) (Memory.wf_nil _) rfl rfl rfl rfl rfl rfl fun q hq => ?_
  obtain rfl := List.eq_of_mem_replicate hq
  exact ⟨rfl, rfl, rfl⟩

end Sys2Proof.Proofs

/-! PROOFS. Ring memory and the consumers' commands: where an access stops, what a ring write does to the content, and
what a command can change (20_memory.md R35, R37; 43_ringbuffer.md R97, R100 to R106). -/

namespace Sys2Proof.Machine

open Safety

/-! ## A READ's answer -/

section Read

variable {s : State} {p : Nat}

/-- The response of a READ of snapshot entry `k` on port `p` (R102). -/
def readRsp (s : State) (p k : Nat) : Rsp :=
  if k < (portAt s p).countL.toNat ∧ isStale s.params.capacity (portAt s p) k = false then
    pointRsp (ramRead s (physIndex s.params.capacity (portAt s p) k))
  else Rsp.stale

/-- A READ completes in every state: where it reads an entry the ring is not empty, so the index, a remainder by C, is
below C (R103). -/
theorem execRead_eq (s : State) (p : Nat) (g : BitVec 4) (k : BitVec 24) :
    execRead p g k s = .next (respond p (readRsp s p k.toNat) s) := by
  unfold execRead readRsp
  split
  next hv =>
    have hfresh : (portAt s p).since.toNat + (portAt s p).countL.toNat ≤ s.params.capacity + k.toNat := by
      simpa [isStale] using hv.2
    have hidx : physIndex s.params.capacity (portAt s p) k.toNat < s.params.capacity := Nat.mod_lt _ (by omega)
    rw [memRead, if_pos hidx]
  next => rfl

end Read

/-! ## The content after a ring write -/

section Content

variable {s : State}

/-- The ring index of content entry `j` (R35). -/
def contentIndex (s : State) (j : Nat) : Nat :=
  (s.head.toNat + s.params.capacity - s.count.toNat + j) % s.params.capacity

theorem content_getElem {j : Nat} (h : j < (content s).length) :
    (content s)[j] = ramRead s (contentIndex s j) := by
  simp [content, contentIndex]

/-- The entry after the newest is the one at HEAD. -/
theorem contentIndex_count (h : Inv s) : contentIndex s s.count.toNat = s.head.toNat := by
  have hle := h.count_le
  rw [contentIndex, Nat.sub_add_cancel (by omega), Nat.add_mod_right, Nat.mod_eq_of_lt h.head_lt]

/-- No entry of the content but the oldest of a full ring stands at HEAD. -/
theorem contentIndex_ne_head (h : Inv s) {j : Nat} (hj : j < s.count.toNat)
    (h0 : s.count.toNat = s.params.capacity → 0 < j) : contentIndex s j ≠ s.head.toNat := by
  have hle := h.count_le
  have hlt := h.head_lt
  intro he
  have hmod : s.head.toNat + (s.params.capacity - s.count.toNat + j) ≡ s.head.toNat + 0 [MOD s.params.capacity] := by
    rw [contentIndex, Nat.add_sub_assoc hle, Nat.add_assoc] at he
    rw [Nat.ModEq, he, Nat.add_zero, Nat.mod_eq_of_lt hlt]
  have hzero := Nat.ModEq.add_left_cancel' _ hmod
  rw [Nat.ModEq, Nat.mod_eq_of_lt (by omega), Nat.zero_mod] at hzero
  omega

/-- How many entries a ring write evicts: the oldest one where the ring is full, else none (R97). -/
def evicted (s : State) : Nat := if s.count.toNat = s.params.capacity then 1 else 0

theorem evicted_le_one (s : State) : evicted s ≤ 1 := by
  unfold evicted
  split <;> omega

theorem afterRingWrite_count_add_evicted (h : Inv s) (pw : PointWord) :
    (afterRingWrite pw s).count.toNat + evicted s = s.count.toNat + 1 := by
  have hle := h.count_le
  rw [afterRingWrite_count pw h.params.2.1]
  unfold evicted
  split <;> omega

/-- Entry `j` after a ring write stands where entry `j`, counted from the first entry not evicted, stood before it. -/
theorem contentIndex_afterRingWrite (h : Inv s) (pw : PointWord) (j : Nat) :
    contentIndex (afterRingWrite pw s) j = contentIndex s (evicted s + j) := by
  have hle := h.count_le
  have hcount := afterRingWrite_count_add_evicted h pw
  have hle' : (afterRingWrite pw s).count.toNat ≤ s.params.capacity := (h.ringWrite pw).count_le
  have hev := evicted_le_one s
  have hpar : (afterRingWrite pw s).params = s.params := rfl
  rw [contentIndex, contentIndex, hpar, afterRingWrite_head pw h.params.1, Nat.add_sub_assoc hle', Nat.add_assoc,
    Nat.mod_add_mod]
  congr 1
  omega

/-- The content after a ring write: the entries not evicted, and the point. -/
theorem content_afterRingWrite (h : Inv s) (pw : PointWord) :
    content (afterRingWrite pw s) = (content s).drop (evicted s) ++ [pw] := by
  have hcount := afterRingWrite_count_add_evicted h pw
  have hpos := h.params.1
  have hev : evicted s = 1 ↔ s.count.toNat = s.params.capacity := by simp [evicted]
  have hev1 := evicted_le_one s
  refine List.ext_getElem (by simp; omega) fun j hj _ => ?_
  have hj' : evicted s + j ≤ s.count.toNat := by
    rw [content_length] at hj
    omega
  rw [content_getElem hj, ramRead_afterRingWrite, contentIndex_afterRingWrite h, List.getElem_append]
  obtain hold | hnew : evicted s + j < s.count.toNat ∨ evicted s + j = s.count.toNat := by omega
  · rw [if_neg (contentIndex_ne_head h hold fun hfull => by have := hev.2 hfull; omega), dif_pos (by simp; omega),
      List.getElem_drop, content_getElem]
  · rw [hnew, contentIndex_count h, if_pos rfl, dif_neg (by simp; omega), List.getElem_singleton]

end Content

/-! ## A command's effect -/

/-- The port a command comes in on (R56). -/
def commandPort : Instr → Option Nat
  | .snap p _ => some p
  | .read p _ _ => some p
  | .stat p _ _ => some p
  | .cmdRsvd0 p _ => some p
  | .cmdRsvd47 p _ _ => some p
  | .cmdRsvd8F p _ _ => some p
  | _ => none

/-- `f` changes port `p` as command `i` may: not the commands pending, and only the response unless it is a SNAP
(R118). -/
def AnswersAs (p : Nat) (i : Instr) (f : Port → Port) : Prop :=
  ∀ q, (f q).cmds = q.cmds ∧ ((∃ g, i = .snap p g) ∨ f q = { q with rsp := (f q).rsp })

/-- A command changes its own port, and nothing else (R100, R118, R119). -/
theorem Effect.of_command {s t : State} {i : Instr} {p : Nat} (e : Effect s i t) (hp : commandPort i = some p) :
    ∃ f, t = onPort p f s ∧ AnswersAs p i f := by
  have hrespond : ∀ r, ∃ f, respond p r s = onPort p f s ∧ AnswersAs p i f := fun r =>
    ⟨fun q => { q with rsp := some r }, rfl, fun _ => ⟨rfl, .inr rfl⟩⟩
  cases e with
  | unchanged => exact ⟨id, by simp [onPort], fun _ => ⟨rfl, .inr rfl⟩⟩
  | snap p g =>
    cases hp
    exact ⟨_, onPort_onPort _ _ _ _, fun _ => ⟨rfl, .inl ⟨g, rfl⟩⟩⟩
  | readValid | readInvalid | stat | statUndefined | rsvd0 | rsvd47 | rsvd8F =>
    cases hp
    exact hrespond _
  | _ => cases hp

end Sys2Proof.Machine

namespace Sys2Proof.Proofs

open Machine Safety

/-- Settles O33: PUSH checks SLOT, then HEAD; a READ always answers. -/
theorem accessesOutsideRingOrFrameStop : Obligations.AccessesOutsideRingOrFrameStop := by
  refine ⟨fun s hw hslot => ?_, fun s hw hslot hd hh => ?_, fun s p g k => ⟨_, execRead_eq s p g k⟩⟩
  · rw [exec, execPush, if_pos hw, if_neg (Nat.not_le.2 hslot)]
  · rw [exec, execPush, if_pos hw, if_pos hslot, if_neg hd, ringWrite_error _ hh]

/-- Settles O34: HEAD is inside the ring, and the content moves on by what is evicted. -/
theorem ringWriteEvictsOnlyTheOldest : Obligations.RingWriteEvictsOnlyTheOldest := by
  refine fun s pw h => ⟨_, ringWrite_ok pw h.head_lt, ?_⟩
  rw [content_afterRingWrite h, evicted]
  split <;> rfl

/-- Settles O43: a command's effect is one change of its own port. -/
theorem commandsReachOnlyTheirPort : Obligations.CommandsReachOnlyTheirPort := by
  intro s t p g h l k sel a b i hi ht
  have hp : commandPort i = some p := by
    simp only [List.mem_cons, List.not_mem_nil, or_false] at hi
    rcases hi with rfl | rfl | rfl | rfl | rfl | rfl <;> rfl
  obtain ⟨f, rfl, hf⟩ := (exec_effect ht).of_command hp
  refine ⟨onPort_frame p f s, onPort_ports_length p f s, fun n hn => onPort_ports_other f s hn, fun q q' hq hq' => ?_⟩
  obtain rfl : f q = q' := Option.some.inj ((onPort_ports_same hq).symm.trans hq')
  obtain ⟨hcmds, hsnap | hrsp⟩ := hf q
  · obtain ⟨g', rfl⟩ := hsnap
    obtain rfl : g' = g := by simpa using hi
    exact ⟨hcmds, fun hne => absurd rfl hne⟩
  · exact ⟨hcmds, fun _ => hrsp⟩

end Sys2Proof.Proofs

/-! PROOFS. Which instructions read FB and RAM, and that what they read has been written (10_state.md R15, R32, R34;
43_ringbuffer.md R104). -/

namespace Sys2Proof.Safety

open Machine

variable {s : State}

/-! ## What is read has been written -/

theorem Inv.isSome_fb (h : Inv s) (hw : s.wstate = .decode ∨ s.wstate = .push) {j : Nat} (hj : j < frameLen) :
    (Memory.read s.fb j).isSome :=
  h.held j (by rcases hw with hw | hw <;> simpa [heldBytes, hw] using hj)

/-- Every entry of a snapshot stands in the written part of the ring: all of it is written where the ring is full, and a
snapshot of a ring not yet full starts at entry 0 (R104). -/
theorem Inv.isSome_ram_physIndex (h : Inv s) {q : Port} (hq : q ∈ s.ports) {k : Nat} (hk : k < q.countL.toNat) :
    (Memory.read s.ram (physIndex s.params.capacity q k)).isSome := by
  have hl := h.latches q hq
  have hle := h.count_le
  have hcl := hl.count_le
  refine h.stored _ (Nat.mod_lt _ h.params.1) ?_
  by_cases hfull : s.count.toNat = s.params.capacity
  · exact .inr hfull
  · refine .inl ?_
    rw [physIndex, hl.head_eq (by omega), show q.countL.toNat + s.params.capacity - q.countL.toNat + k =
      k + s.params.capacity by omega, Nat.add_mod_right, Nat.mod_eq_of_lt (by omega)]
    omega

end Sys2Proof.Safety

namespace Sys2Proof.Machine

/-! ## One instruction run in two states -/

/-- Where `r` answers a next state, `r'` answers one related to it by `R`. -/
def RunsAlike (R : State → State → Prop) (r r' : Result) : Prop :=
  ∀ t, r = .next t → ∃ t', r' = .next t' ∧ R t t'

section RunsAlike

variable {R : State → State → Prop}

theorem RunsAlike.next {u u' : State} (h : R u u') : RunsAlike R (.next u) (.next u') := by
  intro t ht
  cases ht
  exact ⟨u', rfl, h⟩

theorem RunsAlike.fault (f : Fault) (r' : Result) : RunsAlike R (.fault f) r' := nofun

theorem RunsAlike.ite {c c' : Prop} [Decidable c] [Decidable c'] {r₁ r₁' r₂ r₂' : Result} (hc : c' ↔ c)
    (h₁ : c → RunsAlike R r₁ r₁') (h₂ : ¬c → RunsAlike R r₂ r₂') :
    RunsAlike R (if c then r₁ else r₂) (if c' then r₁' else r₂') := by
  simp only [hc]
  split
  · exact h₁ ‹_›
  · exact h₂ ‹_›

/-- A meaning of the form "its effect in its own states, else nothing". -/
theorem RunsAlike.guarded {c : Prop} [Decidable c] {s s' u u' : State} (hu : R u u') (hs : R s s') :
    RunsAlike R (if c then .next u else .next s) (if c then .next u' else .next s') :=
  .ite Iff.rfl (fun _ => .next hu) fun _ => .next hs

end RunsAlike

section Reads

variable {s : State} {i : Instr}

/-! ## The meanings written as a `match`, as conditions -/

theorem execSrcRsvd_eq (g : Byte) (s : State) :
    execSrcRsvd g s = if s.wstate = .hunt then .next (timeoutInHunt s)
      else if s.wstate = .collect then .next (timeoutInCollect s) else .next s := by
  unfold execSrcRsvd
  cases s.wstate <;> rfl

theorem execStat_eq (p : Nat) (g : BitVec 20) (sel : Byte) (s : State) :
    execStat p g sel s = .next (respond p (((statValue s p sel).map (Rsp.good · 0 0)).getD Rsp.refusal) s) := by
  unfold execStat
  cases statValue s p sel <;> rfl

/-- PUSH stops outside the frame and, where there is a point to write, outside the ring (R96, log entry 11). -/
theorem execPush_eq (s : State) :
    execPush s = if s.wstate = .push then
        if s.slot.toNat ≤ 11 then
          if distOf (fbRead s) s.slot.toNat = 0 then .next (nextSlot { s with samplesZero := s.samplesZero + 1 })
          else if s.head.toNat < s.params.capacity then
            .next (nextSlot (afterRingWrite (slotPoint s s.slot.toNat) s))
          else .fault (.ramIndex s.head.toNat)
        else .fault (.slotIndex s.slot.toNat)
      else .next s := by
  by_cases hh : s.head.toNat < s.params.capacity
  · simp only [execPush, ringWrite_ok _ hh, if_pos hh]
  · simp only [execPush, ringWrite_error _ (Nat.not_lt.1 hh), if_neg hh]

/-! ## Only DECODE and PUSH depend on FB -/

/-- `t'` is `t` but for what FB holds. -/
def SameButFb (t t' : State) : Prop := t' = { t with fb := t'.fb, epoch := t'.epoch }

/-- An instruction other than DECODE and PUSH does the same whatever FB holds. -/
theorem exec_sameButFb (hi : i ≠ .decode) (hi' : i ≠ .push) (m : List Host.Cell) (e : Nat) :
    RunsAlike SameButFb (exec i s) (exec i { s with fb := m, epoch := e }) := by
  cases i with
  | huntMarker | huntSkip | huntTimeout | collectByte | collectLast | collectTimeout | closed =>
    exact .guarded rfl rfl
  | srcRsvd =>
    simp only [exec, execSrcRsvd_eq]
    exact .ite Iff.rfl (fun _ => .next rfl) fun _ => .guarded rfl rfl
  | read =>
    simp only [exec, execRead_eq]
    exact .next rfl
  | stat =>
    simp only [exec, execStat_eq]
    exact .next rfl
  | decode => exact absurd rfl hi
  | push => exact absurd rfl hi'
  | _ => exact .next rfl

/-! ## DECODE and PUSH depend on the 47 bytes of a frame only -/

/-- The state with FB's written bytes `m` and free values `e`. -/
def withFb (m : List Host.Cell) (e : Nat) (s : State) : State := { s with fb := m, epoch := e }

section Frame

variable {m : List Host.Cell} {e : Nat} (h : ∀ j < frameLen, fbRead (withFb m e s) j = fbRead s j)

include h

theorem candidateFormed_withFb : candidateFormed (withFb m e s) = candidateFormed s := by
  rw [candidateFormed, candidateFormed, h 0 (by decide)]
  rfl

theorem checksumMatches_withFb : checksumMatches (withFb m e s) = checksumMatches s := by
  have hpre : fbPrefix (withFb m e s) 46 = fbPrefix s 46 :=
    List.map_congr_left fun j hj => h j (Nat.lt_succ_of_lt (List.mem_range.1 hj))
  rw [checksumMatches, checksumMatches, hpre, h 46 (by decide)]
  rfl

theorem startRawOf_withFb : startRawOf (fbRead (withFb m e s)) = startRawOf (fbRead s) := by
  rw [startRawOf, startRawOf, h 4 (by decide), h 5 (by decide)]

theorem endRawOf_withFb : endRawOf (fbRead (withFb m e s)) = endRawOf (fbRead s) := by
  rw [endRawOf, endRawOf, h 42 (by decide), h 43 (by decide)]

theorem acceptFrame_withFb : acceptFrame (withFb m e s) = withFb m e (acceptFrame s) := by
  simp only [acceptFrame, startRawOf_withFb h, endRawOf_withFb h, verlenOf, speedOf, tstampOf, crcByteOf,
    h 1 (by decide), h 2 (by decide), h 3 (by decide), h 44 (by decide), h 45 (by decide), h 46 (by decide)]
  rfl

theorem distOf_withFb {n : Nat} (hn : n ≤ 11) : distOf (fbRead (withFb m e s)) n = distOf (fbRead s) n := by
  have h6 : 6 + 3 * n < 47 := by omega
  have h7 : 7 + 3 * n < 47 := by omega
  rw [distOf, distOf, h _ h6, h _ h7]

theorem slotPoint_withFb {n : Nat} (hn : n ≤ 11) : slotPoint (withFb m e s) n = slotPoint s n := by
  have h8 : 8 + 3 * n < 47 := by omega
  simp only [slotPoint, slotAngle, distOf_withFb h hn, startRawOf_withFb h, endRawOf_withFb h, intensityOf, h _ h8]
  rfl

end Frame

/-- Where the frame is written, another FB with the same written bytes holds the same frame. -/
theorem fbRead_withFb_of_inv (h : Safety.Inv s) {m : List Host.Cell}
    (hm : ∀ j < 47, Memory.read m j = Memory.read s.fb j) (e : Nat) (hw : s.wstate = .decode ∨ s.wstate = .push) :
    ∀ j < frameLen, fbRead (withFb m e s) j = fbRead s j := by
  intro j hj
  obtain ⟨b, hb⟩ := Option.isSome_iff_exists.1 (h.isSome_fb hw hj)
  have hb' : Memory.read (withFb m e s).fb j = some b := (hm j hj).trans hb
  rw [fbRead, fbRead, hb, hb']
  rfl

theorem nextSlot_withFb (m : List Host.Cell) (e : Nat) (s : State) :
    nextSlot (withFb m e s) = withFb m e (nextSlot s) := by
  simp only [nextSlot, apply_ite (withFb m e)]
  rfl

/-- DECODE does the same with any FB that holds the same frame where DECODE is due. -/
theorem execDecode_withFb {m : List Host.Cell} {e : Nat}
    (h : s.wstate = .decode → ∀ j < frameLen, fbRead (withFb m e s) j = fbRead s j) :
    RunsAlike (fun t t' => t' = withFb m e t) (execDecode s) (execDecode (withFb m e s)) :=
  .ite Iff.rfl
    (fun hw => .ite (by rw [candidateFormed_withFb (h hw)])
      (fun _ => .ite (by rw [checksumMatches_withFb (h hw)]) (fun _ => .next (acceptFrame_withFb (h hw)))
        fun _ => .next rfl)
      fun _ => .next rfl)
    fun _ => .next rfl

/-- PUSH does the same with any FB that holds the same frame where PUSH is due. -/
theorem execPush_withFb {m : List Host.Cell} {e : Nat}
    (h : s.wstate = .push → ∀ j < frameLen, fbRead (withFb m e s) j = fbRead s j) :
    RunsAlike (fun t t' => t' = withFb m e t) (execPush s) (execPush (withFb m e s)) := by
  rw [execPush_eq, execPush_eq]
  refine .ite Iff.rfl (fun hw => .ite Iff.rfl (fun hs => ?_) fun _ => .fault _ _) fun _ => .next rfl
  have hdist : distOf (fbRead (withFb m e s)) s.slot.toNat = distOf (fbRead s) s.slot.toNat :=
    distOf_withFb (h hw) hs
  have hpoint : slotPoint (withFb m e s) s.slot.toNat = slotPoint s s.slot.toNat := slotPoint_withFb (h hw) hs
  refine .ite (Eq.congr_left hdist) (fun _ => .next ?_) fun _ =>
    .ite Iff.rfl (fun _ => .next ?_) fun _ => .fault _ _
  · exact nextSlot_withFb m e { s with samplesZero := s.samplesZero + 1 }
  · exact (congrArg (fun pw => nextSlot (afterRingWrite pw (withFb m e s))) hpoint).trans
      (nextSlot_withFb m e (afterRingWrite (slotPoint s s.slot.toNat) s))

/-! ## Only READ depends on RAM, and on the entries it can return -/

/-- `t'` is `t` but for what RAM holds. -/
def SameButRam (t t' : State) : Prop := t' = { t with ram := t'.ram }

theorem nextSlot_sameButRam {t t' : State} (h : SameButRam t t') : SameButRam (nextSlot t) (nextSlot t') := by
  rw [SameButRam, h, nextSlot, nextSlot]
  split <;> rfl

/-- An instruction other than READ does the same whatever RAM holds. -/
theorem exec_sameButRam (hi : ∀ p g k, i ≠ .read p g k) (m : List (Nat × PointWord)) :
    RunsAlike SameButRam (exec i s) (exec i { s with ram := m }) := by
  cases i with
  | huntMarker | huntSkip | huntTimeout | collectByte | collectLast | collectTimeout | closed =>
    exact .guarded rfl rfl
  | srcRsvd =>
    simp only [exec, execSrcRsvd_eq]
    exact .ite Iff.rfl (fun _ => .next rfl) fun _ => .guarded rfl rfl
  | decode =>
    exact .ite Iff.rfl (fun _ => .ite Iff.rfl (fun _ => .guarded rfl rfl) fun _ => .next rfl) fun _ => .next rfl
  | push =>
    simp only [exec, execPush_eq]
    refine .ite Iff.rfl (fun _ => .ite Iff.rfl (fun _ => ?_) fun _ => .fault _ _) fun _ => .next rfl
    exact .ite Iff.rfl (fun _ => .next (nextSlot_sameButRam rfl)) fun _ =>
      .ite Iff.rfl (fun _ => .next (nextSlot_sameButRam rfl)) fun _ => .fault _ _
  | read p g k => exact absurd rfl (hi p g k)
  | stat =>
    simp only [exec, execStat_eq]
    exact .next rfl
  | _ => exact .next rfl

/-- A READ answers the same with any RAM that holds the same entries where a READ can return them (R104). -/
theorem readRsp_withRam {p k : Nat} {m : List (Nat × PointWord)}
    (h : k < (portAt s p).countL.toNat → isStale s.params.capacity (portAt s p) k = false →
      Memory.read m (physIndex s.params.capacity (portAt s p) k) =
        Memory.read s.ram (physIndex s.params.capacity (portAt s p) k)) :
    readRsp { s with ram := m } p k = readRsp s p k := by
  have hport : portAt { s with ram := m } p = portAt s p := rfl
  simp only [readRsp, hport]
  split
  next hv => rw [ramRead, ramRead, h hv.1 hv.2]
  next => rfl

end Reads

end Sys2Proof.Machine

namespace Sys2Proof.Proofs

open Machine Safety

/-- Settles O52: what DECODE, PUSH and READ read is written, and each instruction runs alike in states that differ only in
what it does not read. -/
theorem unspecifiedContentsAreNeverRead : Obligations.UnspecifiedContentsAreNeverRead := by
  refine fun s h => ⟨fun j hj hw => h.isSome_fb hw hj, fun q hq k hk _ => h.isSome_ram_physIndex hq hk,
    fun i t ht => ⟨fun hd hp m e => ?_, fun hi m e hm => ?_, fun hr m => ?_, fun p g k hi m hm => ?_⟩⟩
  · obtain ⟨t', ht', hs⟩ := exec_sameButFb hd hp m e t ht
    exact ⟨t'.fb, t'.epoch, hs ▸ ht'⟩
  · have hframe := fbRead_withFb_of_inv h hm e
    have halike : RunsAlike (fun t t' => t' = withFb m e t) (exec i s) (exec i (withFb m e s)) := by
      rcases hi with rfl | rfl
      · exact execDecode_withFb fun hw => hframe (.inl hw)
      · exact execPush_withFb fun hw => hframe (.inr hw)
    obtain ⟨t', ht', rfl⟩ := halike t ht
    exact ht'
  · obtain ⟨t', ht', hs⟩ := exec_sameButRam hr m t ht
    exact ⟨t'.ram, hs ▸ ht'⟩
  · subst hi
    rw [exec, execRead_eq] at ht ⊢
    rw [readRsp_withRam fun hk => hm _ hk]
    cases ht
    rfl

end Sys2Proof.Proofs

/-! PROOFS. Who may write what (10_state.md R17, R21 to R28, R32): the error class, the metadata, the ring and the event
counters; and what RESET makes of every element (R34, R122). -/

namespace Sys2Proof.Machine

section Writers

variable {s t : State} {i : Instr}

/-- What changes LAST_ERROR (R27, R108). -/
theorem Effect.lastError_cases (e : Effect s i t) (hi : i ≠ .reset) :
    t.lastError = s.lastError ∨
    ((∃ g, i = .huntTimeout g ∨ i = .collectTimeout g ∨ i = .srcRsvd g ∨ i = .closed g) ∧ t.lastError ≠ .none) ∨
    (i = .decode ∧ t.lastError = .checksumMismatch) := by
  cases e with
  | huntTimeout g => exact .inr (.inl ⟨⟨g, .inl rfl⟩, nofun⟩)
  | collectTimeout g => exact .inr (.inl ⟨⟨g, .inr (.inl rfl)⟩, nofun⟩)
  | rsvdInHunt g | rsvdInCollect g => exact .inr (.inl ⟨⟨g, .inr (.inr (.inl rfl))⟩, nofun⟩)
  | closed g => exact .inr (.inl ⟨⟨g, .inr (.inr (.inr rfl))⟩, nofun⟩)
  | reject => exact .inr (.inr ⟨rfl, rfl⟩)
  | reset => exact absurd rfl hi
  | pushZero | pushPoint => exact .inl (nextSlot_lastError _)
  | _ => exact .inl rfl

/-- The seven metadata fields (R28). -/
def metadata (s : State) : BitVec 1 × Byte × Half × Half × Half × Half × Byte :=
  (s.metaValid, s.metaVerlen, s.metaSpeed, s.metaStart, s.metaEnd, s.metaTimestamp, s.metaCrc)

theorem metadata_nextSlot (s : State) : metadata (nextSlot s) = metadata s := by simp [metadata]

/-- What changes the metadata (R28). -/
theorem Effect.metadata_cases (e : Effect s i t) (hi : i ≠ .reset) :
    metadata t = metadata s ∨
    (i = .decode ∧ s.wstate = .decode ∧ t.wstate = .push ∧ t.framesOk = s.framesOk + 1) := by
  cases e with
  | accept hw => exact .inr ⟨rfl, hw, rfl, rfl⟩
  | reset => exact absurd rfl hi
  | pushZero | pushPoint => exact .inl (metadata_nextSlot _)
  | _ => exact .inl rfl

/-- RAM, HEAD, COUNT and PUSHES (R17 to R20). -/
def ringState (s : State) : List (Nat × PointWord) × Reg × BitVec 25 × Word := (s.ram, s.head, s.count, s.pushes)

/-- What changes the ring (R17, R32). -/
theorem Effect.ring_cases (e : Effect s i t) (hi : i ≠ .reset) :
    ringState t = ringState s ∨ (i = .push ∧ s.wstate = .push) := by
  cases e with
  | pushZero hw | pushPoint hw => exact .inr ⟨rfl, hw⟩
  | reset => exact absurd rfl hi
  | _ => exact .inl rfl

/-- What changes the ports, beside the commands and RESET. -/
theorem Effect.ports_cases (e : Effect s i t) (hp : commandPort i = none) (hi : i ≠ .reset) :
    t.ports = s.ports ∨ (i = .push ∧ s.wstate = .push) := by
  cases e with
  | pushZero hw | pushPoint hw => exact .inr ⟨rfl, hw⟩
  | reset => exact absurd rfl hi
  | snap | readValid | readInvalid | stat | statUndefined | rsvd0 | rsvd47 | rsvd8F => cases hp
  | _ => exact .inl rfl

/-- What changes a port's SINCE (R29, R32). -/
theorem Effect.since_cases (e : Effect s i t) (hi : i ≠ .reset) :
    (∀ (p : Nat) (q q' : Port), s.ports[p]? = some q → t.ports[p]? = some q' →
      q'.since = q.since ∨ ∃ g, i = .snap p g) ∨ (i = .push ∧ s.wstate = .push) := by
  cases hp : commandPort i with
  | none =>
    refine (e.ports_cases hp hi).imp_left fun hports p q q' hq hq' => .inl ?_
    rw [hports, hq] at hq'
    cases hq'
    rfl
  | some n =>
    obtain ⟨f, rfl, hf⟩ := e.of_command hp
    refine .inl fun p q q' hq hq' => ?_
    by_cases hpn : p = n
    · subst hpn
      obtain rfl : f q = q' := Option.some.inj ((onPort_ports_same hq).symm.trans hq')
      obtain ⟨-, hsnap | hrsp⟩ := hf q
      · exact .inr hsnap
      · have hsince : (f q).since = _ := congrArg Port.since hrsp
        exact .inl hsince
    · rw [onPort_ports_other f s hpn, hq] at hq'
      cases hq'
      exact .inl rfl

/-- How the writer comes to PUSH, or stays there (R88, R126). -/
theorem Effect.push_cases (e : Effect s i t) (ht : t.wstate = .push) :
    s.wstate = .push ∨ (i = .decode ∧ s.wstate = .decode ∧ candidateFormed s = true ∧ checksumMatches s = true ∧
      t = acceptFrame s) := by
  cases e with
  | accept hw hf hc => exact .inr ⟨rfl, hw, hf, hc, rfl⟩
  | pushZero hw | pushPoint hw => exact .inl hw
  | huntMarker | collectByte | collectLast | collectTimeout | closed | rsvdInCollect | reject | reset => cases ht
  | _ => exact .inl ht

/-- In PUSH no instruction but RESET changes FB (R15, R126). -/
theorem Effect.fb_of_push (e : Effect s i t) (hi : i ≠ .reset) (hw : s.wstate = .push) : t.fb = s.fb := by
  cases e with
  | huntMarker hw' => rw [hw] at hw'; cases hw'
  | collectByte _ hw' => rw [hw] at hw'; cases hw'
  | collectLast _ hw' => rw [hw] at hw'; cases hw'
  | pushZero | pushPoint => exact nextSlot_fb _
  | reset => exact absurd rfl hi
  | _ => rfl

/-! ## The event counters (R21 to R26) -/

theorem Effect.framesOk_cases (e : Effect s i t) (hi : i ≠ .reset) :
    t.framesOk = s.framesOk ∨ i = .decode ∧ t.framesOk = s.framesOk + 1 := by
  cases e with
  | accept => exact .inr ⟨rfl, rfl⟩
  | pushZero | pushPoint => exact .inl (nextSlot_framesOk _)
  | reset => exact absurd rfl hi
  | _ => exact .inl rfl

theorem Effect.framesCrcBad_cases (e : Effect s i t) (hi : i ≠ .reset) :
    t.framesCrcBad = s.framesCrcBad ∨ i = .decode ∧ t.framesCrcBad = s.framesCrcBad + 1 := by
  cases e with
  | reject => exact .inr ⟨rfl, rfl⟩
  | pushZero | pushPoint => exact .inl (nextSlot_framesCrcBad _)
  | reset => exact absurd rfl hi
  | _ => exact .inl rfl

theorem Effect.framesPartial_cases (e : Effect s i t) (hi : i ≠ .reset) :
    t.framesPartial = s.framesPartial ∨ (∃ g, i = .collectTimeout g ∨ i = .srcRsvd g) ∧ s.wstate = .collect ∧
      t.framesPartial = s.framesPartial + 1 := by
  cases e with
  | collectTimeout g hw => exact .inr ⟨⟨g, .inl rfl⟩, hw, rfl⟩
  | rsvdInCollect g hw => exact .inr ⟨⟨g, .inr rfl⟩, hw, rfl⟩
  | pushZero | pushPoint => exact .inl (nextSlot_framesPartial _)
  | reset => exact absurd rfl hi
  | _ => exact .inl rfl

theorem Effect.bytesDiscarded_cases (e : Effect s i t) (hi : i ≠ .reset) :
    t.bytesDiscarded = s.bytesDiscarded ∨
      (∃ b, i = .huntSkip b) ∧ t.bytesDiscarded = s.bytesDiscarded + 1 := by
  cases e with
  | huntSkip b => exact .inr ⟨⟨b, rfl⟩, rfl⟩
  | pushZero | pushPoint => exact .inl (nextSlot_bytesDiscarded _)
  | reset => exact absurd rfl hi
  | _ => exact .inl rfl

theorem Effect.timeouts_cases (e : Effect s i t) (hi : i ≠ .reset) :
    t.timeouts = s.timeouts ∨ (∃ g, i = .huntTimeout g ∨ i = .collectTimeout g ∨ i = .srcRsvd g) ∧
      t.timeouts = s.timeouts + 1 := by
  cases e with
  | huntTimeout g => exact .inr ⟨⟨g, .inl rfl⟩, rfl⟩
  | collectTimeout g => exact .inr ⟨⟨g, .inr (.inl rfl)⟩, rfl⟩
  | rsvdInHunt g | rsvdInCollect g => exact .inr ⟨⟨g, .inr (.inr rfl)⟩, rfl⟩
  | pushZero | pushPoint => exact .inl (nextSlot_timeouts _)
  | reset => exact absurd rfl hi
  | _ => exact .inl rfl

theorem Effect.samplesZero_cases (e : Effect s i t) (hi : i ≠ .reset) :
    t.samplesZero = s.samplesZero ∨ i = .push ∧ t.samplesZero = s.samplesZero + 1 := by
  cases e with
  | pushZero => exact .inr ⟨rfl, nextSlot_samplesZero _⟩
  | pushPoint => exact .inl (nextSlot_samplesZero _)
  | reset => exact absurd rfl hi
  | _ => exact .inl rfl

end Writers

end Sys2Proof.Machine

namespace Sys2Proof.Proofs

open Machine

/-- Settles O53: what changes LAST_ERROR is one of the error events. -/
theorem onlyErrorEventsWriteLastError : Obligations.OnlyErrorEventsWriteLastError :=
  fun _ _ _ h hi hne => ((exec_effect h).lastError_cases hi).resolve_left hne

/-- Settles O54: only the accepting DECODE changes the metadata. -/
theorem onlyAcceptWritesMetadata : Obligations.OnlyAcceptWritesMetadata :=
  fun _ _ _ h hi => ((exec_effect h).metadata_cases hi).imp_left fun hm => by
    simpa only [metadata, Prod.mk.injEq] using hm

/-- Settles O55: the ring and SINCE, the way into PUSH, and FB in PUSH, each from its own lemma about effects. -/
theorem onlyPushWritesTheRing : Obligations.OnlyPushWritesTheRing := by
  intro s t i h hi
  have e := exec_effect h
  refine ⟨?_, fun ht => (e.push_cases ht).imp_right ?_, e.fb_of_push hi⟩
  · obtain hring | hpush := e.ring_cases hi
    · refine (e.since_cases hi).imp_left fun hsince => ?_
      simp only [ringState, Prod.mk.injEq] at hring
      obtain ⟨hram, hhead, hcount, hpushes⟩ := hring
      exact ⟨hram, hhead, hcount, hpushes, hsince⟩
    · exact .inr hpush
  · rintro ⟨rfl, hw, hf, hc, rfl⟩
    simp only [candidateFormed, Bool.and_eq_true, decide_eq_true_eq, beq_iff_eq] at hf
    exact ⟨rfl, hw, BitVec.eq_of_toNat_eq hf.1, hf.2, by simpa [checksumMatches] using hc, rfl, rfl⟩

/-- Settles O56: one lemma for each counter. -/
theorem countersMoveOnlyByTheirRules : Obligations.CountersMoveOnlyByTheirRules := by
  intro s t i h hi
  have e := exec_effect h
  exact ⟨e.framesOk_cases hi, e.framesCrcBad_cases hi, e.framesPartial_cases hi, e.bytesDiscarded_cases hi,
    e.timeouts_cases hi, e.samplesZero_cases hi⟩

/-- Settles O46: the elements of R34 one by one; the content is empty because COUNT is 0. -/
theorem resetGivesTheResetState : Obligations.ResetGivesTheResetState := by
  intro s
  refine ⟨_, rfl, rfl, rfl, rfl, rfl, rfl, rfl, rfl, rfl, rfl, rfl, rfl, rfl, rfl, rfl, rfl, rfl, rfl, rfl, rfl, rfl,
    rfl, rfl, rfl, List.length_map _, fun p q hq => ?_, rfl, rfl⟩
  exact List.getElem?_map.trans (congrArg (Option.map (resetLatch s.params)) hq)

end Sys2Proof.Proofs

/-! PROOFS. Snapshots (20_memory.md R42, R45; 43_ringbuffer.md R101 to R104): READ and STAT repeated, and that a snapshot
entry reads back as it stood until a push makes it stale. -/

namespace Sys2Proof.Machine

open Safety

/-! ## A response changes nothing a command reads -/

section Responses

variable {s : State} {p : Nat}

/-- A response changes no port but in its `rsp`. -/
theorem respond_ports_cases {n : Nat} {r : Rsp} {q q' : Port} (hq : s.ports[n]? = some q)
    (hq' : (respond p r s).ports[n]? = some q') : q' = { q with rsp := q'.rsp } := by
  by_cases hn : n = p
  · subst hn
    rw [respond_ports_same r hq] at hq'
    cases hq'
    rfl
  · rw [respond_ports_other r s hn, hq] at hq'
    cases hq'
    rfl

theorem portAt_congr {t : State} (hpar : t.params = s.params) (hport : t.ports[p]? = s.ports[p]?) :
    portAt t p = portAt s p := by
  simp [portAt, List.getD, hpar, hport]

/-- A response on port `n` changes port `p` at most in its `rsp`, whether or not the build has these ports. -/
theorem portAt_respond_cases (n : Nat) (r : Rsp) :
    ∃ r', portAt (respond n r s) p = { portAt s p with rsp := r' } := by
  cases hq : s.ports[p]? with
  | none =>
    refine ⟨(portAt s p).rsp, portAt_congr rfl ?_⟩
    rw [respond, onPort_ports_getElem?, hq]
    rfl
  | some q =>
    have hlt : p < (respond n r s).ports.length := by
      rw [respond, onPort_ports_length]
      exact (List.getElem?_eq_some_iff.1 hq).1
    have hq' := List.getElem?_eq_getElem hlt
    rw [portAt_of_getElem? hq, portAt_of_getElem? hq']
    exact ⟨_, respond_ports_cases hq hq'⟩

theorem readRsp_respond (r : Rsp) (k : Nat) : readRsp (respond p r s) p k = readRsp s p k := by
  obtain ⟨r', h⟩ := portAt_respond_cases (s := s) (p := p) p r
  rw [readRsp, h]
  rfl

theorem statValue_respond (r : Rsp) (sel : Byte) : statValue (respond p r s) p sel = statValue s p sel := by
  obtain ⟨r', h⟩ := portAt_respond_cases (s := s) (p := p) p r
  rw [statValue, h]
  rfl

/-- A later response replaces an earlier one. -/
theorem respond_respond (r r' : Rsp) : respond p r' (respond p r s) = respond p r' s :=
  onPort_onPort p _ _ s

/-- A READ or a STAT only responds, and responds the same from the state it leaves (R42). -/
theorem exec_read_or_stat_again {i : Instr} (hi : (∃ g k, i = .read p g k) ∨ ∃ l sel, i = .stat p l sel) :
    ∃ r, exec i s = .next (respond p r s) ∧ exec i (respond p r s) = .next (respond p r s) := by
  obtain ⟨g, k, rfl⟩ | ⟨l, sel, rfl⟩ := hi
  · refine ⟨_, execRead_eq s p g k, ?_⟩
    rw [exec, execRead_eq, readRsp_respond, respond_respond]
  · refine ⟨_, execStat_eq p l sel s, ?_⟩
    rw [exec, execStat_eq, statValue_respond, respond_respond]

end Responses

/-! ## Instructions one after another -/

theorem andThen_next {r : Result} {f : State → Result} {t : State} (h : andThen r f = .next t) :
    ∃ u, r = .next u ∧ f u = .next t := by
  cases r with
  | next u => exact ⟨u, rfl, h⟩
  | fault | refused => cases h

/-- What every instruction of a list keeps, the whole list keeps. -/
theorem execAll_keeps {P : State → Prop} {is : List Instr} {s t : State}
    (hstep : ∀ i ∈ is, ∀ {u v : State}, P u → Effect u i v → P v) (ht : execAll is s = .next t) (hs : P s) : P t := by
  induction is generalizing s with
  | nil =>
    cases ht
    exact hs
  | cons i is ih =>
    obtain ⟨u, hu, hrest⟩ := andThen_next ht
    exact ih (fun j hj => hstep j (List.mem_cons_of_mem i hj)) hrest
      (hstep i List.mem_cons_self hs (exec_effect hu))

/-! ## What a latch still stands for -/

/-- Port `p` of state `s` holds a snapshot of the content `xs` (R35, R45): the latch counts its entries, HEAD has moved on
by as many entries as were pushed since while SINCE has not saturated, and every entry that is not stale (R104) is still in
the ring. -/
structure HoldsSnapshot (xs : List PointWord) (p : Nat) (s : State) : Prop where
  legal : s.params.legal
  port_lt : p < s.ports.length
  length_le : xs.length ≤ s.params.capacity
  count : (portAt s p).countL.toNat = xs.length
  head : (portAt s p).since.toNat < s.params.capacity →
    s.head.toNat = ((portAt s p).headL.toNat + (portAt s p).since.toNat) % s.params.capacity
  entry : ∀ k pw, xs[k]? = some pw → isStale s.params.capacity (portAt s p) k = false →
    ramRead s (physIndex s.params.capacity (portAt s p) k) = pw

theorem isStale_eq_false_iff {c k : Nat} {q : Port} :
    isStale c q k = false ↔ q.since.toNat + q.countL.toNat ≤ c + k := by
  simp [isStale]

section Snapshots

variable {s t : State} {p : Nat} {xs : List PointWord} {i : Instr}

/-- The port after its SNAP (R101): the latch taken, and a response. -/
theorem portAt_of_exec_snap (hp : p < s.ports.length) {g : BitVec 28} (ht : exec (.snap p g) s = .next t) :
    ∃ r, portAt t p = { takeSnapshot s (portAt s p) with rsp := r } := by
  rw [exec, execSnap, respond, onPort_onPort] at ht
  cases ht
  exact ⟨_, portAt_onPort _ hp⟩

/-- A SNAP holds the content. -/
theorem HoldsSnapshot.of_snap (h : Inv s) (hp : p < s.ports.length) {g : BitVec 28}
    (ht : exec (.snap p g) s = .next t) : HoldsSnapshot (content s) p t := by
  obtain ⟨r, hport⟩ := portAt_of_exec_snap hp ht
  cases ht
  exact {
    legal := h.params
    port_lt := by simpa [respond] using hp
    length_le := by rw [content_length]; exact h.count_le
    count := by rw [hport, content_length]; rfl
    head := fun _ => by
      rw [hport]
      exact (Nat.mod_eq_of_lt h.head_lt).symm
    entry := fun k pw hk _ => by
      obtain ⟨hlt, rfl⟩ := List.getElem?_eq_some_iff.1 hk
      rw [hport, content_getElem hlt]
      rfl }

/-- What a snapshot is, is read off the parameters, the ring and the port's latch. -/
theorem HoldsSnapshot.congr (h : HoldsSnapshot xs p s) (hpar : t.params = s.params)
    (hlen : t.ports.length = s.ports.length) (hring : ringState t = ringState s) {r : Option Rsp}
    (hport : portAt t p = { portAt s p with rsp := r }) : HoldsSnapshot xs p t := by
  simp only [ringState, Prod.mk.injEq] at hring
  obtain ⟨hram, hhead, -, -⟩ := hring
  constructor
  · exact hpar ▸ h.legal
  · exact hlen ▸ h.port_lt
  · exact hpar ▸ h.length_le
  · rw [hport]; exact h.count
  · rw [hport, hpar, hhead]; exact h.head
  · rw [hport, hpar, ramRead_congr hram]; exact h.entry

theorem HoldsSnapshot.nextSlot (h : HoldsSnapshot xs p s) : HoldsSnapshot xs p (nextSlot s) :=
  h.congr (nextSlot_params s) (by rw [nextSlot_ports]) (by simp [ringState]) (r := (portAt s p).rsp)
    (portAt_congr (nextSlot_params s) (by rw [nextSlot_ports]))

/-- Where entry `k` of a snapshot survives the next push, it does not stand at HEAD, the entry the push overwrites. -/
theorem HoldsSnapshot.physIndex_ne_head (h : HoldsSnapshot xs p s) {k : Nat} (hk : k < xs.length)
    (hfresh : (portAt s p).since.toNat + xs.length < s.params.capacity + k) :
    physIndex s.params.capacity (portAt s p) k ≠ s.head.toNat := by
  have hle := h.length_le
  rw [physIndex, h.count, h.head (by omega), Nat.add_sub_assoc hle, Nat.add_assoc]
  intro he
  have hmod := Nat.ModEq.add_left_cancel' _ he
  rw [Nat.ModEq, Nat.mod_eq_of_lt (by omega), Nat.mod_eq_of_lt (by omega)] at hmod
  omega

theorem portAt_afterRingWrite (hp : p < s.ports.length) (pw : PointWord) :
    portAt (afterRingWrite pw s) p = bumpSince s.params.capacity (portAt s p) := by
  have hq := List.getElem?_eq_getElem hp
  rw [portAt_of_getElem? hq]
  exact portAt_of_getElem? (by simp [afterRingWrite, hq])

/-- A push keeps the snapshot: it moves HEAD and SINCE on together, and the entry it overwrites is stale after it. -/
theorem HoldsSnapshot.ringWrite (h : HoldsSnapshot xs p s) (pw : PointWord) :
    HoldsSnapshot xs p (afterRingWrite pw s) := by
  obtain ⟨hc1, hc2, -⟩ := h.legal
  have hport := portAt_afterRingWrite h.port_lt pw
  have hsince := bumpSince_since (portAt s p) hc2
  have hcount : (bumpSince s.params.capacity (portAt s p)).countL = (portAt s p).countL := rfl
  have hpar : (afterRingWrite pw s).params = s.params := rfl
  constructor
  · exact h.legal
  · simpa [afterRingWrite] using h.port_lt
  · exact h.length_le
  · rw [hport]; exact h.count
  · rw [hport, hpar, hsince, afterRingWrite_head pw hc1]
    intro hlt
    rw [h.head (by omega), Nat.min_eq_left (by omega), Nat.mod_add_mod]
    rfl
  · intro k x hk hfresh
    obtain ⟨hlt, -⟩ := List.getElem?_eq_some_iff.1 hk
    have hle := h.length_le
    have hcl := h.count
    rw [hport, hpar] at hfresh ⊢
    rw [isStale_eq_false_iff, hsince, hcount] at hfresh
    have hphys : physIndex s.params.capacity (bumpSince s.params.capacity (portAt s p)) k =
      physIndex s.params.capacity (portAt s p) k := rfl
    rw [hphys, ramRead_afterRingWrite, if_neg (h.physIndex_ne_head hlt (by omega))]
    exact h.entry k x hk (isStale_eq_false_iff.2 (by omega))

/-- What an instruction short of RESET and a SNAP on port `p` can do to the ring and the latch of port `p`: a push, or at
most a response. -/
theorem Effect.latch_cases (e : Effect s i t) (hi : i ≠ .reset) (hs : ∀ g, i ≠ .snap p g) :
    (∃ pw, t = nextSlot (afterRingWrite pw s)) ∨
    (ringState t = ringState s ∧ ∃ r, portAt t p = { portAt s p with rsp := r }) := by
  cases e with
  | pushPoint => exact .inl ⟨_, rfl⟩
  | pushZero =>
    exact .inr ⟨by simp [ringState], (portAt s p).rsp, portAt_congr (nextSlot_params _) (by rw [nextSlot_ports])⟩
  | reset => exact absurd rfl hi
  | snap n g =>
    have hn : p ≠ n := fun hpn => hs g (hpn ▸ rfl)
    refine .inr ⟨rfl, (portAt s p).rsp, portAt_congr rfl ?_⟩
    rw [respond_ports_other _ _ hn, onPort_ports_other _ _ hn]
  | readValid | readInvalid | stat | statUndefined | rsvd0 | rsvd47 | rsvd8F =>
    exact .inr ⟨rfl, portAt_respond_cases _ _⟩
  | _ => exact .inr ⟨rfl, (portAt s p).rsp, rfl⟩

theorem HoldsSnapshot.effect (h : HoldsSnapshot xs p s) (e : Effect s i t) (hi : i ≠ .reset)
    (hs : ∀ g, i ≠ .snap p g) : HoldsSnapshot xs p t := by
  obtain ⟨pw, rfl⟩ | ⟨hring, r, hport⟩ := e.latch_cases hi hs
  · exact (h.ringWrite pw).nextSlot
  · exact h.congr e.keeps_params e.keeps_ports_length hring hport

/-- A READ of an entry of the snapshot that is not stale answers with it (R102). -/
theorem HoldsSnapshot.readRsp_fresh (h : HoldsSnapshot xs p s) {k : Nat} {pw : PointWord} (hk : xs[k]? = some pw)
    (hfresh : isStale s.params.capacity (portAt s p) k = false) : readRsp s p k = pointRsp pw := by
  have hlt := (List.getElem?_eq_some_iff.1 hk).1
  rw [readRsp, if_pos ⟨h.count ▸ hlt, hfresh⟩, h.entry k pw hk hfresh]

/-- A READ that answers VALID = 1 answers with the entry of the snapshot (R45, R104). -/
theorem HoldsSnapshot.readRsp_valid (h : HoldsSnapshot xs p s) {k : Nat} (hv : (readRsp s p k).valid = true) :
    ∃ pw, xs[k]? = some pw ∧ readRsp s p k = pointRsp pw := by
  by_cases hk : k < (portAt s p).countL.toNat ∧ isStale s.params.capacity (portAt s p) k = false
  · have hget := List.getElem?_eq_getElem (h.count ▸ hk.1)
    exact ⟨_, hget, h.readRsp_fresh hget hk.2⟩
  · rw [readRsp, if_neg hk] at hv
    cases hv

/-- The response a READ leaves on a port that the build has (R58). -/
theorem rsp_of_exec_read (hp : p < s.ports.length) {g : BitVec 4} {k : BitVec 24}
    (ht : exec (.read p g k) s = .next t) : (portAt t p).rsp = some (readRsp s p k.toNat) := by
  rw [exec, execRead_eq] at ht
  cases ht
  rw [respond, portAt_onPort _ hp]

end Snapshots

end Sys2Proof.Machine

namespace Sys2Proof.Proofs

open Machine Safety

/-- Settles O45: the SNAP holds the content, every instruction allowed keeps it held, and a valid READ answers from it. -/
theorem validReadsReturnTheSnapshot : Obligations.ValidReadsReturnTheSnapshot := by
  intro s s1 t u p g is h k r hinv hp hsnap his hrun hread hr hv
  have hheld : HoldsSnapshot (content s) p t := execAll_keeps
    (fun i hi _ _ hu e => hu.effect e (his i hi).1 (his i hi).2) hrun (.of_snap hinv hp hsnap)
  obtain rfl : readRsp t p k.toNat = r := Option.some.inj ((rsp_of_exec_read hheld.port_lt hread).symm.trans hr)
  exact hheld.readRsp_valid hv

/-- Settles O42: a READ or a STAT is one response, the same again from the state it leaves. -/
theorem readAndStatAreIdempotent : Obligations.ReadAndStatAreIdempotent := by
  intro s t p g k l sel i hi ht
  obtain ⟨r, hs, hagain⟩ := exec_read_or_stat_again (s := s) (hi.imp (fun h => ⟨g, k, h⟩) fun h => ⟨l, sel, h⟩)
  obtain rfl := Host.Outcome.next.inj (hs.symm.trans ht)
  exact ⟨hagain, fun q q' n hq hq' => respond_ports_cases hq hq'⟩

/-- Settles O44: right after the SNAP, SINCE is 0 and no entry is stale. -/
theorem readAfterSnapReturnsTheContent : Obligations.ReadAfterSnapReturnsTheContent := by
  intro s t p g h k hinv hp hsnap
  refine ⟨content_length s, fun pw hk => ⟨_, execRead_eq t p h k, ?_⟩⟩
  have hheld : HoldsSnapshot (content s) p t := .of_snap hinv hp hsnap
  obtain ⟨r, hport⟩ := portAt_of_exec_snap hp hsnap
  have hsince : (portAt t p).since.toNat = 0 := by rw [hport]; rfl
  have hfresh : isStale t.params.capacity (portAt t p) k.toNat = false := by
    have hle := hheld.length_le
    rw [isStale_eq_false_iff, hsince, hheld.count]
    omega
  rw [rsp_of_exec_read hheld.port_lt (g := h) (execRead_eq t p h k), hheld.readRsp_fresh hk hfresh]

/-- Settles O48: what a turn takes and what an instruction does both keep the parameters. -/
theorem parametersNeverChange : Obligations.ParametersNeverChange :=
  fun _ _ h => step_keeps_params h

end Sys2Proof.Proofs

/-! PROOFS. Words and their meanings (30_encoding.md): the decoder against the tables, the events of a frame, the status
map, and the point word with the bound of its coordinates (42_projector.md R95). -/

namespace Sys2Proof.Laws

/-- The family `DecodesBack`, whole: an instruction's word decodes to it wherever its row is enabled. -/
theorem decodesBack : ∀ i : Instr, DecodesBack.Statement i
  | .huntMarker => DecodesBack.huntMarker
  | .huntSkip b => DecodesBack.huntSkip b
  | .huntTimeout g => DecodesBack.huntTimeout g
  | .collectByte b => DecodesBack.collectByte b
  | .collectLast b => DecodesBack.collectLast b
  | .collectTimeout g => DecodesBack.collectTimeout g
  | .closed g => DecodesBack.closed g
  | .srcRsvd g => DecodesBack.srcRsvd g
  | .srcNotAccepted w => DecodesBack.srcNotAccepted w
  | .decode => DecodesBack.decode
  | .push => DecodesBack.push
  | .snap q g => DecodesBack.snap q g
  | .read q g k => DecodesBack.read q g k
  | .stat q g sel => DecodesBack.stat q g sel
  | .cmdRsvd0 q g => DecodesBack.cmdRsvd0 q g
  | .cmdRsvd47 q a g => DecodesBack.cmdRsvd47 q a g
  | .cmdRsvd8F q a g => DecodesBack.cmdRsvd8F q a g
  | .reset => DecodesBack.reset
  | .wireFrame f => DecodesBack.wireFrame f

end Sys2Proof.Laws

namespace Sys2Proof.Machine

open Bits

/-! ## Source events -/

/-- The event word of a byte is the byte, zero-extended (R48). -/
theorem dataEvent_eq (b : Byte) : dataEvent b = .word (b.setWidth 10) := by
  rw [dataEvent, BitVec.setWidth_eq_append (by decide)]
  rfl

/-! ## STAT -/

section Status

variable {s : State} {p : Nat} {sel : Byte}

/-- STAT's map gives selector `row.1` the number `row.2` on port `p` (R59). -/
def StatShows (s : State) (p : Nat) (row : Byte × Nat) : Prop :=
  ∃ v, statValue s p row.1 = some v ∧ v.toNat = row.2

theorem StatShows.word {v : Word} (h : statValue s p sel = some v) : StatShows s p (sel, v.toNat) := ⟨v, h, rfl⟩

/-- A field of at most 32 bits, zero-extended, shows its number. -/
theorem StatShows.field {n : Nat} {x : BitVec n} (h : statValue s p sel = some (x.setWidth 32))
    (hn : n ≤ 32 := by decide) : StatShows s p (sel, x.toNat) :=
  ⟨_, h, BitVec.toNat_setWidth_of_le hn⟩

theorem StatShows.number {n : Nat} (hn : n < 2 ^ 32) (h : statValue s p sel = some (BitVec.ofNat 32 n)) :
    StatShows s p (sel, n) :=
  ⟨_, h, Nat.mod_eq_of_lt hn⟩

/-- HEAD and HEAD_L, of the width R18 gives them, fit a status word. -/
theorem Reg.toNat_lt_word {c : Params} (hc : c.legal) {r : Reg} (hr : r.width = c.headBits) : r.toNat < 2 ^ 32 := by
  obtain ⟨-, hcap, -⟩ := hc
  have hle := headBits_le c hcap
  exact r.toNat_lt.trans_le (Nat.pow_le_pow_right (by decide) (by omega))

/-- `CFG_CRC` as a number (R59). -/
theorem cfgCrcWord_toNat (c : Params) : (cfgCrcWord c).toNat = 256 * c.crcInit.toNat + c.crcPoly.toNat := by
  simp only [cfgCrcWord, append_toNat, BitVec.toNat_ofNat]
  omega

/-- `WSTATUS` as a number (R59). -/
theorem wstatusWord_toNat (s : State) : (wstatusWord s).toNat =
    (wstateCode s.wstate).toNat + 2 ^ 8 * s.nb.toNat + 2 ^ 16 * s.slot.toNat := by
  simp only [wstatusWord, append_toNat, BitVec.toNat_ofNat]
  omega

/-- STAT's only effect is one response on its port, and it answers what the map shows (R105). -/
theorem exec_stat_of_shows {q : Port} {g : BitVec 20} {row : Byte × Nat} (hq : s.ports[p]? = some q)
    (h : StatShows s p row) : ∃ t, exec (.stat p g row.1) s = .next t ∧
      t.ports[p]? = some { q with rsp := some ⟨true, true, BitVec.ofNat 32 row.2, 0, 0⟩ } ∧ row.2 < 2 ^ 32 ∧
      (∀ p', p' ≠ p → t.ports[p']? = s.ports[p']?) ∧ t = { s with ports := t.ports } := by
  obtain ⟨v, hv, hn⟩ := h
  have hr : ((statValue s p row.1).map (Rsp.good · 0 0)).getD Rsp.refusal =
      ⟨true, true, BitVec.ofNat 32 row.2, 0, 0⟩ := by
    rw [hv, ← hn, BitVec.ofNat_toNat, BitVec.setWidth_eq]
    rfl
  refine ⟨_, execStat_eq p g row.1 s, ?_, hn ▸ v.isLt, fun p' hp' => respond_ports_other _ s hp',
    respond_frame _ _ s⟩
  rw [hr, respond_ports_same _ hq]

/-- The selectors R59 lists. -/
def statSelectors : List Nat :=
  [0x00, 0x01, 0x02, 0x03, 0x04, 0x08, 0x09, 0x0A, 0x0B, 0x10, 0x11, 0x12, 0x13, 0x14, 0x15, 0x16,
    0x20, 0x21, 0x22, 0x23, 0x24, 0x25, 0x26, 0x30, 0x31, 0x32, 0x33]

/-- The map has a value for a listed selector only. -/
theorem statValue_eq_none (s : State) (p : Nat) (h : sel.toNat ∉ statSelectors) : statValue s p sel = none := by
  unfold statValue
  split
  case h_28 => rfl
  all_goals
    rename_i hsel
    rw [hsel] at h
    exact absurd (by decide) h

end Status

/-! ## The bound of the coordinates -/

theorem abs_idealTrig_le_one (axis : Axis) (a : Nat) : |idealTrig axis a| ≤ 1 := by
  cases axis
  · exact Real.abs_cos_le_one _
  · exact Real.abs_sin_le_one _

/-- Euclidean division rounds a fraction down. -/
theorem ediv_eq_floor (q : Ratio) : q.1 / (q.2 : Int) = ⌊q.val⌋ := by
  rw [← Rat.floor_intCast_div_natCast, ← Rat.floor_cast (α := ℝ), Ratio.val]
  push_cast
  rfl

/-- A fraction that is not whole is away from every integer, not only from the nearest. -/
theorem far_of_not_isWhole {q : Ratio} (h : 0 < q.2) (hw : isWhole q = false) (k : ℤ) : 1 / 2 ^ 40 < |q.val - k| := by
  by_contra hk
  have hnear := abs_le.1 (nearest_error h)
  have hkk := abs_le.1 (not_lt.1 hk)
  have hlt : (nearest q : ℝ) < k + 1 ∧ (k : ℝ) < nearest q + 1 := by
    constructor <;> linarith
  obtain rfl : k = nearest q := by
    have : nearest q < k + 1 ∧ k < nearest q + 1 := by exact_mod_cast hlt
    omega
  rw [(isWhole_iff h).2 (not_lt.1 hk)] at hw
  cases hw

/-- Every build's rounding moves a coordinate by less than one, with 2^-40 to spare (R91). -/
theorem project_error (build : ProjBuild) (axis : Axis) (d a : Nat) :
    |(project build axis d a : ℝ) - (coordinate axis d a).val| < 1 - 1 / 2 ^ 40 := by
  have hpos := coordinate_den_pos axis d a
  have hnearest := (nearest_error hpos).trans_lt (show (1 / 2 : ℝ) < 1 - 1 / 2 ^ 40 by norm_num)
  cases build with
  | reference => exact hnearest
  | faithful b =>
    simp only [project, ediv_eq_floor]
    generalize coordinate axis d a = q at *
    split
    · exact hnearest
    · next hw =>
      have hfar := far_of_not_isWhole hpos (Bool.eq_false_iff.2 hw)
      have hdown := Int.floor_le q.val
      have hup := Int.lt_floor_add_one q.val
      have hlow := hfar ⌊q.val⌋
      have hhigh := hfar (⌊q.val⌋ + 1)
      push_cast at hhigh
      rw [abs_of_nonneg (by linarith)] at hlow
      rw [abs_of_nonpos (by linarith)] at hhigh
      split
      · push_cast
        rw [abs_of_nonneg (by linarith)]
        linarith
      · rw [abs_of_nonpos (by linarith)]
        linarith

/-- A coordinate is at most 256 · 65535 in size (R95). -/
theorem abs_project_le (build : ProjBuild) (axis : Axis) {d a : Nat} (hd : d ≤ 65535) (ha : a < 396000) :
    |project build axis d a| ≤ 16776960 := by
  have hideal : |256 * d * idealTrig axis a| ≤ 16776960 := by
    have hd' : (256 * d : ℝ) ≤ 16776960 := by exact_mod_cast (by omega : 256 * d ≤ 16776960)
    have h := mul_le_mul hd' (abs_idealTrig_le_one axis a) (abs_nonneg _) (by norm_num)
    rwa [abs_mul, abs_of_nonneg (by positivity), ← mul_one (16776960 : ℝ)]
  have hround := abs_lt.1 (project_error build axis d a)
  have hcoord := abs_le.1 (coordinate_error axis hd ha)
  have hideal := abs_le.1 hideal
  have hlt : |(project build axis d a : ℝ)| < 16776960 + 1 := by
    rw [abs_lt]
    constructor <;> linarith
  exact Int.lt_add_one_iff.1 (by exact_mod_cast hlt)

/-- A coordinate is kept whole by its 32 bits (R95). -/
theorem toInt_ofInt_project (build : ProjBuild) (axis : Axis) {d a : Nat} (hd : d ≤ 65535) (ha : a < 396000) :
    (BitVec.ofInt 32 (project build axis d a)).toInt = project build axis d a := by
  have h := abs_le.1 (abs_project_le build axis hd ha)
  exact BitVec.toInt_ofInt_eq_self (by decide) (by omega) (by omega)

end Sys2Proof.Machine

namespace Sys2Proof.Proofs

open Machine Laws Bits

/-- Settles O2: `DecodesBack`, constructor by constructor. -/
theorem decodingAnEncodedInstructionGivesItBack : Obligations.DecodingAnEncodedInstructionGivesItBack :=
  fun p i ws nb => decodesBack i p ws nb

/-- Settles O1: the decoder evaluated on each word. -/
theorem tableWordsDecodeAsTabled : Obligations.TableWordsDecodeAsTabled :=
  ⟨rfl, rfl, rfl, rfl, rfl, rfl, rfl, rfl, rfl, rfl, rfl, rfl, rfl, rfl, rfl, rfl, rfl, rfl⟩

/-- Settles O5: no meaning takes its ignored operand into account. -/
theorem ignoredBitsChangeNothing : Obligations.IgnoredBitsChangeNothing :=
  fun _ _ _ _ _ _ _ _ _ _ _ _ => ⟨rfl, rfl, rfl, rfl, rfl, rfl, rfl, rfl⟩

/-- Settles O17: in either requesting state both rows are the one handler of a TIMEOUT there. -/
theorem reservedKindActsAsTimeout : Obligations.ReservedKindActsAsTimeout := by
  refine fun s g g' => ⟨fun hw => ?_, fun hw => ?_⟩
  · have hrsvd : exec (.srcRsvd g) s = .next (timeoutInHunt s) := by rw [exec, execSrcRsvd_eq, if_pos hw]
    have htimeout : exec (.huntTimeout g') s = .next (timeoutInHunt s) := if_pos hw
    exact ⟨hrsvd.trans htimeout.symm, hrsvd⟩
  · have hrsvd : exec (.srcRsvd g) s = .next (timeoutInCollect s) := by
      rw [exec, execSrcRsvd_eq, if_neg (by simp [hw]), if_pos hw]
    have htimeout : exec (.collectTimeout g') s = .next (timeoutInCollect s) := if_pos hw
    exact ⟨hrsvd.trans htimeout.symm, hrsvd⟩

/-- Settles O19: the frame's 47 bytes stand, as events, ahead of what was pending. -/
theorem wireFrameIsFortySevenEvents : Obligations.WireFrameIsFortySevenEvents := by
  intro s f
  have hlen : ((f.bytes s.params.marker).map dataEvent).length = 47 := by simp
  refine ⟨_, rfl, rfl, ?_, List.drop_left' hlen, fun j hj => ?_⟩
  · rw [List.length_append, hlen]
  · rw [List.getElem?_append_left (by omega), List.getElem?_map, Frame.bytes_getElem? _ f hj, Option.map_some,
      dataEvent_eq]

/-- Settles O29: the coordinates are bounded, and the point word's three fields are put together from them and the
intensity. -/
theorem pointWordHoldsThePoint : Obligations.PointWordHoldsThePoint := by
  intro build d a c _ hd ha
  let x := BitVec.ofInt 32 (project build .x d a)
  let y := BitVec.ofInt 32 (project build .y d a)
  have hx : (pointWord build d a c).extractLsb' 0 32 = x := low_append (c ++ y) x
  have hy : (pointWord build d a c).extractLsb' 32 32 = y := cmdMid_append3 c y x
  have hc : (pointWord build d a c).extractLsb' 64 8 = c := cmdTop_append3 c y x
  refine ⟨fun axis => abs_project_le build axis hd ha, ?_, ?_, hc⟩
  · rw [hx, toInt_ofInt_project build .x hd ha]
  · rw [hy, toInt_ofInt_project build .y hd ha]

/-- Settles O39: the map shows each listed number. The groups are the parameters, the writer and the ring; the counters
and the last error; the metadata; and the asking port's latch. -/
theorem statAnswersEverySelector : Obligations.StatAnswersEverySelector := by
  intro s p g q hq hlegal hports hhead hheadL ws le row hrow
  have ⟨_, hcap, _⟩ := hlegal
  have hws : (wstateCode s.wstate).toNat = ws := by
    simp only [ws]
    cases s.wstate <;> rfl
  have hle : (errorCode s.lastError).toNat = le := by
    simp only [le]
    cases s.lastError <;> rfl
  obtain rfl : portAt s p = q := portAt_of_getElem? hq
  refine exec_stat_of_shows hq ?_
  revert row
  simp only [List.forall_mem_append, List.forall_mem_cons]
  refine ⟨⟨⟨?_, ?_⟩, ?_⟩, ?_⟩
  · exact ⟨.number (hcap.trans_lt (by decide)) rfl, .field rfl, .number (by decide) rfl,
      ⟨_, rfl, cfgCrcWord_toNat s.params⟩, .number hports rfl, ⟨_, rfl, hws ▸ wstatusWord_toNat s⟩, .field rfl,
      .number (Reg.toNat_lt_word hlegal hhead) rfl, .word rfl, nofun⟩
  · exact ⟨.word rfl, .word rfl, .word rfl, .word rfl, .word rfl, .word rfl, hle ▸ .field rfl, nofun⟩
  · exact ⟨.field rfl, .field rfl, .field rfl, .field rfl, .field rfl, .field rfl, .field rfl, nofun⟩
  · exact ⟨.field rfl, .number (Reg.toNat_lt_word hlegal hheadL) rfl, .word rfl, .field rfl, nofun⟩

/-- Settles O40: where the map lists nothing the response is the refusal, and a response is all there is. -/
theorem statRefusesUndefinedSelectors : Obligations.StatRefusesUndefinedSelectors := by
  intro s p g sel q hq hsel
  refine ⟨_, execStat_eq p g sel s, ?_, fun p' hp' => respond_ports_other _ s hp', respond_frame _ _ s⟩
  rw [statValue_eq_none s p hsel, respond_ports_same _ hq]
  rfl

end Sys2Proof.Proofs

/-! PROOFS. The frame synchronizer (40_synchronizer.md): the encoder against the decoder, the words placed for the next
step, each row's effect, and a frame collected byte by byte. -/

namespace Sys2Proof.Laws

open Bits

/-! ## What the decoder answers, its encoding gives back -/

/-- Word `w` is the encoding of `i`, which is well formed and enabled in context `c`. -/
def EncodesBack (c : Ctx) (w : PortWord) (i : Instr) : Prop :=
  encode c.params i = w ∧ i.wf c.params = true ∧ i.enabledIn c.wstate c.nb = true

/-- A source word as its fields, where its kind is known (R48). -/
theorem srcWord_of_kind {w : SrcWord} {k : BitVec 2} (h : srcKind w = k) : PortWord.src (k ++ srcData w) = .src w := by
  rw [← h, srcWord_fields]

theorem srcKind_eq_three {w : SrcWord} (h0 : srcKind w ≠ 0#2) (h1 : srcKind w ≠ 1#2) (h2 : srcKind w ≠ 2#2) :
    srcKind w = 3#2 := by
  have hall : ∀ k : BitVec 2, k ≠ 0#2 → k ≠ 1#2 → k ≠ 2#2 → k = 3#2 := by decide
  exact hall _ h0 h1 h2

theorem decodeHunt_encodesBack {c : Ctx} (hc : c.wstate = .hunt) (w : SrcWord) :
    EncodesBack c (.src w) (decodeHunt c.params.marker w) := by
  unfold decodeHunt
  split_ifs with h0 hm h1 h2
  · exact ⟨congrArg PortWord.src (hm ▸ h0 ▸ srcWord_fields w), rfl, by simp [Instr.enabledIn, hc]⟩
  · exact ⟨srcWord_of_kind h0, by simp [Instr.wf, hm], by simp [Instr.enabledIn, hc]⟩
  · exact ⟨srcWord_of_kind h1, rfl, by simp [Instr.enabledIn, hc]⟩
  · exact ⟨srcWord_of_kind h2, rfl, by simp [Instr.enabledIn, hc]⟩
  · exact ⟨srcWord_of_kind (srcKind_eq_three h0 h1 h2), rfl, by simp [Instr.enabledIn, hc]⟩

theorem decodeCollect_encodesBack {c : Ctx} (hc : c.wstate = .collect) {w : SrcWord} {i : Instr}
    (h : decodeCollect c.nb w = .ok i) : EncodesBack c (.src w) i := by
  unfold decodeCollect at h
  split_ifs at h with h0 hlt hlast h1 h2 <;> cases h
  · exact ⟨srcWord_of_kind h0, rfl, by simp [Instr.enabledIn, hc, hlt]⟩
  · exact ⟨srcWord_of_kind h0, rfl, by simp [Instr.enabledIn, hc, hlast]⟩
  · exact ⟨srcWord_of_kind h1, rfl, by simp [Instr.enabledIn, hc]⟩
  · exact ⟨srcWord_of_kind h2, rfl, by simp [Instr.enabledIn, hc]⟩
  · exact ⟨srcWord_of_kind (srcKind_eq_three h0 h1 h2), rfl, by simp [Instr.enabledIn, hc]⟩

theorem decodeSrc_encodesBack {c : Ctx} {w : SrcWord} {i : Instr} (h : decodeSrc c w = .ok i) :
    EncodesBack c (.src w) i := by
  unfold decodeSrc at h
  split at h
  next hc => exact Except.ok.inj h ▸ decodeHunt_encodesBack hc w
  next hc => exact decodeCollect_encodesBack hc h
  all_goals exact Except.ok.inj h ▸ ⟨rfl, rfl, by simp [Instr.enabledIn, *]⟩

/-- A word is its three fields, put together again. -/
theorem append_fields3 {l m n : Nat} (w : BitVec (l + m + n)) :
    w.extractLsb' (n + m) l ++ w.extractLsb' n m ++ w.extractLsb' 0 n = w := by
  have hhigh := append_fields (w.extractLsb' n (l + m))
  rw [field_field w n (l + m) m l (by omega), field_field w n (l + m) 0 m (by omega)] at hhigh
  exact (congrArg (· ++ w.extractLsb' 0 n) hhigh).trans (append_fields w)

/-- A reserved OP whose top bit is 0 is 4 to 7 (R57). -/
theorem topBits_of_rsvd47 {w : CmdWord} (h1 : cmdOp w ≠ 1#4) (h2 : cmdOp w ≠ 2#4) (h3 : cmdOp w ≠ 3#4)
    (h0 : cmdOp w ≠ 0#4) (ht : w.extractLsb' 31 1 = 0#1) : w.extractLsb' 30 2 = 1#2 := by
  have hall : ∀ op : BitVec 4, op ≠ 1#4 → op ≠ 2#4 → op ≠ 3#4 → op ≠ 0#4 → op.extractLsb' 3 1 = 0#1 →
      op.extractLsb' 2 2 = 1#2 := by decide
  rw [← field_field w 28 4 2 2 (by decide)]
  exact hall _ h1 h2 h3 h0 (cmdTopBit w ▸ ht)

theorem decodeCmd_encodesBack {c : Ctx} {p : Nat} (hp : p < c.params.ports) (w : CmdWord) :
    EncodesBack c (.cmd p w) (decodeCmd p w) := by
  have hwf : decide (p < c.params.ports) = true := decide_eq_true hp
  unfold decodeCmd
  split_ifs with h1 h2 h3 h0 ht
  · exact ⟨congrArg (PortWord.cmd p) (h1 ▸ cmdWord_fields w), hwf, rfl⟩
  · exact ⟨congrArg (PortWord.cmd p) (h2 ▸ append_fields3 (l := 4) (m := 4) (n := 24) w), hwf, rfl⟩
  · exact ⟨congrArg (PortWord.cmd p) (h3 ▸ append_fields3 (l := 4) (m := 20) (n := 8) w), hwf, rfl⟩
  · exact ⟨congrArg (PortWord.cmd p) (h0 ▸ cmdWord_fields w), hwf, rfl⟩
  · exact ⟨congrArg (PortWord.cmd p)
      (topBits_of_rsvd47 h1 h2 h3 h0 ht ▸ append_fields3 (l := 2) (m := 2) (n := 28) w), hwf, rfl⟩
  · exact ⟨congrArg (PortWord.cmd p)
      ((BitVec.eq_zero_or_eq_one _).resolve_left ht ▸ append_fields3 (l := 1) (m := 3) (n := 28) w), hwf, rfl⟩

theorem decodeFrame_encodesBack {c : Ctx} {bs : List Byte} {i : Instr} (h : decodeFrame c.params.marker bs = .ok i) :
    EncodesBack c (.frame bs) i := by
  unfold decodeFrame at h
  split_ifs at h with hbs
  cases h
  exact ⟨congrArg PortWord.frame (bytes_frameOf hbs.1 hbs.2), rfl, rfl⟩

theorem decodeInternal_encodesBack {c : Ctx} {i : Instr} (h : decodeInternal c.wstate = .ok i) :
    EncodesBack c .internal i := by
  unfold decodeInternal at h
  split at h <;> cases h
  all_goals exact ⟨rfl, rfl, by simp [Instr.enabledIn, *]⟩

theorem decode_encodesBack {c : Ctx} {w : PortWord} {i : Instr} (h : decode c w = .ok i) : EncodesBack c w i := by
  cases w with
  | src w => exact decodeSrc_encodesBack h
  | frame bs => exact decodeFrame_encodesBack h
  | cmd p w =>
    simp only [decode] at h
    split_ifs at h with hp
    exact Except.ok.inj h ▸ decodeCmd_encodesBack hp w
  | host line =>
    simp only [decode] at h
    split_ifs at h with hl
    subst hl
    exact Except.ok.inj h ▸ ⟨rfl, rfl, rfl⟩
  | internal => exact decodeInternal_encodesBack h

end Sys2Proof.Laws

namespace Sys2Proof.Machine

/-! ## The effect of each source row in its own states -/

section Rows

variable {s : State}

theorem exec_huntMarker (hw : s.wstate = .hunt) :
    exec .huntMarker s = .next (goto .collect 1 (fbStore 0 s.params.marker s)) :=
  if_pos hw

theorem exec_huntSkip (b : Byte) (hw : s.wstate = .hunt) :
    exec (.huntSkip b) s = .next { s with bytesDiscarded := s.bytesDiscarded + 1 } :=
  if_pos hw

theorem exec_huntTimeout (g : Byte) (hw : s.wstate = .hunt) : exec (.huntTimeout g) s = .next (timeoutInHunt s) :=
  if_pos hw

theorem exec_collectByte (b : Byte) (hw : s.wstate = .collect) (hn : s.nb.toNat < 46) :
    exec (.collectByte b) s = .next (goto .collect (s.nb + 1) (fbStore s.nb.toNat b s)) :=
  if_pos ⟨hw, hn⟩

theorem exec_collectLast (b : Byte) (hw : s.wstate = .collect) (hn : s.nb.toNat = 46) :
    exec (.collectLast b) s = .next (goto .decode 47 (fbStore 46 b s)) :=
  if_pos ⟨hw, hn⟩

theorem exec_collectTimeout (g : Byte) (hw : s.wstate = .collect) :
    exec (.collectTimeout g) s = .next (timeoutInCollect s) :=
  if_pos hw

theorem exec_closed (g : Byte) (hw : s.wstate = .hunt ∨ s.wstate = .collect) :
    exec (.closed g) s = .next (transportClosed s) :=
  if_pos hw

/-- The byte a store names reads back, with the sequencer moved on. -/
theorem fbRead_goto_fbStore_same (w : WState) (n : BitVec 6) (j : Nat) (b : Byte) (s : State) :
    fbRead (goto w n (fbStore j b s)) j = b := by
  rw [fbRead_goto, fbRead_fbStore, if_pos rfl]

theorem fbRead_goto_fbStore_other (w : WState) (n : BitVec 6) {j k : Nat} (b : Byte) (s : State) (h : k ≠ j) :
    fbRead (goto w n (fbStore j b s)) k = fbRead s k := by
  rw [fbRead_goto, fbRead_fbStore, if_neg h]

end Rows

/-! ## Source turns -/

section SourceTurns

variable {s : State}

theorem fetch_runs {w : PortWord} {i : Instr} (h : offered s (turnOf s) = some w) (hd : decode (ctxOf s) w = .ok i) :
    fetch s = (some i, consume (turnOf s) i (afterTurn s)) := by
  simp [fetch, h, hd]

/-- The state once the source's turn is taken and what it offered is accepted. -/
def afterEvent (s : State) : State := { afterTurn s with srcQ := s.srcQ.tail }

@[simp] theorem afterEvent_srcQ (s : State) : (afterEvent s).srcQ = s.srcQ.tail := rfl

/-- What the source gives up: an event that is accepted, and a frame it sends. -/
theorem consume_source {i : Instr} (hi : ∀ w, i ≠ .srcNotAccepted w) (s : State) :
    consume .source i (afterTurn s) = afterEvent s := by
  cases i with
  | srcNotAccepted w => exact absurd rfl (hi w)
  | _ => rfl

theorem offered_word {w : SrcWord} {rest : List SrcItem} (hq : s.srcQ = .word w :: rest) :
    offered s .source = some (.src w) := by
  simp [offered, hq]

theorem offered_frame {f : Frame} {rest : List SrcItem} (hr : requests s = true) (hq : s.srcQ = .frame f :: rest) :
    offered s .source = some (.frame (f.bytes s.params.marker)) := by
  simp [offered, hq, hr]

theorem offered_cmd {p : Nat} {w : CmdWord} {ws : List CmdWord} (h : (portAt s p).cmds = w :: ws) :
    offered s (.consumer p) = some (.cmd p w) := by
  simp [offered, h]

theorem requests_iff : requests s = true ↔ s.wstate = .hunt ∨ s.wstate = .collect := decide_eq_true_iff

/-- A source turn whose event or frame decodes to a step that accepts it. -/
theorem step_source_served {w : PortWord} {i : Instr} (ht : turnOf s = .source) (ho : offered s .source = some w)
    (hd : decode (ctxOf s) w = .ok i) (hi : ∀ w, i ≠ .srcNotAccepted w) :
    step s = exec i (afterEvent s) := by
  rw [step_runs (by rwa [ht]) hd, ht, consume_source hi]

/-- Every event is accepted in HUNT. -/
theorem decodeHunt_accepts (m : Byte) (w : SrcWord) :
    (∀ w', decodeHunt m w ≠ .srcNotAccepted w') ∧ ∀ f, decodeHunt m w ≠ .wireFrame f := by
  unfold decodeHunt
  split_ifs <;> exact ⟨nofun, nofun⟩

/-- Where events are requested, one that is offered is decoded to a row that accepts it (R14, R64). -/
theorem decode_requested (w : SrcWord) (hr : s.wstate = .hunt ∨ s.wstate = .collect)
    (hn : s.wstate = .collect → s.nb.toNat ≤ 46) :
    ∃ i, decode (ctxOf s) (.src w) = .ok i ∧ (∀ w, i ≠ .srcNotAccepted w) ∧ ∀ f, i ≠ .wireFrame f := by
  obtain hw | hw := hr
  · exact ⟨_, by simp [decode, decodeSrc, ctxOf, hw], decodeHunt_accepts s.params.marker w⟩
  · have hle := hn hw
    simp only [decode, decodeSrc, ctxOf, hw, decodeCollect]
    split_ifs
    next => exact ⟨_, rfl, nofun, nofun⟩
    next => exact ⟨_, rfl, nofun, nofun⟩
    next => omega
    all_goals exact ⟨_, rfl, nofun, nofun⟩

/-- No instruction takes a pending event, and only a frame adds some. -/
theorem Effect.keeps_srcQ {t : State} {i : Instr} (e : Effect s i t) (hi : ∀ f, i ≠ .wireFrame f) :
    t.srcQ = s.srcQ := by
  cases e with
  | pushZero | pushPoint => exact nextSlot_srcQ _
  | wireFrame f => exact absurd rfl (hi f)
  | _ => rfl

/-- An event that is requested is taken, and no other with it. -/
theorem step_source_srcQ {t : State} {w : SrcWord} {rest : List SrcItem} (ht : turnOf s = .source)
    (hq : s.srcQ = .word w :: rest) (hr : s.wstate = .hunt ∨ s.wstate = .collect)
    (hn : s.wstate = .collect → s.nb.toNat ≤ 46) (h : step s = .next t) : t.srcQ = rest := by
  obtain ⟨i, hd, hacc, hframe⟩ := decode_requested w hr hn
  rw [step_source_served ht (offered_word hq) hd hacc] at h
  rw [(exec_effect h).keeps_srcQ hframe, afterEvent_srcQ, hq, List.tail_cons]

end SourceTurns

/-! ## A placed table word -/

section Placed

/-- `s` runs `i` next, in a state that differs from `s₀` at most in the writer state and NB. -/
def RunsNextAs (s₀ s : State) (i : Instr) : Prop :=
  ∃ ws n, fetch s = (some i, { s₀ with wstate := ws, nb := n })

theorem RunsNextAs.of_fetch {s₀ s : State} {i : Instr} {pw : PortWord} {ws : WState} {n : BitVec 6}
    (ho : offered s (turnOf s) = some pw) (hd : decode (ctxOf s) pw = .ok i)
    (hs : consume (turnOf s) i (afterTurn s) = { s₀ with wstate := ws, nb := n }) : RunsNextAs s₀ s i :=
  ⟨ws, n, by rw [fetch_runs ho hd, hs]⟩

theorem tableCtx_internal {nbits w : Nat} (h : tablePortWord nbits w = .internal) :
    tableCtx nbits w = ⟨Params.ld19, .decode, 47#6⟩ := by
  unfold tablePortWord at h
  split_ifs at h with h8 h1 h0
  exact if_pos ⟨h8, h0⟩

theorem tableCtx_port {nbits w : Nat} (h : tablePortWord nbits w ≠ .internal) :
    tableCtx nbits w = ⟨Params.ld19, .hunt, 0#6⟩ := by
  refine if_neg ?_
  rintro ⟨h8, rfl⟩
  exact h (by simp [tablePortWord, h8])

theorem tablePortWord_cmd {nbits w p : Nat} {x : CmdWord} (h : tablePortWord nbits w = .cmd p x) : p = 0 := by
  unfold tablePortWord at h
  split_ifs at h
  cases h
  rfl

variable {s : State} {nbits w : Nat} {i : Instr}

theorem runsNextAs_src {x : SrcWord} (hpw : tablePortWord nbits w = .src x)
    (hd : decodeHunt s.params.marker x = i) : RunsNextAs s (s.withFetchWord nbits w) i := by
  subst hd
  simp only [State.withFetchWord, hpw]
  exact .of_fetch (pw := .src x) rfl rfl (consume_source (decodeHunt_accepts _ x).1 _)

theorem runsNextAs_frame {bs : List Byte} (hpw : tablePortWord nbits w = .frame bs)
    (hd : decodeFrame s.params.marker bs = .ok i) : RunsNextAs s (s.withFetchWord nbits w) i := by
  have hbytes := hd
  unfold decodeFrame at hbytes
  split_ifs at hbytes with hbs
  cases hbytes
  simp only [State.withFetchWord, hpw]
  refine .of_fetch (pw := .frame bs) ?_ hd rfl
  exact congrArg (fun l => some (PortWord.frame l)) (bytes_frameOf hbs.1 hbs.2)

theorem onPort_id (p : Nat) (s : State) : onPort p id s = s := by
  simp [onPort]

theorem runsNextAs_cmd {x : CmdWord} (hpw : tablePortWord nbits w = .cmd 0 x) (hp : 0 < s.params.ports)
    (hl : 0 < s.ports.length) (hd : decodeCmd 0 x = i) : RunsNextAs s (s.withFetchWord nbits w) i := by
  have hcmds : (portAt (onPort 0 (fun q => { q with cmds := x :: q.cmds }) s) 0).cmds = x :: (portAt s 0).cmds := by
    rw [portAt_onPort _ hl]
  have hback : onPort 0 (fun q => { q with cmds := q.cmds.tail })
      (onPort 0 (fun q => { q with cmds := x :: q.cmds }) s) = s :=
    (onPort_onPort 0 _ _ s).trans (onPort_id 0 s)
  simp only [State.withFetchWord, hpw]
  exact .of_fetch (ws := s.wstate) (n := s.nb) (offered_cmd hcmds) ((if_pos hp).trans (congrArg _ hd)) hback

theorem runsNextAs_host {line : BitVec 1} (hpw : tablePortWord nbits w = .host line)
    (hd : decode (ctxOf s) (.host line) = .ok i) : RunsNextAs s (s.withFetchWord nbits w) i := by
  simp only [State.withFetchWord, hpw]
  exact .of_fetch (pw := .host line) rfl hd rfl

theorem runsNextAs_internal (hpw : tablePortWord nbits w = .internal) :
    RunsNextAs s (s.withFetchWord nbits w) .decode := by
  simp only [State.withFetchWord, hpw]
  exact .of_fetch (pw := .internal) rfl rfl rfl

/-- What is decoded from a table word is what its placing runs next. -/
theorem runsNextAs_withFetchWord (hm : s.params.marker = Params.ld19.marker) (hp : 0 < s.params.ports)
    (hl : 0 < s.ports.length) (h : decodeTableWord nbits w = some i) : RunsNextAs s (s.withFetchWord nbits w) i := by
  have hd : decode (tableCtx nbits w) (tablePortWord nbits w) = .ok i := by
    unfold decodeTableWord at h
    split at h
    next hok => exact hok.trans (congrArg _ (Option.some.inj h))
    next => cases h
  cases hpw : tablePortWord nbits w with
  | internal =>
    rw [hpw, tableCtx_internal hpw] at hd
    exact Except.ok.inj hd ▸ runsNextAs_internal hpw
  | src x =>
    rw [hpw, tableCtx_port (by simp [hpw])] at hd
    exact runsNextAs_src hpw (hm ▸ Except.ok.inj hd)
  | frame bs =>
    rw [hpw, tableCtx_port (by simp [hpw])] at hd
    exact runsNextAs_frame hpw (hm ▸ hd)
  | cmd p x =>
    obtain rfl := tablePortWord_cmd hpw
    rw [hpw, tableCtx_port (by simp [hpw])] at hd
    exact runsNextAs_cmd hpw hp hl (Except.ok.inj hd)
  | host line =>
    rw [hpw] at hd
    exact runsNextAs_host hpw hd

end Placed

/-! ## Runs of one agent's turns, with other agents' turns between them -/

section OwnTurns

variable {τ : Turn} {N : Nat} {P : Nat → State → Prop}

/-- `P n` says what holds after `n` turns of agent `τ`. If `τ`'s turns count it up and every other turn but RESET keeps
it, a schedule that ends with a turn of `τ` counts it up by how many turns of `τ` it has. -/
theorem run_own_turns
    (hown : ∀ n s, n < N → P n s → turnOf s = τ → ∃ t, step s = .next t ∧ P (n + 1) t)
    (hother : ∀ n s σ ts, n < N → P n s → s.sched = σ :: ts → σ ≠ τ → σ ≠ .host 1#1 →
      ∃ t, step s = .next t ∧ P n t) :
    ∀ (us ts : List Turn) (n : Nat) (s : State), P n s → s.sched = us ++ τ :: ts → .host 1#1 ∉ us →
      n + us.count τ < N →
      ∃ t, Sys2Proof.core.run (us.length + 1) s = .next t ∧ P (n + us.count τ + 1) t ∧ t.sched = ts
  | [], ts, n, s, hP, hs, _, hn => by
    obtain ⟨t, ht, hPt⟩ := hown n s hn hP (turnOf_cons hs)
    exact ⟨t, core_run_succ 0 ht, hPt, by rw [step_sched ht, hs]; rfl⟩
  | σ :: us, ts, n, s, hP, hs, hus, hn => by
    obtain ⟨hσ, hus⟩ : .host 1#1 ≠ σ ∧ .host 1#1 ∉ us := by simpa using hus
    have rest : ∀ (t : State) (m : Nat), step s = .next t → P m t → m + us.count τ = n + (σ :: us).count τ →
        ∃ u, Sys2Proof.core.run ((σ :: us).length + 1) s = .next u ∧ P (n + (σ :: us).count τ + 1) u ∧
          u.sched = ts := by
      intro t m ht hPt hm
      have hts : t.sched = us ++ τ :: ts := by rw [step_sched ht, hs]; rfl
      obtain ⟨u, hu, hPu, hus⟩ := run_own_turns hown hother us ts m t hPt hts hus (hm ▸ hn)
      exact ⟨u, (core_run_succ _ ht).trans hu, hm ▸ hPu, hus⟩
    by_cases hστ : σ = τ
    · subst hστ
      obtain ⟨t, ht, hPt⟩ := hown n s (by omega) hP (turnOf_cons hs)
      exact rest t (n + 1) ht hPt (by rw [List.count_cons_self]; omega)
    · obtain ⟨t, ht, hPt⟩ := hother n s σ (us ++ τ :: ts) (by omega) hP hs hστ hσ.symm
      exact rest t n ht hPt (by rw [List.count_cons_of_ne hστ])

end OwnTurns

/-! ## A frame collected whole (R65, R69, R70, R74) -/

section Collecting

/-- The writer's state when the source has taken `n` turns since it had the frame to send: the first is the frame's own
(log entry 13), the `n`-th brings byte `n − 2`. -/
def frameStage (n : Nat) : WState := if n ≤ 1 then .hunt else if n < 48 then .collect else .decode

/-- What the source has pending then. -/
def framePending (m : Byte) (f : Frame) (rest : List SrcItem) : Nat → List SrcItem
  | 0 => .frame f :: rest
  | k + 1 => ((f.bytes m).drop k).map dataEvent ++ rest

/-- `t` differs from `s` at most in the writer state, NB, FB, the source's events, the ports and the schedule. -/
def CollectFrame (s t : State) : Prop :=
  t = { s with wstate := t.wstate, nb := t.nb, srcQ := t.srcQ, fb := t.fb, ports := t.ports, sched := t.sched }

theorem CollectFrame.trans {s t u : State} (h : CollectFrame s t) (h' : CollectFrame t u) : CollectFrame s u := by
  unfold CollectFrame at h h' ⊢
  rw [h', h]

theorem CollectFrame.params {s t : State} (h : CollectFrame s t) : t.params = s.params := by rw [h]

/-- State `t` is `s`, where the source has frame `f` to send, after `n` turns of the source. -/
structure Collecting (s : State) (f : Frame) (rest : List SrcItem) (n : Nat) (t : State) : Prop where
  wstate : t.wstate = frameStage n
  nb : 1 < n → t.nb.toNat + 1 = n
  srcQ : t.srcQ = framePending s.params.marker f rest n
  bytes : ∀ j, j + 1 < n → fbRead t j = f.byteAt s.params.marker j
  frame : CollectFrame s t

variable {s t : State} {f : Frame} {rest : List SrcItem} {n : Nat}

theorem Collecting.start (hw : s.wstate = .hunt) (hq : s.srcQ = .frame f :: rest) : Collecting s f rest 0 s :=
  ⟨hw, nofun, hq, nofun, rfl⟩

theorem Collecting.requesting (h : Collecting s f rest n t) (hn : n < 48) : t.wstate = .hunt ∨ t.wstate = .collect := by
  rw [h.wstate, frameStage, if_pos hn]
  split
  · exact .inl rfl
  · exact .inr rfl

/-- The ports and the schedule are the other agents': what is collected does not depend on them. -/
theorem Collecting.congr {u : State} (h : Collecting s f rest n t)
    (hu : u = { t with ports := u.ports, sched := u.sched }) : Collecting s f rest n u where
  wstate := by rw [hu]; exact h.wstate
  nb := by rw [hu]; exact h.nb
  srcQ := by rw [hu]; exact h.srcQ
  bytes := by rw [fbRead_congr (s := t) (by rw [hu]) (by rw [hu])]; exact h.bytes
  frame := h.frame.trans (by rw [CollectFrame, hu])

/-- The bytes still to come, when `k` have. -/
theorem framePending_succ {k : Nat} (m : Byte) (hk : k < 47) :
    framePending m f rest (k + 1) = dataEvent (f.byteAt m k) :: framePending m f rest (k + 2) := by
  have hb : (f.bytes m)[k]'(by simpa using hk) = f.byteAt m k :=
    List.getElem_eq_iff _ |>.2 (Frame.bytes_getElem? m f hk)
  simp only [framePending]
  rw [List.drop_eq_getElem_cons (by simpa using hk), hb]
  rfl

/-- The frame's own turn: its events stand ahead of what was pending. -/
theorem Collecting.step_frame (h : Collecting s f rest 0 t) (ht : turnOf t = .source) :
    step t = .next { afterEvent t with srcQ := framePending t.params.marker f rest 1 } := by
  have hr : requests t = true := requests_iff.2 (h.requesting (by decide))
  have htail : (afterEvent t).srcQ = rest := by rw [afterEvent_srcQ, h.srcQ]; rfl
  rw [step_source_served (i := .wireFrame f) ht (offered_frame hr h.srcQ)
    (Laws.DecodesBack.wireFrame f t.params t.wstate t.nb rfl rfl) nofun, exec, execWireFrame, htail]
  rfl

/-- A source turn that offers byte `k` of the frame runs the DATA row that is enabled. -/
theorem Collecting.step_data {k : Nat} {i : Instr} (h : Collecting s f rest (k + 1) t) (hk : k < 47)
    (ht : turnOf t = .source) (hwf : i.wf t.params = true) (hen : i.enabledIn t.wstate t.nb = true)
    (hi : ∀ w, i ≠ .srcNotAccepted w) (he : encode t.params i = .src (0#2 ++ f.byteAt t.params.marker k)) :
    step t = exec i (afterEvent t) := by
  have hq := h.srcQ.trans (framePending_succ _ hk)
  rw [← h.frame.params] at hq
  exact step_source_served ht (offered_word hq) (he ▸ Laws.decodesBack i _ _ _ hwf hen) hi

/-- The turn that brings byte `k`: the first starts the candidate, the last completes it. -/
theorem Collecting.step_byte {k : Nat} (h : Collecting s f rest (k + 1) t) (hk : k < 47) (ht : turnOf t = .source) :
    step t = .next (goto (frameStage (k + 2)) (BitVec.ofNat 6 (k + 1))
      (fbStore k (f.byteAt t.params.marker k) (afterEvent t))) := by
  have hw := h.wstate
  have hnb := h.nb
  obtain rfl | hmid | rfl : k = 0 ∨ (0 < k ∧ k < 46) ∨ k = 46 := by omega
  · exact (h.step_data (i := .huntMarker) hk ht rfl (decide_eq_true hw) nofun rfl).trans
      (exec_huntMarker (s := afterEvent t) hw)
  · obtain rfl : t.nb.toNat = k := by omega
    rw [frameStage, if_neg (by omega), if_pos (by omega)] at hw
    rw [h.step_data (i := .collectByte _) hk ht rfl (decide_eq_true ⟨hw, hmid.2⟩) nofun rfl,
      exec_collectByte (s := afterEvent t) _ hw hmid.2, frameStage, if_neg (by omega), if_pos (by omega),
      BitVec.ofNat_add, BitVec.ofNat_toNat, BitVec.setWidth_eq]
    rfl
  · have hn : t.nb.toNat = 46 := by omega
    exact (h.step_data (i := .collectLast _) hk ht rfl (decide_eq_true ⟨hw, hn⟩) nofun rfl).trans
      (exec_collectLast (s := afterEvent t) _ hw hn)

/-- A source turn takes the collection one further, and no port notices. -/
theorem Collecting.step_source (h : Collecting s f rest n t) (hn : n < 48) (ht : turnOf t = .source) :
    ∃ u, step t = .next u ∧ Collecting s f rest (n + 1) u ∧ u.ports = t.ports := by
  have hm := h.frame.params
  cases n with
  | zero =>
    exact ⟨_, h.step_frame ht, ⟨h.wstate, nofun, by rw [← hm], nofun, h.frame.trans rfl⟩, rfl⟩
  | succ k =>
    have hk : k < 47 := by omega
    refine ⟨_, h.step_byte hk ht, ⟨rfl, fun _ => ?_, ?_, fun j hj => ?_, h.frame.trans rfl⟩, rfl⟩
    · rw [goto_nb, BitVec.toNat_ofNat]
      omega
    · rw [goto_srcQ, fbStore_srcQ, afterEvent_srcQ, h.srcQ, framePending_succ _ hk, List.tail_cons]
    · by_cases hjk : j = k
      · rw [hjk, fbRead_goto_fbStore_same, hm]
      · rw [fbRead_goto_fbStore_other _ _ _ _ hjk]
        exact h.bytes j (by omega)

/-- Where a source event is requested, a turn of another agent, but RESET, changes the ports at most. -/
theorem step_of_other_turn {σ : Turn} {ts : List Turn} (hr : t.wstate = .hunt ∨ t.wstate = .collect)
    (hs : t.sched = σ :: ts) (hσ : σ ≠ .source) (hσ' : σ ≠ .host 1#1) :
    ∃ u, step t = .next u ∧ u = { t with ports := u.ports, sched := u.sched } := by
  cases σ with
  | writer =>
    have ho : offered t (turnOf t) = some .internal := by rw [turnOf_cons hs]; rfl
    have hd : decode (ctxOf t) .internal = .error .noInternalStep := by
      obtain hw | hw := hr <;> simp [decode, decodeInternal, ctxOf, hw]
    exact ⟨_, step_rejects ho hd, rfl⟩
  | source => exact absurd rfl hσ
  | consumer p =>
    obtain ⟨u, hu, he⟩ := step_consumer_frame hs
    exact ⟨u, hu, he.trans (by rw [he])⟩
  | host line => exact ⟨_, step_host_low hs fun hl => hσ' (by rw [hl]), rfl⟩

/-- Where the schedule says nothing, the source's turns come first (R114; log entry 7). -/
theorem Collecting.turnOf_source (h : Collecting s f rest n t) (hn : n < 48) (hs : t.sched = []) :
    turnOf t = .source := by
  have hq : t.srcQ ≠ [] := by
    rw [h.srcQ]
    cases n with
    | zero => nofun
    | succ k => rw [framePending_succ _ (by omega)]; nofun
  have hr := h.requesting hn
  have hi : internalDue t = false := by obtain hw | hw := hr <;> simp [internalDue, hw]
  simp [turnOf, hs, defaultTurn, hi, requests_iff.2 hr, hq]

/-- The frame is collected: what FrameIsCollectedWhole says of the state, but for the ports and the schedule. -/
theorem Collecting.finish (h : Collecting s f rest 48 t) :
    t.wstate = .decode ∧ t.nb = 47 ∧ t.srcQ = rest ∧ ∀ j < 47, fbRead t j = f.byteAt s.params.marker j := by
  refine ⟨h.wstate, BitVec.eq_of_toNat_eq (Nat.succ.inj (h.nb (by decide))), ?_, fun j hj => h.bytes j (by omega)⟩
  rw [h.srcQ, framePending, List.drop_of_length_le (by simp)]
  rfl

/-- The source's 48 turns, with any turns but RESET's between them. -/
theorem Collecting.run_scheduled {us ts : List Turn} (h : Collecting s f rest 0 t) (hs : t.sched = us ++ .source :: ts)
    (hcount : us.count .source = 47) (hus : .host 1#1 ∉ us) :
    ∃ u, Sys2Proof.core.run (us.length + 1) t = .next u ∧ Collecting s f rest 48 u ∧ u.sched = ts := by
  have hown : ∀ n t, n < 48 → Collecting s f rest n t → turnOf t = .source →
      ∃ u, step t = .next u ∧ Collecting s f rest (n + 1) u := by
    intro n t hn h ht
    obtain ⟨u, hu, hnext, -⟩ := h.step_source hn ht
    exact ⟨u, hu, hnext⟩
  have hother : ∀ n t σ ts, n < 48 → Collecting s f rest n t → t.sched = σ :: ts → σ ≠ .source → σ ≠ .host 1#1 →
      ∃ u, step t = .next u ∧ Collecting s f rest n u := by
    intro n t σ ts hn h hs hσ hσ'
    obtain ⟨u, hu, hports⟩ := step_of_other_turn (h.requesting hn) hs hσ hσ'
    exact ⟨u, hu, h.congr hports⟩
  have hrun := run_own_turns hown hother us ts 0 t h hs hus (by omega)
  rwa [hcount] at hrun

/-- The default turns, while the frame is collected. -/
theorem Collecting.run_default : ∀ (k : Nat) {n : Nat} {t : State}, Collecting s f rest n t → n + k ≤ 48 →
    t.sched = [] → ∃ u, Sys2Proof.core.run k t = .next u ∧ Collecting s f rest (n + k) u ∧ u.ports = t.ports ∧
      u.sched = []
  | 0, _, t, h, _, hs => ⟨t, core_run_zero t, h, rfl, hs⟩
  | k + 1, n, t, h, hk, hs => by
    obtain ⟨u, hu, hnext, hports⟩ := h.step_source (by omega) (h.turnOf_source (by omega) hs)
    have hus : u.sched = [] := by rw [step_sched hu, hs]; rfl
    obtain ⟨v, hv, hlast, hports', hvs⟩ := run_default k hnext (by omega) hus
    exact ⟨v, (core_run_succ k hu).trans hv, by rwa [Nat.add_right_comm] at hlast, hports'.trans hports, hvs⟩

end Collecting

end Sys2Proof.Machine

namespace Sys2Proof.Proofs

open Machine Laws

/-- Settles O3: each part of the decoder keeps every bit of its word, as a fixed bit of the row or as an operand. -/
theorem encodingADecodedWordGivesItBack : Obligations.EncodingADecodedWordGivesItBack :=
  fun _ _ _ => decode_encodesBack

/-- Settles O8: the placed word is read in the context its table word was decoded in, and what was placed is taken
again. -/
theorem tableWordRunsNext : Obligations.TableWordRunsNext := by
  intro s nbits w i hm hp hl h
  obtain ⟨ws, n, hf⟩ := runsNextAs_withFetchWord hm hp hl h
  exact ⟨_, ws, n, rfl, hf, by rw [step, hf]⟩

/-- Settles O9: a requested event is taken, and an unserved one stays. -/
theorem oneEventIsTakenWhenRequested : Obligations.OneEventIsTakenWhenRequested := by
  intro s t w rest ts hs hq hn h
  split_ifs with hr
  · exact step_source_srcQ (turnOf_cons hs) hq hr hn h
  · rw [step_source_unserved hs (by simpa [requests] using hr)] at h
    obtain rfl := Host.Outcome.next.inj h
    rfl

/-- Settles O59: the source's turns collect the frame byte by byte, and any other turn changes the ports at most. -/
theorem frameIsCollectedWhole : Obligations.FrameIsCollectedWhole := by
  intro s f rest hw hq
  have hstart := Collecting.start hw hq
  refine ⟨fun us ts hs hcount hus => ?_, fun hs => ?_⟩
  · obtain ⟨t, hrun, h, hts⟩ := hstart.run_scheduled hs hcount hus
    obtain ⟨hd, hnb, hrest, hbytes⟩ := h.finish
    exact ⟨t, hrun, hd, hnb, hrest, hbytes, hts, h.frame⟩
  · obtain ⟨t, hrun, h, hports, hts⟩ := hstart.run_default 48 (by decide) hs
    obtain ⟨hd, hnb, hrest, hbytes⟩ := h.finish
    have hframe := h.frame
    unfold CollectFrame at hframe
    rw [hports, hts, ← hs] at hframe
    exact ⟨t, hrun, hd, hnb, hrest, hbytes, hframe⟩

/-- Settles O10: the marker is stored at offset 0, and the sequencer moves on. -/
theorem huntMarkerStartsACandidate : Obligations.HuntMarkerStartsACandidate := by
  intro s hw
  exact ⟨_, exec_huntMarker hw, fbRead_goto_fbStore_same _ _ _ _ _,
    fun j hj => fbRead_goto_fbStore_other _ _ _ _ hj, rfl, rfl, rfl⟩

/-- Settles O11: the row's effect in HUNT. -/
theorem huntSkipCountsTheByte : Obligations.HuntSkipCountsTheByte :=
  fun _ b hw => exec_huntSkip b hw

/-- Settles O12: the row's effect in the requesting states. -/
theorem closedStopsTheWriter : Obligations.ClosedStopsTheWriter :=
  fun _ g hw => exec_closed g hw

/-- Settles O13: the row's effect in HUNT. -/
theorem huntTimeoutCounts : Obligations.HuntTimeoutCounts :=
  fun _ g hw => exec_huntTimeout g hw

/-- Settles O14: the byte is stored at offset NB, and NB, below 46, counts up without wrapping. -/
theorem collectByteAppends : Obligations.CollectByteAppends := by
  intro s b hw hn
  refine ⟨_, exec_collectByte b hw hn, fbRead_goto_fbStore_same _ _ _ _ _,
    fun j hj => fbRead_goto_fbStore_other _ _ _ _ hj, ?_, rfl, ?_⟩
  · rw [goto_nb]
    bv_omega
  · rw [goto, ← hw]
    rfl

/-- Settles O15: the byte is stored at offset 46, and the sequencer moves on to DECODE. -/
theorem collectLastCompletes : Obligations.CollectLastCompletes := by
  intro s b hw hn
  exact ⟨_, exec_collectLast b hw hn, fbRead_goto_fbStore_same _ _ _ _ _,
    fun j hj => fbRead_goto_fbStore_other _ _ _ _ hj, rfl, rfl, rfl⟩

/-- Settles O16: the row's effect in COLLECT. -/
theorem collectTimeoutDropsTheCandidate : Obligations.CollectTimeoutDropsTheCandidate :=
  fun _ g hw => exec_collectTimeout g hw

/-- Settles O18: the row does nothing, and a source turn with no event requested only passes. -/
theorem unservedEventStaysWithTheSource : Obligations.UnservedEventStaysWithTheSource := by
  intro s w hw
  have hr : requests s = false := by
    obtain hw | hw | hw := hw <;> simp [requests, hw]
  exact ⟨rfl, fun _ _ hs _ => step_source_unserved hs hr⟩

end Sys2Proof.Proofs

/-! PROOFS. The packet decoder (41_decoder.md): DECODE's three outcomes, what CRC-8 detects, and the slot angles; and
PUSH, from one slot to a whole accepted frame (43_ringbuffer.md R96 to R98, R88). -/

namespace Sys2Proof.Machine

open Safety

/-! ## DECODE -/

section Decode

variable {s : State}

/-- What DECODE accepts: a whole candidate, marker first, whose checksum byte is its bytes' CRC (R76, R78). -/
def Acceptable (s : State) : Prop :=
  s.nb = 47 ∧ fbRead s 0 = s.params.marker ∧ crc8 s.params (fbPrefix s 46) = fbRead s 46

theorem acceptable_iff : Acceptable s ↔ candidateFormed s = true ∧ checksumMatches s = true := by
  have hnb : s.nb = 47#6 ↔ s.nb.toNat = 47 := BitVec.toNat_inj.symm
  simp [Acceptable, candidateFormed, checksumMatches, hnb, and_assoc]

theorem exec_decode_accept (hw : s.wstate = .decode) (h : Acceptable s) :
    exec .decode s = .next (acceptFrame s) := by
  obtain ⟨hf, hc⟩ := acceptable_iff.1 h
  rw [exec, execDecode, if_pos hw, if_pos hf, if_pos hc]

/-- Both reasons to reject have one outcome (R79, R87). -/
theorem exec_decode_reject (hw : s.wstate = .decode) (h : ¬ Acceptable s) :
    exec .decode s = .next (rejectFrame s) := by
  rw [acceptable_iff] at h
  rw [exec, execDecode, if_pos hw]
  by_cases hf : candidateFormed s = true
  · rw [if_pos hf, if_neg fun hc => h ⟨hf, hc⟩]
  · rw [if_neg hf]

end Decode

/-! ## What the CRC detects -/

section Crc

variable {poly : Byte}

theorem crcShift_eq_xor (poly t : Byte) : crcShift poly t = (t <<< 1) ^^^ (if t.msb then poly else 0#8) := by
  unfold crcShift
  split
  · rfl
  · rw [BitVec.xor_zero]

/-- With an odd polynomial, the bit a shift drops comes back as bit 0, so no two bytes shift to one. -/
theorem crcShift_injective (hp : poly.getLsbD 0 = true) : Function.Injective (crcShift poly) := by
  have hbit0 : ∀ t, (crcShift poly t).getLsbD 0 = t.msb := fun t => by
    rw [crcShift_eq_xor]
    cases t.msb <;> simp [hp]
  intro t u h
  have hmsb : t.msb = u.msb := by rw [← hbit0 t, h, hbit0]
  have hrest : t <<< 1 = u <<< 1 := by
    rw [crcShift_eq_xor, crcShift_eq_xor, hmsb] at h
    exact (BitVec.xor_left_inj _).1 h
  refine BitVec.eq_of_getLsbD_eq fun i hi => ?_
  obtain hlow | rfl : i < 7 ∨ i = 7 := by omega
  · have := congrArg (·.getLsbD (i + 1)) hrest
    simpa [show i + 1 < 8 by omega, hi] using this
  · exact hmsb

theorem crcShifts_injective (hp : poly.getLsbD 0 = true) : ∀ n, Function.Injective (crcShifts poly n)
  | 0 => Function.injective_id
  | n + 1 => (crcShifts_injective hp n).comp (crcShift_injective hp)

theorem crcTab_injective (hp : poly.getLsbD 0 = true) : Function.Injective (crcTab poly) :=
  crcShifts_injective hp 8

/-- One byte's step of the register. -/
theorem crc8From_cons (poly c b : Byte) (bs : List Byte) :
    crc8From poly c (b :: bs) = crc8From poly (crcTab poly (c ^^^ b)) bs := rfl

/-- Different register values stay different over the same bytes. -/
theorem crc8From_injective (hp : poly.getLsbD 0 = true) : ∀ bs, Function.Injective (crc8From poly · bs)
  | [] => Function.injective_id
  | b :: bs => fun _ _ h => (BitVec.xor_left_inj b).1 (crcTab_injective hp (crc8From_injective hp bs h))

/-- A change of one byte changes the CRC. -/
theorem crc8From_set_ne (hp : poly.getLsbD 0 = true) {b : Byte} :
    ∀ (bs : List Byte) (j : Nat) (c : Byte) (hj : j < bs.length), b ≠ bs[j] →
      crc8From poly c (bs.set j b) ≠ crc8From poly c bs
  | _ :: bs, 0, c, _, hb => fun h =>
    hb ((BitVec.xor_right_inj c).1 (crcTab_injective hp (crc8From_injective hp bs h)))
  | _ :: bs, j + 1, _, hj, hb => crc8From_set_ne hp bs j _ (Nat.lt_of_succ_lt_succ hj) hb

theorem fbPrefix_fbStore (s : State) (j n : Nat) (b : Byte) : fbPrefix (fbStore j b s) n = (fbPrefix s n).set j b := by
  refine List.ext_getElem (by simp [fbPrefix]) fun k hk _ => ?_
  simp only [fbPrefix, List.getElem_map, List.getElem_range, fbRead_fbStore, List.getElem_set, eq_comm]

/-- A candidate that differs from an acceptable one in one byte is not acceptable: either the CRC is another and the
checksum byte is not, or the other way round. -/
theorem not_acceptable_fbStore {s : State} {j : Nat} {b : Byte} (h : Acceptable s)
    (hp : s.params.crcPoly.getLsbD 0 = true) (hj : j < 47) (hb : b ≠ fbRead s j) : ¬ Acceptable (fbStore j b s) := by
  rintro ⟨-, -, hchanged⟩
  obtain ⟨-, -, hcrc⟩ := h
  rw [fbStore_params, fbPrefix_fbStore, fbRead_fbStore] at hchanged
  obtain hlow | rfl : j < 46 ∨ j = 46 := by omega
  · rw [if_neg (by omega), ← hcrc] at hchanged
    exact crc8From_set_ne hp _ j _ (by simpa [fbPrefix] using hlow) (by simpa [fbPrefix] using hb) hchanged
  · rw [if_pos rfl, List.set_eq_of_length_le (by simp [fbPrefix]), hcrc] at hchanged
    exact hb hchanged.symm

end Crc

/-! ## Slot angles -/

section Angles

theorem normAngle_lt (raw : Half) : normAngle raw < 36000 := Nat.mod_lt _ (by decide)

theorem normAngle_le16 (lo hi : Byte) :
    (normAngle (le16 lo hi) : Int) = ((lo.toNat + 256 * hi.toNat : Nat) : Int) % 36000 := by
  rw [normAngle, le16_toNat, Int.natCast_emod]
  rfl

/-- The sum with a full turn stands for the mathematical remainder (R82). -/
theorem angleSpan_eq_emod {a b : Nat} (ha : a < 36000) : (angleSpan a b : Int) = ((b : Int) - a) % 36000 := by
  simp only [angleSpan, turnCentideg]
  omega

theorem angleCode_lt (a b : Half) (i : Nat) : angleCode a b i < 396000 := Nat.mod_lt _ (by decide)

theorem slotAngle_lt (s : State) (i : Nat) : slotAngle s i < 396000 := angleCode_lt _ _ i

theorem angleCode_zero (a b : Half) : angleCode a b 0 = 11 * normAngle a := by
  have := normAngle_lt a
  exact Nat.mod_eq_of_lt (by simp only [turnCodes]; omega)

/-- Eleven spans of 11 codes each make the way from the start angle to the end angle, but for whole turns. -/
theorem angleCode_eleven (a b : Half) : angleCode a b 11 = 11 * normAngle b := by
  have ha := normAngle_lt a
  have hb := normAngle_lt b
  simp only [angleCode, angleSpan, turnCodes, turnCentideg]
  omega

end Angles

/-! ## One PUSH -/

section Push

variable {s t : State} {i : Instr}

/-- Where the writer goes after slot SLOT (R96, R98). -/
theorem nextSlot_sequencer (hw : s.wstate = .push) (hslot : s.slot.toNat ≤ 11) :
    if s.slot.toNat = 11 then (nextSlot s).wstate = .hunt ∧ (nextSlot s).slot = 0 ∧ (nextSlot s).nb = 0
    else (nextSlot s).wstate = .push ∧ (nextSlot s).slot.toNat = s.slot.toNat + 1 ∧ (nextSlot s).nb = s.nb := by
  split_ifs with hlast
  · exact nextSlot_last hlast
  · exact hw ▸ nextSlot_inner (by omega)

theorem exec_push_zero (hw : s.wstate = .push) (hslot : s.slot.toNat ≤ 11) (hd : distOf (fbRead s) s.slot.toNat = 0) :
    exec .push s = .next (nextSlot { s with samplesZero := s.samplesZero + 1 }) := by
  rw [exec, execPush_eq, if_pos hw, if_pos hslot, if_pos hd]

/-- What changes RAM: a PUSH, by the point of a slot whose distance is not 0. -/
theorem Effect.ram_cases (e : Effect s i t) : t.ram = s.ram ∨
    distOf (fbRead s) s.slot.toNat ≠ 0 ∧ t.ram = Memory.write s.ram s.head.toNat (slotPoint s s.slot.toNat) := by
  cases e with
  | pushZero => exact .inl (nextSlot_ram _)
  | pushPoint _ _ hd => exact .inr ⟨hd, nextSlot_ram _⟩
  | _ => exact .inl rfl

end Push

/-! ## A whole frame pushed (R88, R96) -/

section OwnDefault

variable {τ : Turn} {N : Nat} {P : Nat → State → Prop}

/-- As `run_own_turns`, where the schedule is empty and the default turn is `τ`'s. -/
theorem run_own_default
    (hown : ∀ n s, n < N → P n s → turnOf s = τ → ∃ t, step s = .next t ∧ P (n + 1) t)
    (hturn : ∀ n s, n < N → P n s → s.sched = [] → turnOf s = τ) :
    ∀ (k n : Nat) (s : State), P n s → s.sched = [] → n + k ≤ N →
      ∃ t, Sys2Proof.core.run k s = .next t ∧ P (n + k) t
  | 0, _, s, hP, _, _ => ⟨s, core_run_zero s, hP⟩
  | k + 1, n, s, hP, hs, hk => by
    obtain ⟨t, ht, hPt⟩ := hown n s (by omega) hP (hturn n s (by omega) hP hs)
    have hts : t.sched = [] := by rw [step_sched ht, hs]; rfl
    obtain ⟨u, hu, hPu⟩ := run_own_default hown hturn k (n + 1) t hPt hts (by omega)
    exact ⟨u, (core_run_succ k ht).trans hu, by rwa [Nat.add_right_comm] at hPu⟩

end OwnDefault

section Pushing

variable {s t u : State} {n : Nat}

/-- The point of slot `i` of the frame in FB, if it has a distance (R85). -/
def slotPoint? (s : State) (i : Nat) : Option PointWord :=
  if distOf (fbRead s) i = 0 then none else some (slotPoint s i)

/-- The points of the frame's first `n` slots. -/
def firstPoints (s : State) (n : Nat) : List PointWord := (List.range n).filterMap (slotPoint? s)

theorem framePoints_eq_firstPoints (s : State) : framePoints s = firstPoints s 12 := rfl

theorem firstPoints_length_le (s : State) (n : Nat) : (firstPoints s n).length ≤ n := by
  simpa [firstPoints] using List.length_filterMap_le (slotPoint? s) (List.range n)

theorem firstPoints_succ_zero (hd : distOf (fbRead s) n = 0) : firstPoints s (n + 1) = firstPoints s n := by
  have hnone : slotPoint? s n = none := if_pos hd
  simp [firstPoints, List.range_succ, hnone]

theorem firstPoints_succ_point (hd : distOf (fbRead s) n ≠ 0) :
    firstPoints s (n + 1) = firstPoints s n ++ [slotPoint s n] := by
  have hpoint : slotPoint? s n = some (slotPoint s n) := if_neg hd
  simp [firstPoints, List.range_succ, hpoint]

/-- A slot's point depends on FB and the build only. -/
theorem slotPoint_congr (hb : fbRead t = fbRead s) (hp : t.params = s.params) (i : Nat) :
    slotPoint t i = slotPoint s i := by
  rw [slotPoint, slotPoint, slotAngle, slotAngle, hb, hp]

/-- A ring that holds the newest C of some points holds the newest C of them and the next one after a write (R97). -/
theorem content_afterRingWrite_newest (h : Inv t) {xs : List PointWord} (pw : PointWord)
    (hc : content t = xs.rtake t.params.capacity) :
    content (afterRingWrite pw t) = (xs ++ [pw]).rtake t.params.capacity := by
  have hpos := h.params.1
  have hlen : t.count.toNat = min xs.length t.params.capacity := by
    rw [← content_length, hc, List.rtake, List.length_drop]
    omega
  rw [content_afterRingWrite h, hc, List.rtake, List.rtake, List.drop_drop, List.length_append,
    List.drop_append_of_le_length (by simp; omega)]
  congr 2
  rw [evicted, List.length_singleton]
  split <;> omega

/-- In state `t` the first `n` slots of the frame in `s` are dealt with, one by one in slot order: each is pushed or
counted (R88, R96). -/
structure Pushed (s : State) (n : Nat) (t : State) : Prop where
  params : t.params = s.params
  bytes : fbRead t = fbRead s
  content : content t = (content s ++ firstPoints s n).rtake s.params.capacity
  pushes : t.pushes = s.pushes + BitVec.ofNat 32 (firstPoints s n).length
  samplesZero : t.samplesZero = s.samplesZero + BitVec.ofNat 32 (n - (firstPoints s n).length)
  srcQ : t.srcQ = s.srcQ

theorem Pushed.start (h : Inv s) : Pushed s 0 s where
  params := rfl
  bytes := rfl
  content := by
    have hle := h.count_le
    rw [show firstPoints s 0 = [] from rfl, List.append_nil, List.rtake, content_length, Nat.sub_eq_zero_of_le hle,
      List.drop_zero]
  pushes := (BitVec.add_zero _).symm
  samplesZero := (BitVec.add_zero _).symm
  srcQ := rfl

/-- The sequencer, the ports and the schedule have no part in it. -/
theorem Pushed.congr (h : Pushed s n t)
    (hu : u = { t with wstate := u.wstate, slot := u.slot, nb := u.nb, ports := u.ports, sched := u.sched }) :
    Pushed s n u where
  params := by rw [hu]; exact h.params
  bytes := by rw [hu]; exact h.bytes
  content := by rw [hu]; exact h.content
  pushes := by rw [hu]; exact h.pushes
  samplesZero := by rw [hu]; exact h.samplesZero
  srcQ := by rw [hu]; exact h.srcQ

theorem Pushed.nextSlot (h : Pushed s n t) : Pushed s n (nextSlot t) :=
  h.congr (by rw [nextSlot_ports, nextSlot_sched]; exact nextSlot_frame t)

theorem Pushed.countZero (h : Pushed s n t) (hd : distOf (fbRead s) n = 0) :
    Pushed s (n + 1) { t with samplesZero := t.samplesZero + 1 } where
  params := h.params
  bytes := h.bytes
  content := by rw [firstPoints_succ_zero hd]; exact h.content
  pushes := by rw [firstPoints_succ_zero hd]; exact h.pushes
  samplesZero := by
    rw [firstPoints_succ_zero hd, Nat.sub_add_comm (firstPoints_length_le s n), BitVec.ofNat_add, ← BitVec.add_assoc,
      ← h.samplesZero]
    rfl
  srcQ := h.srcQ

theorem Pushed.writePoint (h : Pushed s n t) (ht : Inv t) (hd : distOf (fbRead s) n ≠ 0) :
    Pushed s (n + 1) (afterRingWrite (slotPoint s n) t) where
  params := h.params
  bytes := h.bytes
  content := by
    rw [firstPoints_succ_point hd, ← List.append_assoc, ← h.params]
    exact content_afterRingWrite_newest ht _ (h.params ▸ h.content)
  pushes := by
    rw [firstPoints_succ_point hd, List.length_append, BitVec.ofNat_add, ← BitVec.add_assoc, ← h.pushes]
    rfl
  samplesZero := by
    rw [firstPoints_succ_point hd, List.length_append, List.length_singleton, Nat.add_sub_add_right]
    exact h.samplesZero
  srcQ := h.srcQ

/-- A PUSH of slot `n` deals with it. -/
theorem Pushed.afterPush (h : Pushed s n t) (ht : Inv t) (hslot : t.slot.toNat = n) :
    Pushed s (n + 1) (afterPush t) := by
  subst hslot
  by_cases hd : distOf (fbRead s) t.slot.toNat = 0
  · rw [afterPush_of_zero (h.bytes ▸ hd)]
    exact (h.countZero hd).nextSlot
  · rw [afterPush_of_point (h.bytes ▸ hd), slotPoint_congr h.bytes h.params]
    exact (h.writePoint ht hd).nextSlot

/-- Where the writer goes after a PUSH. -/
theorem afterPush_sequencer (hw : t.wstate = .push) (hslot : t.slot.toNat ≤ 11) :
    if t.slot.toNat = 11 then (afterPush t).wstate = .hunt ∧ (afterPush t).slot = 0 ∧ (afterPush t).nb = 0
    else (afterPush t).wstate = .push ∧ (afterPush t).slot.toNat = t.slot.toNat + 1 ∧ (afterPush t).nb = t.nb := by
  by_cases hd : distOf (fbRead t) t.slot.toNat = 0
  · rw [afterPush_of_zero hd]
    exact nextSlot_sequencer (s := { t with samplesZero := t.samplesZero + 1 }) hw hslot
  · rw [afterPush_of_point hd]
    exact nextSlot_sequencer (s := afterRingWrite (slotPoint t t.slot.toNat) t) hw hslot

/-- State `t` is `s`, in PUSH at slot 0, after `n` turns of the writer. -/
structure Pushing (s : State) (n : Nat) (t : State) : Prop where
  inv : Inv t
  wstate : t.wstate = if n < 12 then .push else .hunt
  slot : n < 12 → t.slot.toNat = n
  pushed : Pushed s n t

theorem Pushing.start (h : Inv s) (hw : s.wstate = .push) (hslot : s.slot = 0) : Pushing s 0 s :=
  ⟨h, hw, fun _ => by rw [hslot]; rfl, .start h⟩

theorem Pushing.wstate_eq_push (h : Pushing s n t) (hn : n < 12) : t.wstate = .push := by
  rw [h.wstate, if_pos hn]

/-- The writer's turn, whether the schedule names it or it is the default one. -/
theorem step_push (h : Inv t) (hw : t.wstate = .push) (ht : turnOf t = .writer) :
    step t = .next (afterPush (afterTurn t)) := by
  have ho : offered t (turnOf t) = some .internal := by rw [ht]; rfl
  have hd : decode (ctxOf t) .internal = .ok .push := by simp [decode, decodeInternal, ctxOf, hw]
  rw [step_runs ho hd, ht]
  exact exec_push_of_inv (h.consume .writer .push) hw

/-- A turn of the writer deals with one slot. -/
theorem Pushing.step_writer (h : Pushing s n t) (hn : n < 12) (ht : turnOf t = .writer) :
    ∃ u, step t = .next u ∧ Pushing s (n + 1) u := by
  have hw := h.wstate_eq_push hn
  have hslot := h.slot hn
  have hstep := step_push h.inv hw ht
  have hturn : Inv (afterTurn t) := h.inv.consume .writer .push
  have hseq := afterPush_sequencer (t := afterTurn t) hw (by rw [afterTurn_slot]; omega)
  rw [afterTurn_slot, hslot] at hseq
  have hpushed := (h.pushed.congr (u := afterTurn t) rfl).afterPush hturn hslot
  refine ⟨_, hstep, h.inv.step hstep, ?_, fun hn' => ?_, hpushed⟩
  · split_ifs at hseq with hlast
    · rw [hseq.1, if_neg (by omega)]
    · rw [hseq.1, if_pos (by omega)]
  · rw [if_neg (by omega)] at hseq
    exact hseq.2.1

/-- In PUSH a turn of another agent, but RESET, changes the ports at most. -/
theorem step_of_other_turn_in_push {σ : Turn} {ts : List Turn} (hw : t.wstate = .push)
    (hs : t.sched = σ :: ts) (hσ : σ ≠ .writer) (hσ' : σ ≠ .host 1#1) :
    ∃ u, step t = .next u ∧ u = { t with ports := u.ports, sched := u.sched } := by
  cases σ with
  | writer => exact absurd rfl hσ
  | source => exact ⟨_, step_source_unserved hs (by simp [requests, hw]), rfl⟩
  | consumer p =>
    obtain ⟨u, hu, he⟩ := step_consumer_frame hs
    exact ⟨u, hu, he.trans (by rw [he])⟩
  | host line => exact ⟨_, step_host_low hs fun hl => hσ' (by rw [hl]), rfl⟩

theorem Pushing.step_other {σ : Turn} {ts : List Turn} (h : Pushing s n t) (hn : n < 12) (hs : t.sched = σ :: ts)
    (hσ : σ ≠ .writer) (hσ' : σ ≠ .host 1#1) : ∃ u, step t = .next u ∧ Pushing s n u := by
  obtain ⟨u, hu, hports⟩ := step_of_other_turn_in_push (h.wstate_eq_push hn) hs hσ hσ'
  exact ⟨u, hu, h.inv.step hu, by rw [hports]; exact h.wstate, by rw [hports]; exact h.slot,
    h.pushed.congr (by rw [hports])⟩

/-- In PUSH the writer's step comes first where the schedule says nothing (log entry 7). -/
theorem turnOf_push (hw : t.wstate = .push) (hs : t.sched = []) : turnOf t = .writer := by
  simp [turnOf, hs, defaultTurn, internalDue, hw]

/-- What AcceptedFrameIsPushedWhole says of the state after the twelfth turn of the writer. -/
theorem Pushing.finish (h : Pushing s 12 t) : t.wstate = .hunt ∧
    content t = (content s ++ framePoints s).drop (s.count.toNat + (framePoints s).length - s.params.capacity) ∧
    t.pushes = s.pushes + BitVec.ofNat 32 (framePoints s).length ∧
    t.samplesZero = s.samplesZero + BitVec.ofNat 32 (12 - (framePoints s).length) ∧ t.srcQ = s.srcQ := by
  have hcontent := h.pushed.content
  rw [List.rtake, List.length_append, content_length] at hcontent
  exact ⟨h.wstate, hcontent, h.pushed.pushes, h.pushed.samplesZero, h.pushed.srcQ⟩

end Pushing

end Sys2Proof.Machine

namespace Sys2Proof.Proofs

open Machine Safety

/-- Settles O20: the candidate is acceptable, and the fields latched are FB's. -/
theorem decodeAcceptsAMatchingFrame : Obligations.DecodeAcceptsAMatchingFrame :=
  fun _ hw hnb hm hc => exec_decode_accept hw ⟨hnb, hm, hc⟩

/-- Settles O21: a candidate with another checksum is not acceptable. -/
theorem decodeRejectsAMismatch : Obligations.DecodeRejectsAMismatch :=
  fun _ hw _ _ hc => exec_decode_reject hw fun ⟨_, _, h⟩ => hc h

/-- Settles O22: a malformed candidate is not acceptable, and the invariant excludes it (R14, R15). -/
theorem defensiveCheckActsAsAMismatch : Obligations.DefensiveCheckActsAsAMismatch := by
  refine ⟨fun s hw hbad => exec_decode_reject hw fun ⟨hnb, hm, _⟩ => ?_, fun s h hw => ?_⟩
  · exact hbad.elim (absurd hnb) (absurd hm)
  · have hseq := h.sequencer
    simp only [SequencerOk, hw] at hseq
    exact ⟨hseq.1, h.marker (by simp [heldBytes, hw])⟩

/-- Settles O23: a byte's change leaves the candidate unacceptable. -/
theorem oneChangedByteIsAlwaysRejected : Obligations.OneChangedByteIsAlwaysRejected := by
  intro s j b hw hnb hm hc hp hj hb
  exact ⟨_, exec_decode_reject hw (not_acceptable_fbStore ⟨hnb, hm, hc⟩ hp hj hb), rfl, rfl, rfl, rfl⟩

/-- Settles O25: the model's natural-number span is the mathematical one, and the ends are eleven times S and E. -/
theorem slotAnglesSpanStartToEnd : Obligations.SlotAnglesSpanStartToEnd := by
  intro s i _ S E D
  have hS : (normAngle (startRawOf (fbRead s)) : Int) = S := normAngle_le16 _ _
  have hE : (normAngle (endRawOf (fbRead s)) : Int) = E := normAngle_le16 _ _
  have hD : (angleSpan (normAngle (startRawOf (fbRead s))) (normAngle (endRawOf (fbRead s))) : Int) = D := by
    rw [angleSpan_eq_emod (normAngle_lt _), hS, hE]
  refine ⟨?_, slotAngle_lt s i, ?_, ?_⟩
  · rw [← hD, ← hS, slotAngle, angleCode]
    push_cast
    rfl
  · rw [slotAngle, angleCode_zero, Nat.cast_mul, hS]
    rfl
  · rw [slotAngle, angleCode_eleven, Nat.cast_mul, hE]
    rfl

/-- Settles O31: the slot is counted, and the sequencer moves on. -/
theorem pushSkipsZeroDistance : Obligations.PushSkipsZeroDistance := by
  intro s hw hslot hd
  exact ⟨_, exec_push_zero hw hslot hd, nextSlot_samplesZero _,
    nextSlot_sequencer (s := { s with samplesZero := s.samplesZero + 1 }) hw hslot,
    by rw [nextSlot_samplesZero]; exact nextSlot_frame _⟩

/-- Settles O32: only PUSH writes RAM, and only the point of a slot that has a distance. -/
theorem everyPointHasADistanceAndAnAngle : Obligations.EveryPointHasADistanceAndAnAngle := by
  intro s t i ht hram
  obtain hsame | ⟨hd, hwrite⟩ := (exec_effect ht).ram_cases
  · exact absurd hsame hram
  · exact ⟨_, _, _, by bv_omega, by bv_omega, slotAngle_lt s s.slot.toNat, hwrite⟩

/-- Settles O60: each turn of the writer deals with one slot, and any other turn changes the ports at most. -/
theorem acceptedFrameIsPushedWhole : Obligations.AcceptedFrameIsPushedWhole := by
  intro s h hw hslot
  have hstart := Pushing.start h hw hslot
  have hown : ∀ n t, n < 12 → Pushing s n t → turnOf t = .writer → ∃ u, step t = .next u ∧ Pushing s (n + 1) u :=
    fun _ _ hn ht => ht.step_writer hn
  refine ⟨fun us ts hs hcount hus => ?_, fun hs => ?_⟩
  · obtain ⟨t, hrun, ht, hts⟩ := run_own_turns hown (fun _ _ _ _ hn ht => ht.step_other hn) us ts 0 s hstart hs hus
      (by omega)
    rw [hcount] at ht
    obtain ⟨hhunt, hcontent, hpushes, hzero, hsrc⟩ := ht.finish
    exact ⟨t, hrun, hhunt, hcontent, hpushes, hzero, hsrc, hts⟩
  · obtain ⟨t, hrun, ht⟩ := run_own_default hown (fun _ _ hn ht => turnOf_push (ht.wstate_eq_push hn)) 12 0 s hstart hs
      (by omega)
    obtain ⟨hhunt, hcontent, hpushes, hzero, -⟩ := ht.finish
    exact ⟨t, hrun, hhunt, hcontent, hpushes, hzero⟩

/-- Settles O24: closed values, computed by the model. -/
theorem crcCheckValues : Obligations.CrcCheckValues := by
  unfold Obligations.CrcCheckValues
  decide +kernel

end Sys2Proof.Proofs

/-! PROOFS. The projector (42_projector.md): every build's coordinate against the ideal one, and the exact angles of R94. -/

namespace Sys2Proof.Machine

/-- An integer less than one away from a real number is its floor or its ceiling. -/
theorem eq_floor_or_eq_ceil {n : ℤ} {x : ℝ} (h : |(n : ℝ) - x| < 1) : n = ⌊x⌋ ∨ n = ⌈x⌉ := by
  obtain ⟨hlow, hhigh⟩ := abs_lt.1 h
  obtain hle | hlt := le_or_gt (n : ℝ) x
  · exact .inl (Int.floor_eq_iff.2 ⟨hle, by linarith⟩).symm
  · exact .inr (Int.ceil_eq_iff.2 ⟨by linarith, hlt.le⟩).symm

/-! ## Rounding and the ideal coordinate -/

section Rounding

variable (build : ProjBuild) (axis : Axis) {d a : Nat} (hd : d ≤ 65535) (ha : a < 396000)
include hd ha

/-- The 2^-40 that rounding spares is more than the fraction's distance from the ideal coordinate. -/
theorem project_sub_ideal_lt_one : |(project build axis d a : ℝ) - 256 * d * idealTrig axis a| < 1 := by
  have hround := project_error build axis d a
  have hcoord := coordinate_error axis hd ha
  calc |(project build axis d a : ℝ) - 256 * d * idealTrig axis a|
      ≤ _ + _ := abs_sub_le _ (coordinate axis d a).val _
    _ < (1 - 1 / 2 ^ 40) + 1 / 2 ^ 41 := add_lt_add_of_lt_of_le hround hcoord
    _ ≤ 1 := by norm_num

/-- R91, for either axis. -/
theorem project_faithful : project build axis d a = ⌊256 * d * idealTrig axis a⌋ ∨
    project build axis d a = ⌈256 * d * idealTrig axis a⌉ :=
  eq_floor_or_eq_ceil (project_sub_ideal_lt_one build axis hd ha)

/-- R92's rounding, for either axis: half a unit from the fraction, which is within 2^-41 of the ideal coordinate. -/
theorem project_reference_error :
    |(project .reference axis d a : ℝ) - 256 * d * idealTrig axis a| ≤ 1 / 2 + 1 / 2 ^ 40 := by
  have hround : |(project .reference axis d a : ℝ) - (coordinate axis d a).val| ≤ 1 / 2 :=
    nearest_error (coordinate_den_pos axis d a)
  have hcoord := coordinate_error axis hd ha
  calc |(project .reference axis d a : ℝ) - 256 * d * idealTrig axis a|
      ≤ _ + _ := abs_sub_le _ (coordinate axis d a).val _
    _ ≤ 1 / 2 + 1 / 2 ^ 41 := add_le_add hround hcoord
    _ ≤ 1 / 2 + 1 / 2 ^ 40 := by norm_num

/-- R94's reason: an ideal coordinate that is an integer is its own floor and ceiling. -/
theorem project_eq_of_exact {c : ℤ} (hc : 256 * idealTrig axis a = c) : project build axis d a = c * d := by
  have hideal : 256 * d * idealTrig axis a = ((c * d : ℤ) : ℝ) := by
    rw [mul_right_comm, hc]
    norm_cast
  have h := project_faithful build axis hd ha
  rwa [hideal, Int.floor_intCast, Int.ceil_intCast, or_self] at h

end Rounding

/-! ## The exact angles -/

theorem idealTrig_add_half_turn (axis : Axis) (a : Nat) : idealTrig axis (a + 198000) = -idealTrig axis a := by
  have hθ : ((a + 198000 : Nat) : ℝ) * Real.pi / 198000 = a * Real.pi / 198000 + Real.pi := by
    push_cast
    ring
  cases axis
  · simp only [idealTrig, hθ, Real.cos_add_pi]
  · simp only [idealTrig, hθ, Real.sin_add_pi]

/-- An angle of the first half turn that is exact is so again half a turn on, with the sign changed. -/
theorem project_exact_and_half_turn (build : ProjBuild) (axis : Axis) {d a : Nat} {c : ℤ} (hd : d ≤ 65535)
    (hc : 256 * idealTrig axis a = c) (ha : a < 198000 := by decide) :
    project build axis d a = c * d ∧ project build axis d (a + 198000) = -c * d := by
  refine ⟨project_eq_of_exact build axis hd (by omega) hc, project_eq_of_exact build axis hd (by omega) ?_⟩
  rw [idealTrig_add_half_turn, mul_neg, hc, Int.cast_neg]

/-- R94's cosines in the first half turn: 0, 60, 90 and 120 degrees. -/
theorem idealTrig_x_exact : 256 * idealTrig .x 0 = (256 : ℤ) ∧ 256 * idealTrig .x 66000 = (128 : ℤ) ∧
    256 * idealTrig .x 99000 = (0 : ℤ) ∧ 256 * idealTrig .x 132000 = (-128 : ℤ) := by
  have h60 : ((66000 : Nat) : ℝ) * Real.pi / 198000 = Real.pi / 3 := by push_cast; ring
  have h90 : ((99000 : Nat) : ℝ) * Real.pi / 198000 = Real.pi / 2 := by push_cast; ring
  have h120 : ((132000 : Nat) : ℝ) * Real.pi / 198000 = Real.pi - Real.pi / 3 := by push_cast; ring
  simp only [idealTrig, h60, h90, h120, Real.cos_pi_sub, Real.cos_pi_div_three, Real.cos_pi_div_two]
  norm_num

/-- R94's sines in the first half turn: 0, 30, 90 and 150 degrees. -/
theorem idealTrig_y_exact : 256 * idealTrig .y 0 = (0 : ℤ) ∧ 256 * idealTrig .y 33000 = (128 : ℤ) ∧
    256 * idealTrig .y 99000 = (256 : ℤ) ∧ 256 * idealTrig .y 165000 = (128 : ℤ) := by
  have h30 : ((33000 : Nat) : ℝ) * Real.pi / 198000 = Real.pi / 6 := by push_cast; ring
  have h90 : ((99000 : Nat) : ℝ) * Real.pi / 198000 = Real.pi / 2 := by push_cast; ring
  have h150 : ((165000 : Nat) : ℝ) * Real.pi / 198000 = Real.pi - Real.pi / 6 := by push_cast; ring
  simp only [idealTrig, h30, h90, h150, Real.sin_pi_sub, Real.sin_pi_div_six, Real.sin_pi_div_two]
  norm_num

end Sys2Proof.Machine

namespace Sys2Proof.Proofs

open Machine

/-- Settles O26: rounding and the fraction's error together stay below one unit. -/
theorem projectionIsFaithful : Obligations.ProjectionIsFaithful :=
  fun build _ _ _ hd ha => ⟨project_faithful build .x hd ha, project_faithful build .y hd ha⟩

/-- Settles O27: half a unit of rounding, and the fraction's error. -/
theorem referenceProjectionIsWithinHalfAUnit : Obligations.ReferenceProjectionIsWithinHalfAUnit :=
  fun _ _ _ hd ha => ⟨project_reference_error .x hd ha, project_reference_error .y hd ha⟩

/-- Settles O28: the ideal coordinate is an integer there, so a faithful one can only be it. The four angles of each
axis' first half turn give the four of the second. -/
theorem exactAnglesAreExact : Obligations.ExactAnglesAreExact := by
  intro build d _ hd
  obtain ⟨hx0, hx60, hx90, hx120⟩ := idealTrig_x_exact
  obtain ⟨hy0, hy30, hy90, hy150⟩ := idealTrig_y_exact
  obtain ⟨x0, x180⟩ := project_exact_and_half_turn build .x hd hx0
  obtain ⟨x60, x240⟩ := project_exact_and_half_turn build .x hd hx60
  obtain ⟨x90, x270⟩ := project_exact_and_half_turn build .x hd hx90
  obtain ⟨x120, x300⟩ := project_exact_and_half_turn build .x hd hx120
  obtain ⟨y0, y180⟩ := project_exact_and_half_turn build .y hd hy0
  obtain ⟨y30, y210⟩ := project_exact_and_half_turn build .y hd hy30
  obtain ⟨y90, y270⟩ := project_exact_and_half_turn build .y hd hy90
  obtain ⟨y150, y330⟩ := project_exact_and_half_turn build .y hd hy150
  simp only [List.forall_mem_cons]
  exact ⟨⟨x0, x60, x90, x120, x180, x240, x270, x300, nofun⟩, ⟨y0, y30, y90, y150, y180, y210, y270, y330, nofun⟩⟩

end Sys2Proof.Proofs

/-! PROOFS. The ring-buffer write controller and the consumer ports (43_ringbuffer.md): a PUSH that has a point, the
eviction law, and what SNAP, READ and the reserved commands do to their port. -/

namespace Sys2Proof.Machine

open Safety

/-! ## PUSH of a point -/

section PushPoint

variable {s : State}

theorem exec_push_point (hw : s.wstate = .push) (hslot : s.slot.toNat ≤ 11)
    (hd : distOf (fbRead s) s.slot.toNat ≠ 0) (hh : s.head.toNat < s.params.capacity) :
    exec .push s = .next (nextSlot (afterRingWrite (slotPoint s s.slot.toNat) s)) := by
  rw [exec, execPush_eq, if_pos hw, if_pos hslot, if_neg hd, if_pos hh]

theorem ramRead_nextSlot (s : State) : ramRead (nextSlot s) = ramRead s := ramRead_congr (nextSlot_ram s)

/-- A push moves every port's SINCE by one, up to C, and nothing else of the port (R97). -/
theorem afterRingWrite_ports_getElem? {p : Nat} {q : Port} (pw : PointWord) (hq : s.ports[p]? = some q) :
    (afterRingWrite pw s).ports[p]? = some (bumpSince s.params.capacity q) := by
  simp [afterRingWrite, hq]

end PushPoint

/-! ## Pushes from reset (R99) -/

section Newest

variable {c : Params} {s : State} {xs : List PointWord}

/-- In state `s` of a build with parameters `c`, the ring holds the newest C of the points `xs`, in order. -/
structure HoldsNewest (c : Params) (xs : List PointWord) (s : State) : Prop where
  inv : Inv s
  params : s.params = c
  content : content s = xs.rtake c.capacity

theorem content_resetWith (c : Params) : content (State.resetWith c) = [] :=
  List.eq_nil_of_length_eq_zero (content_length (State.resetWith c))

theorem HoldsNewest.ofReset (hc : c.legal) : HoldsNewest c [] (State.resetWith c) :=
  ⟨Proofs.resetStateMeetsTheInvariant c hc, rfl, by rw [content_resetWith, List.rtake_nil]⟩

theorem HoldsNewest.ringWrite (h : HoldsNewest c xs s) (pw : PointWord) :
    HoldsNewest c (xs ++ [pw]) (afterRingWrite pw s) := by
  obtain ⟨hinv, rfl, hcontent⟩ := h
  exact ⟨hinv.ringWrite pw, rfl, content_afterRingWrite_newest hinv pw hcontent⟩

/-- Ring writes one after another complete, and append their points to those pushed before. -/
theorem HoldsNewest.foldlM_ringWrite (pws : List PointWord) (h : HoldsNewest c xs s) :
    ∃ t, pws.foldlM (fun s pw => Machine.ringWrite pw s) s = .ok t ∧ HoldsNewest c (xs ++ pws) t := by
  induction pws generalizing s xs with
  | nil => exact ⟨s, rfl, by rwa [List.append_nil]⟩
  | cons pw pws ih =>
    obtain ⟨t, ht, hnew⟩ := ih (h.ringWrite pw)
    refine ⟨t, ?_, by rwa [List.append_cons]⟩
    rw [List.foldlM_cons, ringWrite_ok pw h.inv.head_lt]
    exact ht

theorem HoldsNewest.count (h : HoldsNewest c xs s) : s.count.toNat = min xs.length c.capacity := by
  rw [← content_length, h.content, List.rtake, List.length_drop]
  omega

end Newest

/-! ## A command that changes its own port -/

section Commands

variable {s : State} {p : Nat} {q : Port} {i : Instr}

/-- An instruction that is one change of port `p`: what it makes of that port, and its frame (R100). -/
theorem exec_of_onPort {f : Port → Port} (hi : exec i s = .next (onPort p f s)) (hq : s.ports[p]? = some q) :
    ∃ t, exec i s = .next t ∧ t.ports[p]? = some (f q) ∧
      (∀ p', p' ≠ p → t.ports[p']? = s.ports[p']?) ∧ t = { s with ports := t.ports } :=
  ⟨_, hi, onPort_ports_same hq, fun _ hp' => onPort_ports_other f s hp', onPort_frame p f s⟩

theorem exec_snap_eq (s : State) (p : Nat) (g : BitVec 28) :
    exec (.snap p g) s = .next (onPort p (fun q =>
      { takeSnapshot s q with rsp := some (Rsp.good (s.count.setWidth 32) s.pushes 0) }) s) := by
  rw [exec, execSnap, respond, onPort_onPort]
  rfl

/-- Staleness as R104 states it: SINCE is past C − COUNT_L + K. -/
theorem isStale_eq_false_iff_le {c k : Nat} (hle : q.countL.toNat ≤ c) :
    isStale c q k = false ↔ q.since.toNat ≤ c - q.countL.toNat + k := by
  rw [isStale_eq_false_iff]
  omega

/-- A READ in range and not stale answers with the entry (R102, R103). -/
theorem readRsp_of_valid {k : Nat} (hq : s.ports[p]? = some q) (hk : k < q.countL.toNat)
    (hle : q.countL.toNat ≤ s.params.capacity) (hsince : q.since.toNat ≤ s.params.capacity - q.countL.toNat + k) :
    readRsp s p k = pointRsp (ramRead s (physIndex s.params.capacity q k)) := by
  obtain rfl := portAt_of_getElem? hq
  exact if_pos ⟨hk, (isStale_eq_false_iff_le hle).2 hsince⟩

/-- A READ out of range or stale answers with no data (R102, R104). -/
theorem readRsp_of_invalid {k : Nat} (hq : s.ports[p]? = some q) (hle : q.countL.toNat ≤ s.params.capacity)
    (hbad : q.countL.toNat ≤ k ∨ q.since.toNat > s.params.capacity - q.countL.toNat + k) :
    readRsp s p k = Rsp.stale := by
  obtain rfl := portAt_of_getElem? hq
  refine if_neg fun ⟨hk, hfresh⟩ => ?_
  rw [isStale_eq_false_iff_le hle] at hfresh
  omega

end Commands

end Sys2Proof.Machine

namespace Sys2Proof.Proofs

open Machine Safety

/-- Settles O30: the PUSH is a ring write of the slot's point and a move to the next slot, and each clause is one of the
laws of the two. -/
theorem pushWritesThePoint : Obligations.PushWritesThePoint := by
  intro s hw hslot hd hh hcap
  have hpos : 1 ≤ s.params.capacity := by omega
  refine ⟨_, exec_push_point hw hslot hd hh, ?_, fun idx hidx => ?_, ?_, ?_, ?_, ?_, fun p q hq => ?_, ?_,
    nextSlot_sequencer (s := afterRingWrite (slotPoint s s.slot.toNat) s) hw hslot, ?_⟩
  · rw [ramRead_nextSlot, ramRead_afterRingWrite, if_pos rfl, slotPoint]
  · rw [ramRead_nextSlot, ramRead_afterRingWrite, if_neg hidx]
  · rw [nextSlot_head, afterRingWrite_head _ hpos]
  · rw [nextSlot_head]
    rfl
  · rw [nextSlot_count, afterRingWrite_count _ hcap]
  · rw [nextSlot_pushes]
    rfl
  · rw [nextSlot_ports]
    exact ⟨_, bumpSince_since q hcap, afterRingWrite_ports_getElem? _ hq⟩
  · rw [nextSlot_ports]
    exact List.length_map _
  · rw [nextSlot_ram, nextSlot_head, nextSlot_count, nextSlot_pushes, nextSlot_ports]
    exact nextSlot_frame _

/-- Settles O35: by induction over the pushes, from a ring that holds the newest of the points before. -/
theorem ringHoldsTheNewestPushes : Obligations.RingHoldsTheNewestPushes := by
  intro c pws hc
  obtain ⟨t, ht, hnew⟩ := (HoldsNewest.ofReset hc).foldlM_ringWrite pws
  exact ⟨t, ht, hnew.count, hnew.content⟩

/-- Settles O37: the READ is one response, and it carries the entry's fields. -/
theorem readReturnsAValidEntry : Obligations.ReadReturnsAValidEntry := by
  intro s p g k q hq hk hle hsince
  have hread := execRead_eq s p g k
  rw [readRsp_of_valid hq hk hle hsince] at hread
  simp only [BitVec.ofNat_toNat]
  exact exec_of_onPort (i := .read p g k) hread hq

/-- Settles O38: out of range or stale, the READ is the one response with no data. -/
theorem readOutOfRangeOrStaleIsInvalid : Obligations.ReadOutOfRangeOrStaleIsInvalid := by
  intro s p g k q hq hle hbad
  have hread := execRead_eq s p g k
  rw [readRsp_of_invalid hq hle hbad] at hread
  exact exec_of_onPort (i := .read p g k) hread hq

/-- Settles O36: the latch is taken and the response given in one change of the port. -/
theorem snapLatchesTheRing : Obligations.SnapLatchesTheRing := by
  intro s p g q hq
  rw [BitVec.ofNat_toNat]
  exact exec_of_onPort (exec_snap_eq s p g) hq

/-- Settles O41: each of the three rows is the one refusal. -/
theorem reservedCommandsAreRefused : Obligations.ReservedCommandsAreRefused := by
  intro s p g a b q i hq hi
  have hrefused : exec i s = .next (respond p Rsp.refusal s) := by
    simp only [List.mem_cons, List.not_mem_nil, or_false] at hi
    rcases hi with rfl | rfl | rfl <;> rfl
  exact exec_of_onPort hrefused hq

end Sys2Proof.Proofs

/-! PROOFS. Exceptions (60_exceptions.md): CLOSED is left by RESET alone (R121, R123), and no step from a state that meets
the invariant stops (R113, R134). -/

namespace Sys2Proof.Machine

/-- In CLOSED no writer row is enabled: what is left is the commands, which answer on their ports, and the frames the
source queues (R121). -/
theorem Effect.frame_of_closed {s t : State} {i : Instr} (e : Effect s i t) (hi : i ≠ .reset)
    (hw : s.wstate = .closed) : t = { s with ports := t.ports, srcQ := t.srcQ } := by
  cases e with
  | huntMarker hw' | huntSkip _ hw' | huntTimeout _ hw' | rsvdInHunt _ hw' => cases hw.symm.trans hw'
  | collectByte _ hw' | collectLast _ hw' | collectTimeout _ hw' | rsvdInCollect _ hw' => cases hw.symm.trans hw'
  | closed _ hw' => obtain hw' | hw' := hw' <;> cases hw.symm.trans hw'
  | accept hw' | reject hw' => cases hw.symm.trans hw'
  | pushZero hw' | pushPoint hw' => cases hw.symm.trans hw'
  | reset => exact absurd rfl hi
  | unchanged | wireFrame => rfl
  | snap | readValid | readInvalid | stat | statUndefined | rsvd0 | rsvd47 | rsvd8F => rfl

end Sys2Proof.Machine

namespace Sys2Proof.Proofs

open Machine

/-- Settles O51: under the invariant PUSH stays inside the frame and the ring, a READ inside the ring, and every other
meaning answers in all states. -/
theorem stepNeverStops : Obligations.StepNeverStops :=
  fun _ h => step_completes h

/-- Settles O47: the frame of an instruction in CLOSED, which holds WSTATE too. -/
theorem onlyResetLeavesClosed : Obligations.OnlyResetLeavesClosed := by
  intro s t i ht hw hi
  have hframe := (exec_effect ht).frame_of_closed hi hw
  have hwstate : t.wstate = s.wstate := by rw [hframe]
  exact ⟨hwstate.trans hw, hframe⟩

end Sys2Proof.Proofs

/-! PROOFS. Reset and hazards (70_reset_and_hazards.md): where the run is over, every agent's turn passes (R134). -/

namespace Sys2Proof.Machine

/-! ## Turns of agents that have nothing enabled -/

section Idle

variable {s : State}

/-- A writer's turn where no internal step is due passes. -/
theorem step_writer_idle (ht : turnOf s = .writer) (hi : internalDue s = false) : step s = .next (afterTurn s) := by
  have ho : offered s (turnOf s) = some .internal := by rw [ht]; rfl
  have hd : decode (ctxOf s) .internal = .error .noInternalStep := by
    simp only [decode, decodeInternal, ctxOf]
    cases hw : s.wstate with
    | decode | push => simp [internalDue, hw] at hi
    | hunt | collect | closed => rfl
  exact step_rejects ho hd

/-- A source's turn passes where the source has nothing to give to a writer that asks for it; a writer that does not ask
leaves it what it has. -/
theorem step_source_idle {ts : List Turn} (hs : s.sched = .source :: ts) (hq : requests s = true → s.srcQ = []) :
    step s = .next (afterTurn s) := by
  cases hr : requests s with
  | true =>
    have ho : offered s (turnOf s) = none := by simp [turnOf_cons hs, offered, hq hr]
    exact step_waits ho
  | false => rw [step_source_unserved hs hr, afterTurn_cons hs]

/-- A port that is not the build's own reads as the port after reset, which has no command either. -/
theorem portAt_cmds_of_idle (hp : ∀ q ∈ s.ports, q.cmds = []) (p : Nat) : (portAt s p).cmds = [] := by
  cases h : s.ports[p]? with
  | some q => rw [portAt_of_getElem? h]; exact hp q (List.mem_of_getElem? h)
  | none => simp [portAt, List.getD, h, Port.reset]

/-- A consumer's turn where no command is pending passes. -/
theorem step_consumer_idle {p : Nat} (ht : turnOf s = .consumer p) (hp : ∀ q ∈ s.ports, q.cmds = []) :
    step s = .next (afterTurn s) := by
  have ho : offered s (turnOf s) = none := by simp [ht, offered, portAt_cmds_of_idle hp p]
  exact step_waits ho

theorem firstPending_of_idle : ∀ {ports : List Port} (n : Nat), (∀ q ∈ ports, q.cmds = []) →
    firstPending ports n = none
  | [], _, _ => rfl
  | q :: qs, n, h => by
    rw [firstPending, if_pos (h q List.mem_cons_self)]
    exact firstPending_of_idle (n + 1) fun r hr => h r (List.mem_cons_of_mem _ hr)

/-- Where the schedule is empty and no agent has anything to do, the turn falls to the writer (log entry 7). -/
theorem turnOf_idle (hs : s.sched = []) (hi : internalDue s = false) (hq : requests s = true → s.srcQ = [])
    (hp : ∀ q ∈ s.ports, q.cmds = []) : turnOf s = .writer := by
  have hsource : ¬ (requests s ∧ s.srcQ ≠ []) := fun ⟨hr, hne⟩ => hne (hq hr)
  simp only [turnOf, hs, defaultTurn, hi, if_neg hsource, firstPending_of_idle 0 hp, Bool.false_eq_true, if_false]

end Idle

end Sys2Proof.Machine

namespace Sys2Proof.Proofs

open Machine

/-- Settles O57: whosever turn it is, named by the schedule or by default, passes. -/
theorem nothingMovesWhenTheRunIsOver : Obligations.NothingMovesWhenTheRunIsOver := by
  rintro s ⟨hwriter, hsource, hports, hhost⟩
  suffices hpass : step s = .next (afterTurn s) from hpass
  cases hs : s.sched with
  | nil => exact step_writer_idle (turnOf_idle hs hwriter hsource hports) hwriter
  | cons τ ts =>
    cases τ with
    | writer => exact step_writer_idle (turnOf_cons hs) hwriter
    | source => exact step_source_idle hs hsource
    | consumer p => exact step_consumer_idle (turnOf_cons hs) hports
    | host line =>
      have hline : line ≠ 1#1 := by
        rintro rfl
        exact hhost (hs ▸ List.mem_cons_self)
      rw [step_host_low hs hline, afterTurn_cons hs]

end Sys2Proof.Proofs
